-- ==== Sys2Proof/Word.lean ====
section
/-! DEFINITION. The words MAGCODEC moves: bytes on the bus, 16-bit operands and samples, 20-bit command words
(20_memory.md R30, 30_encoding.md R58). -/

namespace Sys2Proof

/-- A byte of the bus: a register address, a device address, a value (20_memory.md R30). -/
abbrev Byte := BitVec 8

/-- A 16-bit field: the operand `arg` (30_encoding.md R60) or a raw sample's pattern (10_state.md R20). -/
abbrev Half := BitVec 16

/-- A command word `cmd[19:0]` (30_encoding.md R58). -/
abbrev CmdWord := BitVec 20

end Sys2Proof
end

