-- ==== Sys2Proof/Syntax.lean ====
section
/-! DEFINITION. One constructor per row of spec/opcode_table.json. -/

namespace Sys2Proof

/-- The ten commands of 30_encoding.md R59, the two rows of reserved opcodes (R63), and the three byte encodings the
sequencer writes to the sensor's control registers (R50, R56). A command without an operand keeps its `arg`, because a word
whose `arg` is not 0 is accepted and completes with `ILLEGAL_CMD` (R63). -/
inductive Instr where
  /-- `SETODR v` (40_codec.md R74). -/
  | setodr (v : Half)
  /-- `SETRNG v` (40_codec.md R75). -/
  | setrng (v : Half)
  /-- `SETOSR v` (40_codec.md R76). -/
  | setosr (v : Half)
  /-- `SETMODE v` (40_codec.md R77). -/
  | setmode (v : Half)
  /-- `INIT` (41_init.md R90). -/
  | init (arg : Half)
  /-- `RDRAW` (42_acquisition.md R102). -/
  | rdraw (arg : Half)
  /-- `READ` (42_acquisition.md R104). -/
  | read (arg : Half)
  /-- `HEAD` (43_heading.md R120). -/
  | head (arg : Half)
  /-- `ENC` (40_codec.md R78). -/
  | enc (arg : Half)
  /-- `DEC b` (40_codec.md R79). -/
  | dec (b : Half)
  /-- Opcodes 0xA and 0xB (30_encoding.md R63), with the 17 bits the row leaves free. -/
  | reservedAB (low : BitVec 17)
  /-- Opcodes 0xC to 0xF (30_encoding.md R63), with the 18 bits the row leaves free. -/
  | reservedCF (low : BitVec 18)
  /-- A Control-1 byte, field codes from bit 7 down (30_encoding.md R50). -/
  | ctrl1Byte (osr rng odr mode : BitVec 2)
  /-- The Control-2 byte 0x80 (30_encoding.md R56). -/
  | ctrl2SoftReset
  /-- The Control-2 byte 0x40 (30_encoding.md R56). -/
  | ctrl2RollOver
deriving DecidableEq, Repr

end Sys2Proof
end

