-- ==== Sys2Proof/WellFormed.lean ====
section
/-! DEFINITION. Which terms of `Instr` are instances of their row of spec/opcode_table.json. -/

namespace Sys2Proof

/-- A command without an operand has `arg` = 0 (30_encoding.md R63(b)); a Control-1 byte has legal MODE and RNG codes
(30_encoding.md R64). Every other operand value is an instance of its row. -/
def Instr.wellFormed : Instr → Bool
  | .setodr _ => true
  | .setrng _ => true
  | .setosr _ => true
  | .setmode _ => true
  | .init arg => arg == 0#16
  | .rdraw arg => arg == 0#16
  | .read arg => arg == 0#16
  | .head arg => arg == 0#16
  | .enc arg => arg == 0#16
  | .dec _ => true
  | .reservedAB _ => true
  | .reservedCF _ => true
  | .ctrl1Byte _ rng _ mode => decide (rng.toNat ≤ 1) && decide (mode.toNat ≤ 1)
  | .ctrl2SoftReset => true
  | .ctrl2RollOver => true

end Sys2Proof
end

