-- ==== Sys2Proof/Decode.lean ====
section
/-! DEFINITION. The decoder of command words (30_encoding.md R58, R59, R63) and of the control bytes the sequencer writes
(R50, R56, R64), the encoder from the same tables, and the host's table-word entry point. -/

namespace Sys2Proof

/-- What an instruction is read from: a word on the command port (30_encoding.md R58), or a byte value on its way to a
control register of the sensor (20_memory.md R36). -/
inductive Wire where
  | command (w : CmdWord)
  | control (reg val : Byte)
deriving DecidableEq, Repr

/-- Why bits are no instruction. Every 20-bit command word decodes (30_encoding.md R63), so all reasons concern control
bytes. -/
inductive DecodeError where
  /-- A Control-1 byte with a reserved MODE or RNG code (30_encoding.md R64). -/
  | reservedControl1
  /-- A Control-2 value other than 0x80 and 0x40 (30_encoding.md R56). -/
  | unknownControl2
  /-- A register MAGCODEC never writes (20_memory.md R36). -/
  | registerNotWritten
deriving DecidableEq, Repr

/-- `op` = `cmd[19:16]` (30_encoding.md R58). -/
def opOf (w : CmdWord) : BitVec 4 := w.extractLsb' 16 4

/-- `arg` = `cmd[15:0]` (30_encoding.md R58). -/
def argOf (w : CmdWord) : Half := w.extractLsb' 0 16

/-- The opcode map (30_encoding.md R59). -/
def decodeCommand (w : CmdWord) : Instr :=
  match (opOf w).toNat with
  | 0x0 => .setodr (argOf w)
  | 0x1 => .setrng (argOf w)
  | 0x2 => .setosr (argOf w)
  | 0x3 => .setmode (argOf w)
  | 0x4 => .init (argOf w)
  | 0x5 => .rdraw (argOf w)
  | 0x6 => .read (argOf w)
  | 0x7 => .head (argOf w)
  | 0x8 => .enc (argOf w)
  | 0x9 => .dec (argOf w)
  | 0xA => .reservedAB (w.extractLsb' 0 17)
  | 0xB => .reservedAB (w.extractLsb' 0 17)
  | _ => .reservedCF (w.extractLsb' 0 18)

/-- The Control-1 byte with the given field codes, `s ∥ r ∥ o ∥ m` (30_encoding.md R50, 40_codec.md R72). -/
def packControl1 (osr rng odr mode : BitVec 2) : Byte := (osr ++ rng) ++ (odr ++ mode)

/-- A byte on its way to register `reg` (20_memory.md R36; 30_encoding.md R50, R56, R64). -/
def decodeControl (reg val : Byte) : Except DecodeError Instr :=
  if reg = 0x09#8 then
    if val &&& 0x22#8 = 0#8 then
      .ok (.ctrl1Byte (val.extractLsb' 6 2) (val.extractLsb' 4 2) (val.extractLsb' 2 2) (val.extractLsb' 0 2))
    else .error .reservedControl1
  else if reg = 0x0A#8 then
    if val = 0x80#8 then .ok .ctrl2SoftReset
    else if val = 0x40#8 then .ok .ctrl2RollOver
    else .error .unknownControl2
  else .error .registerNotWritten

/-- The decoder, total: an instruction or a named reason. -/
def decode : Wire → Except DecodeError Instr
  | .command w => .ok (decodeCommand w)
  | .control reg val => decodeControl reg val

/-- `op << 16 | arg` (30_encoding.md R65). -/
def packCommand (op : BitVec 4) (arg : Half) : CmdWord := op ++ arg

/-- The encoder, from the same tables as the decoder (30_encoding.md R50, R56, R59, R63; 20_memory.md R36). -/
def encode : Instr → Wire
  | .setodr v => .command (packCommand 0x0#4 v)
  | .setrng v => .command (packCommand 0x1#4 v)
  | .setosr v => .command (packCommand 0x2#4 v)
  | .setmode v => .command (packCommand 0x3#4 v)
  | .init arg => .command (packCommand 0x4#4 arg)
  | .rdraw arg => .command (packCommand 0x5#4 arg)
  | .read arg => .command (packCommand 0x6#4 arg)
  | .head arg => .command (packCommand 0x7#4 arg)
  | .enc arg => .command (packCommand 0x8#4 arg)
  | .dec b => .command (packCommand 0x9#4 b)
  | .reservedAB low => .command (0b101#3 ++ low)
  | .reservedCF low => .command (0b11#2 ++ low)
  | .ctrl1Byte osr rng odr mode => .control 0x09#8 (packControl1 osr rng odr mode)
  | .ctrl2SoftReset => .control 0x0A#8 0x80#8
  | .ctrl2RollOver => .control 0x0A#8 0x40#8

/-- The bits of a wire as one number, bit 0 least significant, as spec/opcode_table.json numbers them. -/
def Wire.toNat : Wire → Nat
  | .command w => w.toNat
  | .control _ val => val.toNat

/-- Where a table word of `nbits` bits stands. Up to 8 bits: a control byte; 0x80 and 0x40 are taken for Control 2, whose
rows fix all 8 bits, every other value for Control 1 (log 9). More: a command word, whose bits above `cmd[19]` are 0 (log
10). -/
def wireOfTable (nbits w : Nat) : Option Wire :=
  if nbits ≤ 8 then
    if 256 ≤ w then none
    else if w = 0x80 ∨ w = 0x40 then some (.control 0x0A#8 (BitVec.ofNat 8 w))
    else some (.control 0x09#8 (BitVec.ofNat 8 w))
  else if 2 ^ 20 ≤ w then none
  else some (.command (BitVec.ofNat 20 w))

/-- The instruction the decoder reads from a table word. -/
def decodeTableWord (nbits w : Nat) : Option Instr :=
  match wireOfTable nbits w with
  | none => none
  | some wire =>
    match decode wire with
    | .ok i => some i
    | .error _ => none

/-- The pseudo-command `CONSTRUCT` (30_encoding.md R65): the setters of the options given, in the fixed order rate, range,
ratio, mode. -/
def construct (odr rng osr mode : Option Half) : List CmdWord :=
  (odr.map (packCommand 0x0#4)).toList ++ (rng.map (packCommand 0x1#4)).toList ++
    (osr.map (packCommand 0x2#4)).toList ++ (mode.map (packCommand 0x3#4)).toList

/-- The pseudo-command `START`, another name for `INIT` (30_encoding.md R65). -/
def start : CmdWord := packCommand 0x4#4 0#16

end Sys2Proof
end

