-- ==== Sys2Proof/Config.lean ====
section
/-! DEFINITION. What an instance of MAGCODEC fixes (00_scope.md R4: "A model takes them as one configuration record") and
the two free constants of the model. The record is carried read-only in State (log 1), so that a statement about every
state is a statement about every instance. -/

namespace Sys2Proof

/-- `SAMPLE_BYTE_ORDER` (20_memory.md R37). -/
inductive ByteOrder where
  | lowFirst
  | highFirst
deriving DecidableEq, Repr

/-- `MEAN_DIV` (42_acquisition.md R107). -/
inductive MeanDiv where
  | exact
  | truncZero
  | floor
deriving DecidableEq, Repr

/-- The parameters of 00_scope.md R4. `HeadingFn` is the field `headingFn`, which names an engine of
`Config.headingEngine`: the record is plain data and holds no function (log 13). `HEAD_EPS` is the rational
`headEpsNum / headEpsDen` degrees, `TICK` the rational `tickNum / tickDen` seconds, which no rule reads. -/
structure Params where
  hasHeading      : Bool
  busAddr         : Byte
  sampleByteOrder : ByteOrder
  failFast        : Bool
  guardNotReady   : Bool
  meanDiv         : MeanDiv
  accW            : Nat
  outW            : Nat
  fracW           : Nat
  headW           : Nat
  headFrac        : Nat
  headEpsNum      : Nat
  headEpsDen      : Nat
  headingFn       : Nat
  tickNum         : Nat
  tickDen         : Nat
deriving DecidableEq, Repr

/-- The column "value this spec takes" of 00_scope.md R4. `MEAN_DIV` is open there with default `Exact`; `TICK` is open
with no default: DESIGN CHOICE 1 (log 3). Its `HeadingFn` is any function within R124: the engine named 0. -/
def Params.default : Params where
  hasHeading      := true
  busAddr         := 0x0D#8
  sampleByteOrder := .lowFirst
  failFast        := true
  guardNotReady   := true
  meanDiv         := .exact
  accW            := 20
  outW            := 32
  fracW           := 24
  headW           := 16
  headFrac        := 7
  headEpsNum      := 1
  headEpsDen      := 128
  headingFn       := 0
  tickNum         := 1
  tickDen         := 1

/-- The column "type and legal values" of 00_scope.md R4. -/
def Params.wf (p : Params) : Bool :=
  decide (20 ≤ p.accW) && decide (p.fracW + 5 ≤ p.outW) && decide (7 ≤ p.fracW) &&
  decide (360 * 2 ^ p.headFrac < 2 ^ p.headW) && decide (1 ≤ p.headFrac) &&
  decide (0 < p.headEpsDen) && decide (p.headEpsDen ≤ p.headEpsNum * 2 ^ (p.headFrac + 1)) &&
  decide (0 < p.tickNum) && decide (0 < p.tickDen)

/-- `M` of 43_heading.md R124: the number of heading codes in 360 degrees. -/
def Params.headM (p : Params) : Nat := 360 * 2 ^ p.headFrac

/-- The width of `rsp_data` (30_encoding.md R62): 3 x `OUT_W` or 67, whichever is larger; 96 with the defaults. -/
def Params.rspW (p : Params) : Nat := max (3 * p.outW) 67

/-- FREE CONSTANT (log 13): what the heading engine of a given name computes for `y` and `x` (43_heading.md R124,
`HeadingFn`). `Machine.headingFn` keeps it inside the limits HP1 to HP5; nothing else is known of it. -/
opaque Config.headingEngine : Nat → Int → Int → Nat

/-- FREE CONSTANT (log 14): the counts per Gauss of the range codes 2 and 3, which 42_acquisition.md R106 does not give and
`CFG` never holds (10_state.md R13). -/
opaque Config.scaleOfReservedRange : BitVec 2 → Nat

end Sys2Proof
end

