-- ==== Sys2Proof/Machine/State.lean ====
section
/-! DEFINITION. The state of MAGCODEC (10_state.md), the inputs a run is given, the observations it leaves, and the state
after reset (70_reset_and_hazards.md R161). Plain data throughout. -/

namespace Sys2Proof.Machine

/-- `PHASE` (10_state.md R14); the value 3 is never held, so the type has three values (log 23). -/
inductive Phase where
  | uninitialized
  | initializing
  | ready
deriving DecidableEq, Repr

/-- `CFG`, the control register: four 2-bit field codes (10_state.md R12). -/
structure Cfg where
  mode : BitVec 2
  odr  : BitVec 2
  rng  : BitVec 2
  osr  : BitVec 2
deriving DecidableEq, Repr

/-- The completion statuses (60_exceptions.md R130); codes 8 to 15 are never produced (30_encoding.md R61). -/
inductive Status where
  | ok
  | invalidConfiguration
  | busError
  | notReady
  | seqError
  | illegalCmd
  | halted
  | reservedEncoding
deriving DecidableEq, Repr

/-- A response: `rsp_status` and `rsp_data` (30_encoding.md R61). The payload is the number its bits spell, since its width
depends on the instance (R62, log 12). -/
structure Response where
  status : Status
  data   : Nat
deriving DecidableEq, Repr

/-- An answer of the bus transport (20_memory.md R31 to R33, R46). `ok` carries `bus_rsp_rdata[47:0]`, byte `d[k]` in bits
8k+7..8k, meaningful for a read only (log 15). -/
inductive BusAnswer where
  | ok (rdata : BitVec 48)
  | busError
deriving DecidableEq, Repr

/-- A transaction MAGCODEC issues (20_memory.md R30). -/
inductive BusReq where
  | writeByte (addr reg val : Byte)
  | readBlock (addr reg : Byte) (len : Nat)
deriving DecidableEq, Repr

/-- How a byte write ended in the history (00_scope.md R6); `unknown` after a reset (70_reset_and_hazards.md R163). -/
inductive WriteResult where
  | ok
  | err
  | unknown
deriving DecidableEq, Repr

/-- How a block read ended in the history (00_scope.md R6); `unknown` after a reset (70_reset_and_hazards.md R163). -/
inductive ReadResult where
  | ok (bytes : List Byte)
  | err
  | unknown
deriving DecidableEq, Repr

/-- An event of the history: `W`, `R`, `D(t)` with `t` in milliseconds (00_scope.md R6). -/
inductive Event where
  | write (addr reg val : Byte) (res : WriteResult)
  | read (addr reg : Byte) (len : Nat) (res : ReadResult)
  | delay (ms : Nat)
deriving DecidableEq, Repr

/-- What a filtered read is for: the command `READ` or the command `HEAD`. -/
inductive Want where
  | gauss
  | heading
deriving DecidableEq, Repr

/-- The position inside the running command's pseudocode (10_state.md R11; log 7). -/
inductive Job where
  /-- No command in progress. -/
  | idle
  /-- `INIT`, step 1: the soft-reset write is in flight (41_init.md R90). -/
  | initReset
  /-- `INIT`, step 2: the settle delay is running. -/
  | initSettle
  /-- `INIT`, step 3: the Control-1 write of this byte is in flight. -/
  | initControl1 (val : Byte)
  /-- `INIT`, step 4: the roll-over write is in flight. -/
  | initRollOver
  /-- `RDRAW`: the block read is in flight (42_acquisition.md R102). -/
  | rawRead
  /-- `FilteredAcc()`: the block read number `CNT` + 1 is in flight (42_acquisition.md R105). -/
  | sample (want : Want)
  /-- `FilteredAcc()`: the delay after the block read number `CNT` is running. -/
  | gap (want : Want)
deriving DecidableEq, Repr

/-- The machine: the instance's parameters (log 1), the architectural state, the position in the running command, the
inputs (log 4) and the observations. -/
structure State where
  /-- The instance's parameters (00_scope.md R4), read-only. -/
  params    : Params
  /-- `CFG` (10_state.md R12). -/
  cfg       : Cfg
  /-- `PHASE` (10_state.md R14). -/
  phase     : Phase
  /-- `HALT` (10_state.md R15). -/
  halt      : Bool
  /-- `BUSY` (10_state.md R16). -/
  busy      : Bool
  /-- Position in the running command (10_state.md R11). -/
  job       : Job
  /-- `CNT` (10_state.md R18). -/
  cnt       : BitVec 4
  /-- `ACC_X` (10_state.md R19), the signed reading. -/
  accX      : Int
  /-- `ACC_Y`. -/
  accY      : Int
  /-- `ACC_Z`. -/
  accZ      : Int
  /-- `RAW_X` (10_state.md R20), the 16-bit pattern. -/
  rawX      : Half
  /-- `RAW_Y`. -/
  rawY      : Half
  /-- `RAW_Z`. -/
  rawZ      : Half
  /-- INPUT: the command words the host presents, the first at the port (30_encoding.md R58, 60_exceptions.md R150). -/
  cmds      : List CmdWord
  /-- INPUT: `rst` is asserted (70_reset_and_hazards.md R160). -/
  rst       : Bool
  /-- INPUT: the answers the bus gives, in order; none left means none comes (20_memory.md R33, 70_reset_and_hazards.md
  R173). -/
  answers   : List BusAnswer
  /-- INPUT: how many more delays come to their end (70_reset_and_hazards.md R170). -/
  timerEnds : Nat
  /-- OBSERVATION: the history, oldest first (00_scope.md R6). -/
  history   : List Event
  /-- OBSERVATION: the responses delivered, oldest first (30_encoding.md R61). -/
  responses : List Response
deriving DecidableEq, Repr

/-- No step of MAGCODEC ends in a fault: an exception is the status of a response (60_exceptions.md R142), and an unanswered
transaction leaves the block waiting (70_reset_and_hazards.md R173). The type has no constructor. -/
inductive Fault where
deriving DecidableEq, Repr

/-- Why `exec` has no meaning for an instruction. -/
inductive Refusal where
  /-- Raised by `exec` for an instruction without a meaning in the model (safe); no instruction raises it. -/
  | notModelled (mnemonic : String)
deriving DecidableEq, Repr

/-- The default configuration: continuous, 50 Hz, 2 Gauss, ratio 512 (10_state.md R12). -/
def Cfg.default : Cfg where
  mode := 1#2
  odr  := 1#2
  rng  := 0#2
  osr  := 0#2

/-- The state after reset (70_reset_and_hazards.md R161). `CNT`, `ACC_*`, `RAW_*`, unspecified there, are 0 (DESIGN CHOICE,
log 2); the inputs are empty and nothing has been observed (log 4). -/
def State.reset : State where
  params    := Params.default
  cfg       := Cfg.default
  phase     := .uninitialized
  halt      := false
  busy      := false
  job       := .idle
  cnt       := 0#4
  accX      := 0
  accY      := 0
  accZ      := 0
  rawX      := 0#16
  rawY      := 0#16
  rawZ      := 0#16
  cmds      := []
  rst       := false
  answers   := []
  timerEnds := 0
  history   := []
  responses := []

end Sys2Proof.Machine
end

