-- ==== Sys2Proof/Machine/Operands.lean ====
section
/-! DEFINITION. Operand forms and arithmetic: the mapping tables and validation (40_codec.md), the Control-1 image,
reassembly of samples, accumulation, mean, scale and payload layout (42_acquisition.md, 30_encoding.md R62). -/

namespace Sys2Proof.Machine

/-! ### The codec's tables -/

/-- The four configuration options (40_codec.md R70). -/
inductive Opt where
  | odr
  | rng
  | osr
  | mode
deriving DecidableEq, Repr

/-- The mapping table of an option: legal value and code (40_codec.md R70). -/
def optTable : Opt → List (Half × BitVec 2)
  | .odr  => [(10#16, 0#2), (50#16, 1#2), (100#16, 2#2), (200#16, 3#2)]
  | .rng  => [(2#16, 0#2), (8#16, 1#2)]
  | .osr  => [(512#16, 0#2), (256#16, 1#2), (128#16, 2#2), (64#16, 3#2)]
  | .mode => [(0#16, 0#2), (1#16, 1#2)]

/-- The legal list of an option, ascending (40_codec.md R71). -/
def legalList : Opt → List Half
  | .odr  => [10#16, 50#16, 100#16, 200#16]
  | .rng  => [2#16, 8#16]
  | .osr  => [64#16, 128#16, 256#16, 512#16]
  | .mode => [0#16, 1#16]

/-- The code of a legal value, from a table's rows (`OdrCode` and its siblings, 40_codec.md R70). -/
def codeIn : List (Half × BitVec 2) → Half → Option (BitVec 2)
  | [], _ => none
  | (v, c) :: rows, x => if x = v then some c else codeIn rows x

/-- The value of a legal code, from a table's rows (`OdrVal` and its siblings, 40_codec.md R70). -/
def valueIn : List (Half × BitVec 2) → BitVec 2 → Option Half
  | [], _ => none
  | (v, c) :: rows, x => if x = c then some v else valueIn rows x

/-- `Validate(option, v)` (40_codec.md R81): the code, or the legal list. -/
def validate (o : Opt) (v : Half) : Except (List Half) (BitVec 2) :=
  match codeIn (optTable o) v with
  | some c => .ok c
  | none => .error (legalList o)

/-- The write of one field of `CFG` (40_codec.md R74 to R77). -/
def Cfg.setField (c : Cfg) : Opt → BitVec 2 → Cfg
  | .odr,  code => { c with odr := code }
  | .rng,  code => { c with rng := code }
  | .osr,  code => { c with osr := code }
  | .mode, code => { c with mode := code }

/-- `CTRL1_IMAGE` (40_codec.md R72). -/
def ctrl1Image (c : Cfg) : Byte := packControl1 c.osr c.rng c.odr c.mode

/-- `Decode(b)` (40_codec.md R79): the four values mode, rate, range, ratio; none for a reserved byte (30_encoding.md
R64). -/
def decodeValues (b : Byte) : Option (Half × Half × Half × Half) :=
  match valueIn (optTable .mode) (b.extractLsb' 0 2), valueIn (optTable .odr) (b.extractLsb' 2 2),
    valueIn (optTable .rng) (b.extractLsb' 4 2), valueIn (optTable .osr) (b.extractLsb' 6 2) with
  | some m, some o, some r, some s => some (m, o, r, s)
  | _, _, _, _ => none

/-! ### Registers and constants -/

/-- Control 1 (20_memory.md R35). -/
def regControl1 : Byte := 0x09#8
/-- Control 2 (20_memory.md R35). -/
def regControl2 : Byte := 0x0A#8
/-- X output, where the sample block starts (20_memory.md R35). -/
def regXOut : Byte := 0x00#8
/-- The soft-reset value of Control 2 (30_encoding.md R56). -/
def softResetByte : Byte := 0x80#8
/-- The roll-over value of Control 2 (30_encoding.md R56). -/
def rollOverByte : Byte := 0x40#8
/-- Bytes in a sample block (30_encoding.md R57). -/
def blockLen : Nat := 6
/-- `N_SAMPLES` (00_scope.md R4). -/
def nSamples : Nat := 10
/-- `T_SETTLE` in milliseconds (00_scope.md R4). -/
def tSettle : Nat := 5
/-- `T_GAP` in milliseconds (00_scope.md R4). -/
def tGap : Nat := 10

/-! ### Samples -/

/-- `d[k]` of a block answer (20_memory.md R46). -/
def blockByte (rdata : BitVec 48) (k : Nat) : Byte := rdata.extractLsb' (8 * k) 8

/-- `d[0]` to `d[5]` (30_encoding.md R57). -/
def blockBytes (rdata : BitVec 48) : List Byte := (List.range blockLen).map (blockByte rdata)

/-- The 16-bit pattern of axis 0, 1 or 2 (x, y, z) (20_memory.md R37, 42_acquisition.md R101, R103). -/
def axisPattern (order : ByteOrder) (rdata : BitVec 48) (axis : Nat) : Half :=
  match order with
  | .lowFirst => blockByte rdata (2 * axis + 1) ++ blockByte rdata (2 * axis)
  | .highFirst => blockByte rdata (2 * axis) ++ blockByte rdata (2 * axis + 1)

/-- The signed reading of a pattern in `w` bits, two's complement (00_scope.md section 7; 10_state.md R19). -/
def wrapTc (w : Nat) (i : Int) : Int := i.bmod (2 ^ w)

/-- `ACC_a <- ACC_a + RAW_a` in `ACC_W` bits (42_acquisition.md R112). -/
def accumulate (accW : Nat) (acc : Int) (raw : Half) : Int := wrapTc accW (acc + raw.toInt)

/-! ### Mean and scale -/

/-- `MEAN_a` as numerator and denominator (42_acquisition.md R107). -/
def meanOf (d : MeanDiv) (acc : Int) : Int × Nat :=
  match d with
  | .exact => (acc, 10)
  | .truncZero => (acc.tdiv 10, 1)
  | .floor => (acc.fdiv 10, 1)

/-- `K(CFG.RNG)`, counts per Gauss (42_acquisition.md R106); free for the codes `CFG` never holds (log 14). -/
def countsPerGauss (rng : BitVec 2) : Nat :=
  if rng = 0#2 then 12000 else if rng = 1#2 then 3000 else Config.scaleOfReservedRange rng

/-- `RN(n / d)`: the nearest integer, the even one at a tie (00_scope.md section 7). -/
def roundNearest (n : Int) (d : Nat) : Int :=
  let q := n / (d : Int)
  let r := n % (d : Int)
  if 2 * r < d then q else if (d : Int) < 2 * r then q + 1 else if q % 2 = 0 then q else q + 1

/-- `Scale(ACC_a, CFG.RNG)` = `RN(G_a * 2^FRAC_W)` with `G_a` = `MEAN_a / K` (42_acquisition.md R108, R109). -/
def scale (p : Params) (acc : Int) (rng : BitVec 2) : Int :=
  let m := meanOf p.meanDiv acc
  roundNearest (m.1 * 2 ^ p.fracW) (m.2 * countsPerGauss rng)

/-- `HN_a`, the input of the heading function (43_heading.md R121). -/
def headingInput (d : MeanDiv) (acc : Int) : Int := (meanOf d acc).1

/-! ### Payloads (30_encoding.md R62) -/

/-- `tc_w(i)`, the two's-complement pattern (00_scope.md section 7). -/
def tc (w : Nat) (i : Int) : Nat := (i % (2 ^ w : Nat)).toNat

/-- 16-bit fields, the first in the lowest bits. -/
def packHalves : List Half → Nat
  | [] => 0
  | h :: t => h.toNat + 2 ^ 16 * packHalves t

/-- The legal list: entries from bit 0 up, the count in bits 66:64. -/
def legalPayload (l : List Half) : Nat := packHalves l + l.length * 2 ^ 64

/-- The raw sample: x in 15:0, y in 31:16, z in 47:32. -/
def rawPayload (x y z : Half) : Nat := packHalves [x, y, z]

/-- The Gauss outputs: three fields of `OUT_W` bits, x lowest. -/
def gaussPayload (outW : Nat) (x y z : Int) : Nat :=
  tc outW x + 2 ^ outW * tc outW y + 2 ^ (2 * outW) * tc outW z

/-- The heading: `HEAD_W` bits from bit 0 up. -/
def headingPayload (headW h : Nat) : Nat := h % 2 ^ headW

/-- The decoded values: mode, rate, range, ratio from bit 0 up. -/
def decPayload (m o r s : Half) : Nat := packHalves [m, o, r, s]

end Sys2Proof.Machine
end

