-- ==== Sys2Proof/Machine/Flags.lean ====
section
/-! DEFINITION. The flags `HALT` and `BUSY`, the register `PHASE` and the status codes: what sets them, what tests them, and
what the host sees of them (10_state.md R14 to R16, R23; 60_exceptions.md R130, R131, R134). There are no condition codes. -/

namespace Sys2Proof.Machine

/-- `PHASE` as a 2-bit value (10_state.md R14). -/
def Phase.code : Phase → BitVec 2
  | .uninitialized => 0#2
  | .initializing => 1#2
  | .ready => 2#2

/-- `rsp_status[3:0]` (30_encoding.md R61). -/
def Status.code : Status → BitVec 4
  | .ok => 0#4
  | .invalidConfiguration => 1#4
  | .busError => 2#4
  | .notReady => 3#4
  | .seqError => 4#4
  | .illegalCmd => 5#4
  | .halted => 6#4
  | .reservedEncoding => 7#4

/-- A command is accepted: `BUSY` <- 1 (10_state.md R16). -/
def accept (s : State) : State := { s with busy := true }

/-- `if FAIL_FAST then HALT <- 1` (60_exceptions.md R134). -/
def failFast (s : State) : State := { s with halt := s.halt || s.params.failFast }

/-- The guard of `RDRAW`, `READ`, `HEAD` fires: `GUARD_NOT_READY and PHASE != Ready` (60_exceptions.md R136). -/
def notReady (s : State) : Bool := s.params.guardNotReady && decide (s.phase ≠ .ready)

/-- The status output `busy` (10_state.md R23). -/
def State.busyOut (s : State) : Bool := s.busy

/-- The status output `phase[1:0]` (10_state.md R23). -/
def State.phaseOut (s : State) : BitVec 2 := s.phase.code

/-- The status output `halt` (10_state.md R23). -/
def State.haltOut (s : State) : Bool := s.halt

/-- `cmd_ready` = not `BUSY` (30_encoding.md R58). -/
def State.cmdReady (s : State) : Bool := !s.busy

end Sys2Proof.Machine
end

