-- ==== Sys2Proof/Machine/Heading.lean ====
section
/-! DEFINITION. The heading function (43_heading.md R122 to R127): the free engine of `Config.headingEngine` kept inside the
limits HP1 to HP5 of R124 (log 13). Angles of integer points are compared with rational angles exactly: the multiple `n` of
the angle of `x + iy` is the angle of its `n`-th power, and half turns are counted on the way. -/

namespace Sys2Proof.Machine

/-- An angle: `halves` half turns and the angle, at least 0 and less than 180 degrees, of the point (`re`, `im`). -/
structure Turn where
  halves : Nat
  re     : Int
  im     : Int
deriving DecidableEq, Repr

/-- `halves` half turns and the angle, at least 0 and less than 360 degrees, of (`re`, `im`), not the origin. -/
def turnOf (halves : Nat) (re im : Int) : Turn :=
  if 0 < im ∨ (im = 0 ∧ 0 < re) then ⟨halves, re, im⟩ else ⟨halves + 1, -re, -im⟩

/-- The sum of two angles: the complex product of the points. -/
def turnAdd (a b : Turn) : Turn :=
  turnOf (a.halves + b.halves) (a.re * b.re - a.im * b.im) (a.re * b.im + a.im * b.re)

/-- `n` times an angle, for `n` of at most `bits` binary digits. -/
def turnTimes (a : Turn) : Nat → Nat → Turn
  | 0, _ => ⟨0, 1, 0⟩
  | bits + 1, n =>
    let half := turnTimes a bits (n / 2)
    if n % 2 = 1 then turnAdd (turnAdd half half) a else turnAdd half half

/-- `n` times `HeadExact(y, x)` (43_heading.md R122). -/
def headTimes (y x : Int) (n : Nat) : Turn := turnTimes (turnOf 0 x y) (n.log2 + 1) n

/-- `HeadExact(y, x) <= q` degrees. -/
def headLe (y x : Int) (q : Rat) : Bool :=
  let t := headTimes y x (180 * q.den)
  decide ((t.halves : Int) < q.num) || (decide ((t.halves : Int) = q.num) && decide (t.im = 0))

/-- `q` degrees `<= HeadExact(y, x)`. -/
def headGe (y x : Int) (q : Rat) : Bool := decide (q.num ≤ ((headTimes y x (180 * q.den)).halves : Int))

/-- The heading in degrees a code stands for (43_heading.md R123). -/
def codeDeg (p : Params) (c : Nat) : Rat := (c : Rat) / 2 ^ p.headFrac

/-- `HEAD_EPS` in degrees (00_scope.md R4). -/
def headEps (p : Params) : Rat := (p.headEpsNum : Rat) / p.headEpsDen

/-- HP3 for the code `c`: `cdist(c / 2^HEAD_FRAC, HeadExact(y, x)) <= HEAD_EPS` (43_heading.md R124), the smaller of the two
ways round. -/
def meetsHeadEps (p : Params) (y x : Int) (c : Nat) : Bool :=
  (headGe y x (codeDeg p c - headEps p) && headLe y x (codeDeg p c + headEps p)) ||
    headLe y x (codeDeg p c - (360 - headEps p)) || headGe y x (codeDeg p c + (360 - headEps p))

/-- The correctly rounded engine `RN(HeadExact * 2^HEAD_FRAC) mod M` (43_heading.md R124, the reference of
95_test_vectors.md section 6): half of the whole number of half units, rounded up. -/
def headNearest (p : Params) (y x : Int) : Nat :=
  ((headTimes y x (180 * 2 ^ (p.headFrac + 1))).halves + 1) / 2 % p.headM

/-- The engine's code off the axes: the free engine's value modulo `M` (HP1) where it meets HP3, else the correctly rounded
code, which does. -/
def headOffAxis (p : Params) (y x : Int) : Nat :=
  let c := Config.headingEngine p.headingFn y x % p.headM
  if meetsHeadEps p y x c then c else headNearest p y x

/-- `HeadingFn(y, x)` (43_heading.md R124): exact on the axes (HP4), 0 at the origin (HP5, R126), elsewhere the instance's
engine inside its limits. -/
def headingFn (p : Params) (y x : Int) : Nat :=
  if y = 0 then (if 0 ≤ x then 0 else 180 * 2 ^ p.headFrac)
  else if x = 0 then (if 0 < y then 90 * 2 ^ p.headFrac else 270 * 2 ^ p.headFrac)
  else headOffAxis p y x

/-- `t` is `HeadExact(y, x)` (43_heading.md R122): `A` is the angle of the point (`x`, `y`) in radians, greater than -pi and
at most pi, from the positive x axis toward the positive y axis; `t` is `A` in degrees, plus 360 when that is negative. -/
def IsHeadExact (y x : Int) (t : ℝ) : Prop :=
  ∃ A r : ℝ, -Real.pi < A ∧ A ≤ Real.pi ∧ 0 < r ∧ (x : ℝ) = r * Real.cos A ∧ (y : ℝ) = r * Real.sin A ∧
    ((0 ≤ A ∧ t = A * 180 / Real.pi) ∨ (A < 0 ∧ t = A * 180 / Real.pi + 360))

/-- `cdist(u, v) <= e` (43_heading.md R124), on reals. -/
def CDistLe (u v e : ℝ) : Prop := |u - v| ≤ e ∨ 360 - |u - v| ≤ e

end Sys2Proof.Machine
end

