-- ==== Sys2Proof/Machine/Ops.lean ====
section
/-! DEFINITION. The shared operations: raising a status and completing (60_exceptions.md R142, R143), the bus primitives
(00_scope.md section 7, 20_memory.md), the running command one event at a time (41_init.md R90, 42_acquisition.md R101,
R105), reset (70_reset_and_hazards.md R160 to R163), and the command port. -/

namespace Sys2Proof.Machine

/-! ### Completion -/

/-- A response is delivered and `BUSY` falls (30_encoding.md R61, 10_state.md R16); the command is over. -/
def respond (st : Status) (data : Nat) (s : State) : State :=
  { s with busy := false, job := .idle, responses := s.responses ++ [⟨st, data⟩] }

/-- `complete OK(payload)` (00_scope.md section 7). -/
def completeOk (data : Nat) (s : State) : State := respond .ok data s

/-- `raise <Status>(info)`: taking an exception (60_exceptions.md R142). Nothing is saved, no mode changes, no control moves
to a handler; the host learns of it from the response. There is no return: the next command is accepted as `BUSY` has
fallen (R143). -/
def raise (st : Status) (data : Nat) (s : State) : State := respond st data s

/-! ### The bus and the delay timer -/

/-- An event is appended to the history (00_scope.md R6). -/
def logEvent (e : Event) (s : State) : State := { s with history := s.history ++ [e] }

/-- The request on the bus port, if one is pending (20_memory.md R30, R36, R46). A busy block has one, or a running delay, at
every moment a step begins: a request comes at once after what precedes it (DESIGN CHOICE, log 25). -/
def State.busRequest (s : State) : Option BusReq :=
  match s.job with
  | .initReset => some (.writeByte s.params.busAddr regControl2 softResetByte)
  | .initControl1 val => some (.writeByte s.params.busAddr regControl1 val)
  | .initRollOver => some (.writeByte s.params.busAddr regControl2 rollOverByte)
  | .rawRead => some (.readBlock s.params.busAddr regXOut blockLen)
  | .sample _ => some (.readBlock s.params.busAddr regXOut blockLen)
  | .idle => none
  | .initSettle => none
  | .gap _ => none

/-- The delay the timer is measuring, in milliseconds, if it is not idle (10_state.md R22, 60_exceptions.md R152). -/
def State.timer (s : State) : Option Nat :=
  match s.job with
  | .initSettle => some tSettle
  | .gap _ => some tGap
  | .idle => none
  | .initReset => none
  | .initControl1 _ => none
  | .initRollOver => none
  | .rawRead => none
  | .sample _ => none

/-- `bus_req_write` (20_memory.md R46). -/
def BusReq.isWrite : BusReq → Bool
  | .writeByte _ _ _ => true
  | .readBlock _ _ _ => false

/-- `bus_req_len[2:0]` (20_memory.md R46). -/
def BusReq.lenOut : BusReq → BitVec 3
  | .writeByte _ _ _ => 1#3
  | .readBlock _ _ len => BitVec.ofNat 3 len

/-- `MemWrite(reg, 1, v)` (20_memory.md R32): the next answer is taken and the event recorded; `onOk` or `onErr` follows.
With no answer the transaction stays in flight and nothing moves (70_reset_and_hazards.md R173). -/
def memWrite (reg val : Byte) (onOk onErr : State → State) (s : State) : State :=
  match s.answers with
  | [] => s
  | .ok _ :: rest => onOk (logEvent (.write s.params.busAddr reg val .ok) { s with answers := rest })
  | .busError :: rest => onErr (logEvent (.write s.params.busAddr reg val .err) { s with answers := rest })

/-- `MemRead(0x00, 6)` (20_memory.md R31): as `memWrite`, `onOk` with the six bytes. -/
def memRead (onOk : BitVec 48 → State → State) (onErr : State → State) (s : State) : State :=
  match s.answers with
  | [] => s
  | .ok rdata :: rest =>
    onOk rdata (logEvent (.read s.params.busAddr regXOut blockLen (.ok (blockBytes rdata))) { s with answers := rest })
  | .busError :: rest =>
    onErr (logEvent (.read s.params.busAddr regXOut blockLen .err) { s with answers := rest })

/-- `Delay(t)` begins: the event is recorded and the timer runs at position `at_` (00_scope.md section 7), in the same step as
the answer it follows (DESIGN CHOICE, log 25). -/
def beginDelay (ms : Nat) (at_ : Job) (s : State) : State := logEvent (.delay ms) { s with job := at_ }

/-- The running delay ends, if time goes that far (70_reset_and_hazards.md R170); `next` follows. -/
def endDelay (next : State → State) (s : State) : State :=
  match s.timerEnds with
  | 0 => s
  | n + 1 => next { s with timerEnds := n }

/-! ### INIT -/

/-- A failed write of `INIT`: `PHASE <- Uninitialized; raise BUS_ERROR()` (41_init.md R93). -/
def initFail (s : State) : State := raise .busError 0 { s with phase := .uninitialized }

/-- Inside `INIT`, with the write at position `at_` in flight. -/
def enterInit (at_ : Job) (s : State) : State := { s with phase := .initializing, busy := true, job := at_ }

/-- Step 1 of `INIT`: the soft-reset write; then the settle delay (41_init.md R90, R92). That no reset falls between the ok
answer and `D(5 ms)` is the model's choice (DESIGN CHOICE, log 25). -/
def writeSoftReset (s : State) : State :=
  memWrite regControl2 softResetByte (beginDelay tSettle .initSettle) initFail s

/-- Step 3 of `INIT`: the Control-1 write of `val`; then the roll-over write is issued (41_init.md R90). -/
def writeControl1 (val : Byte) (s : State) : State :=
  memWrite regControl1 val (fun s => { s with job := .initRollOver }) initFail s

/-- Step 4 of `INIT`: the roll-over write; then `PHASE <- Ready; complete OK()` (41_init.md R90). -/
def writeRollOver (s : State) : State :=
  memWrite regControl2 rollOverByte (fun s => completeOk 0 { s with phase := .ready }) initFail s

/-! ### Acquisition -/

/-- The reassembly of `RawRead()` (42_acquisition.md R101). -/
def latchRaw (rdata : BitVec 48) (s : State) : State :=
  { s with
    rawX := axisPattern s.params.sampleByteOrder rdata 0
    rawY := axisPattern s.params.sampleByteOrder rdata 1
    rawZ := axisPattern s.params.sampleByteOrder rdata 2 }

/-- The three additions and `CNT <- CNT + 1` of `FilteredAcc()` (42_acquisition.md R105, R112). -/
def addSample (s : State) : State :=
  { s with
    accX := accumulate s.params.accW s.accX s.rawX
    accY := accumulate s.params.accW s.accY s.rawY
    accZ := accumulate s.params.accW s.accZ s.rawZ
    cnt := s.cnt + 1#4 }

/-- `ACC_X <- 0; ACC_Y <- 0; ACC_Z <- 0; CNT <- 0`, and the first block read is issued (42_acquisition.md R105). -/
def beginFiltered (want : Want) (s : State) : State :=
  { s with accX := 0, accY := 0, accZ := 0, cnt := 0#4, job := .sample want }

/-- `raise BUS_ERROR()` of an acquisition: no persistent state changes (42_acquisition.md R110, 60_exceptions.md R132). -/
def acquireFail (s : State) : State := raise .busError 0 s

/-- The block read of `RDRAW` and its completion (42_acquisition.md R102). -/
def readRawSample (s : State) : State :=
  memRead
    (fun rdata s =>
      let s := latchRaw rdata s
      completeOk (rawPayload s.rawX s.rawY s.rawZ) s)
    acquireFail s

/-- One block read of `FilteredAcc()`, its accumulation, and the start of the delay after it (42_acquisition.md R105). That no
reset falls between the ok answer and `D(10 ms)` is the model's choice (DESIGN CHOICE, log 25). -/
def readSample (want : Want) (s : State) : State :=
  memRead (fun rdata s => beginDelay tGap (.gap want) (addSample (latchRaw rdata s))) acquireFail s

/-- After the tenth delay: the outputs of `READ` (42_acquisition.md R104) or the heading of `HEAD` (43_heading.md R120). -/
def finishFiltered (want : Want) (s : State) : State :=
  match want with
  | .gauss =>
    completeOk (gaussPayload s.params.outW (scale s.params s.accX s.cfg.rng) (scale s.params s.accY s.cfg.rng)
      (scale s.params s.accZ s.cfg.rng)) s
  | .heading =>
    completeOk (headingPayload s.params.headW
      (headingFn s.params (headingInput s.params.meanDiv s.accY) (headingInput s.params.meanDiv s.accX))) s

/-- The test `while CNT < 10` (42_acquisition.md R105). -/
def nextSample (want : Want) (s : State) : State :=
  if s.cnt.toNat < nSamples then { s with job := .sample want } else finishFiltered want s

/-! ### The running command -/

/-- The running command takes the answer or the end of a delay it waits for, if that is there, and goes on to the next wait or
to its response (00_scope.md R5, R6). The next request and the response come at once, with no moment before them in which
reset could find `BUSY` 1 and nothing in flight (70_reset_and_hazards.md R163 leaves this open; DESIGN CHOICE, log 25). -/
def advance (s : State) : State :=
  match s.job with
  | .idle => s
  | .initReset => writeSoftReset s
  | .initSettle => endDelay (fun s => { s with job := .initControl1 (ctrl1Image s.cfg) }) s
  | .initControl1 val => writeControl1 val s
  | .initRollOver => writeRollOver s
  | .rawRead => readRawSample s
  | .sample want => readSample want s
  | .gap want => endDelay (nextSample want) s

/-- `n` answers and ends of delays of the running command. -/
def run : Nat → State → State
  | 0, s => s
  | n + 1, s => run n (advance s)

/-- The most answers and ends of delays one command takes: ten reads and ten delays (42_acquisition.md R105). -/
def maxEvents : Nat := 20

/-- The running command goes on as far as its inputs allow, to its response if they suffice (log 5), and stops only
where a transaction is in flight or a delay runs (DESIGN CHOICE, log 25). -/
def runCommand (s : State) : State := run maxEvents s

/-! ### Reset and the command port -/

/-- The event a transaction in flight leaves when reset abandons it (70_reset_and_hazards.md R163). -/
def BusReq.abandoned : BusReq → Event
  | .writeByte addr reg val => .write addr reg val .unknown
  | .readBlock addr reg len => .read addr reg len .unknown

/-- `rst` (70_reset_and_hazards.md R160 to R163): every piece of state takes its reset value, the running command gets no
response, a transaction in flight ends the history with an unknown outcome and its answer, if it comes, is ignored. The
parameters, the other inputs and what was observed before stay (log 6). Where in a command reset can land: log 25. -/
def resetBlock (s : State) : State :=
  { State.reset with
    params := s.params
    cmds := s.cmds
    answers := match s.busRequest with
      | none => s.answers
      | some _ => s.answers.tail
    timerEnds := s.timerEnds
    history := match s.busRequest with
      | none => s.history
      | some req => s.history ++ [req.abandoned]
    responses := s.responses }

/-- The command word the block accepts now, with the state once it has left the port: the first one presented, when `BUSY`
is 0 (30_encoding.md R58, 60_exceptions.md R150). -/
def acceptable (s : State) : Option (CmdWord × State) :=
  if s.busy then none
  else match s.cmds with
    | [] => none
    | w :: rest => some (w, { s with cmds := rest })

/-- The control byte the sequencer is writing, as an instruction (30_encoding.md R50, R56; log 9). -/
def sequencerInstr (s : State) : Option Instr :=
  match s.busRequest with
  | some (.writeByte _ reg val) =>
    match decodeControl reg val with
    | .ok i => some i
    | .error _ => none
  | _ => none

/-- `s` with this command word first at the port of an idle block. -/
def presentCommand (w : CmdWord) (s : State) : State :=
  { s with rst := false, busy := false, job := .idle, cmds := w :: s.cmds }

/-- `s` with `INIT` at the write that carries the control byte `val` of register `reg`; `s` itself for any other byte. -/
def presentControl (reg val : Byte) (s : State) : State :=
  match decodeControl reg val with
  | .ok .ctrl2SoftReset => enterInit .initReset { s with rst := false }
  | .ok .ctrl2RollOver => enterInit .initRollOver { s with rst := false }
  | .ok (.ctrl1Byte _ _ _ _) => enterInit (.initControl1 val) { s with rst := false }
  | _ => s

end Sys2Proof.Machine
end

