-- ==== Sys2Proof/Machine/Acquire.lean ====
section
/-! DEFINITION. `RDRAW`, `READ`, `HEAD` (42_acquisition.md R102, R104; 43_heading.md R120). -/

namespace Sys2Proof.Machine

/-- The checks the three share and what they begin (60_exceptions.md R131): `HALT`, the illegal word, the `PHASE` guard; then
the command as far as the inputs allow. -/
def acquire (illegal : Bool) (begin_ : State → State) (s : State) : State :=
  if s.halt then raise .halted 0 s
  else if illegal then raise .illegalCmd 0 s
  else if notReady s then raise .notReady 0 s
  else runCommand (begin_ s)

/-- `RDRAW` (42_acquisition.md R102). -/
def execRdraw (arg : Half) (s : State) : Host.Outcome State Fault Refusal :=
  .next (acquire (arg != 0#16) (fun s => { s with job := .rawRead }) (accept s))

/-- `READ` (42_acquisition.md R104). -/
def execRead (arg : Half) (s : State) : Host.Outcome State Fault Refusal :=
  .next (acquire (arg != 0#16) (beginFiltered .gauss) (accept s))

/-- `HEAD` (43_heading.md R120): illegal without the heading engine too (30_encoding.md R63(c)). -/
def execHead (arg : Half) (s : State) : Host.Outcome State Fault Refusal :=
  .next (acquire (arg != 0#16 || !s.params.hasHeading) (beginFiltered .heading) (accept s))

end Sys2Proof.Machine
end

