-- ==== Sys2Proof/Machine/Codec.lean ====
section
/-! DEFINITION. `ENC` and `DEC` (40_codec.md R78, R79). -/

namespace Sys2Proof.Machine

/-- The body of `ENC` (40_codec.md R78). -/
def encodeCfg (arg : Half) (s : State) : State :=
  if s.halt then raise .halted 0 s
  else if arg ≠ 0#16 then raise .illegalCmd 0 s
  else completeOk (ctrl1Image s.cfg).toNat s

/-- The body of `DEC` (40_codec.md R79). -/
def decodeOperand (b : Half) (s : State) : State :=
  if s.halt then raise .halted 0 s
  else if 0xFF < b.toNat then raise .reservedEncoding 0 s
  else
    match decodeValues (b.extractLsb' 0 8) with
    | none => raise .reservedEncoding 0 s
    | some (m, o, r, v) => completeOk (decPayload m o r v) s

/-- `ENC` (40_codec.md R78). -/
def execEnc (arg : Half) (s : State) : Host.Outcome State Fault Refusal := .next (encodeCfg arg (accept s))

/-- `DEC b` (40_codec.md R79). -/
def execDec (b : Half) (s : State) : Host.Outcome State Fault Refusal := .next (decodeOperand b (accept s))

end Sys2Proof.Machine
end

