-- ==== Sys2Proof/Machine/Init.lean ====
section
/-! DEFINITION. `INIT` (41_init.md R90 to R95), and the three control bytes it writes, each as the write that carries it
(30_encoding.md R50, R56; log 9). -/

namespace Sys2Proof.Machine

/-- The body of `INIT` (41_init.md R90): the checks, `PHASE <- Initializing`, then the sequence as far as the inputs
allow. -/
def initialise (arg : Half) (s : State) : State :=
  if s.halt then raise .halted 0 s
  else if arg ≠ 0#16 then raise .illegalCmd 0 s
  else if s.phase ≠ .uninitialized then raise .seqError 0 s
  else runCommand (enterInit .initReset s)

/-- `INIT` (41_init.md R90). -/
def execInit (arg : Half) (s : State) : Host.Outcome State Fault Refusal := .next (initialise arg (accept s))

/-- A Control-1 byte: the write of it to register 0x09, step 3 of `INIT` (41_init.md R90). -/
def execCtrl1Byte (osr rng odr mode : BitVec 2) (s : State) : Host.Outcome State Fault Refusal :=
  .next (writeControl1 (packControl1 osr rng odr mode) (enterInit (.initControl1 (packControl1 osr rng odr mode)) s))

/-- The Control-2 byte 0x80: the write of it to register 0x0A, step 1 of `INIT` (41_init.md R90). -/
def execCtrl2SoftReset (s : State) : Host.Outcome State Fault Refusal :=
  .next (writeSoftReset (enterInit .initReset s))

/-- The Control-2 byte 0x40: the write of it to register 0x0A, step 4 of `INIT` (41_init.md R90). -/
def execCtrl2RollOver (s : State) : Host.Outcome State Fault Refusal :=
  .next (writeRollOver (enterInit .initRollOver s))

end Sys2Proof.Machine
end

