-- ==== Sys2Proof/Machine/Reserved.lean ====
section
/-! DEFINITION. The reserved opcodes (30_encoding.md R63, 60_exceptions.md R137). -/

namespace Sys2Proof.Machine

/-- An illegal command word: `HALTED` first, else `ILLEGAL_CMD`; no state change, no transaction (60_exceptions.md R131,
R137). -/
def illegalWord (s : State) : State := if s.halt then raise .halted 0 s else raise .illegalCmd 0 s

/-- Opcodes 0xA and 0xB; the other bits are ignored (30_encoding.md R63). -/
def execReservedAB (_low : BitVec 17) (s : State) : Host.Outcome State Fault Refusal := .next (illegalWord (accept s))

/-- Opcodes 0xC to 0xF; the other bits are ignored (30_encoding.md R63). -/
def execReservedCF (_low : BitVec 18) (s : State) : Host.Outcome State Fault Refusal := .next (illegalWord (accept s))

end Sys2Proof.Machine
end

