-- ==== Sys2Proof/Machine/Setters.lean ====
section
/-! DEFINITION. The four setters (40_codec.md R74 to R77). -/

namespace Sys2Proof.Machine

/-- The contract the setters share (40_codec.md section 3): `HALT`, `PHASE`, validation, in that order; on success one field
of `CFG` takes the code, on an illegal value the legal list is the payload and `HALT` latches under `FAIL_FAST`. -/
def setOption (o : Opt) (v : Half) (s : State) : State :=
  if s.halt then raise .halted 0 s
  else if s.phase ≠ .uninitialized then raise .seqError 0 s
  else
    match validate o v with
    | .ok code => completeOk 0 { s with cfg := s.cfg.setField o code }
    | .error legal => raise .invalidConfiguration (legalPayload legal) (failFast s)

/-- `SETODR v` (40_codec.md R74). -/
def execSetodr (v : Half) (s : State) : Host.Outcome State Fault Refusal := .next (setOption .odr v (accept s))

/-- `SETRNG v` (40_codec.md R75). -/
def execSetrng (v : Half) (s : State) : Host.Outcome State Fault Refusal := .next (setOption .rng v (accept s))

/-- `SETOSR v` (40_codec.md R76). -/
def execSetosr (v : Half) (s : State) : Host.Outcome State Fault Refusal := .next (setOption .osr v (accept s))

/-- `SETMODE v` (40_codec.md R77). -/
def execSetmode (v : Half) (s : State) : Host.Outcome State Fault Refusal := .next (setOption .mode v (accept s))

end Sys2Proof.Machine
end

