-- ==== Sys2Proof/Machine/Dispatch.lean ====
section
/-! DEFINITION. One arm per instruction. -/

namespace Sys2Proof.Machine

def exec (i : Instr) (s : State) : Host.Outcome State Fault Refusal :=
  match i with
  | .setodr v => Sys2Proof.Machine.execSetodr v s
  | .setrng v => Sys2Proof.Machine.execSetrng v s
  | .setosr v => Sys2Proof.Machine.execSetosr v s
  | .setmode v => Sys2Proof.Machine.execSetmode v s
  | .init arg => Sys2Proof.Machine.execInit arg s
  | .rdraw arg => Sys2Proof.Machine.execRdraw arg s
  | .read arg => Sys2Proof.Machine.execRead arg s
  | .head arg => Sys2Proof.Machine.execHead arg s
  | .enc arg => Sys2Proof.Machine.execEnc arg s
  | .dec b => Sys2Proof.Machine.execDec b s
  | .reservedAB low => Sys2Proof.Machine.execReservedAB low s
  | .reservedCF low => Sys2Proof.Machine.execReservedCF low s
  | .ctrl1Byte osr rng odr mode => Sys2Proof.Machine.execCtrl1Byte osr rng odr mode s
  | .ctrl2SoftReset => Sys2Proof.Machine.execCtrl2SoftReset s
  | .ctrl2RollOver => Sys2Proof.Machine.execCtrl2RollOver s

end Sys2Proof.Machine
end

