-- ==== Sys2Proof/Machine/Step.lean ====
section
/-! DEFINITION. One step: reset if asserted; else the running command goes on by one answer or one end
of a delay; else the word at the command port is accepted and executed; else nothing happens (70_reset_and_hazards.md R160, R162; 60_exceptions.md R144, R150). -/

namespace Sys2Proof.Machine

/-- The step. A running command comes to a step of its own only when `exec` left it waiting for an input (log 5); when it
still waits, the step changes nothing (70_reset_and_hazards.md R173). Where a step can begin, and so where reset can land, is
the model's choice (DESIGN CHOICE, logs 6 and 25). -/
def step (s : State) : Host.Outcome State Fault Refusal :=
  if s.rst then .next (resetBlock s)
  else
    match acceptable s with
    | some (w, s') => exec (decodeCommand w) s'
    | none => .next (advance s)

/-- `s` with the table word where the next step runs it: a command word at the port of an idle block; a control byte in the
write of `INIT` that carries it (log 9, log 10). -/
def State.withFetchWord (s : State) (nbits w : Nat) : State :=
  match wireOfTable nbits w with
  | none => s
  | some (.command c) => presentCommand c s
  | some (.control reg val) => presentControl reg val s

end Sys2Proof.Machine
end

