-- ==== Sys2Proof/Safety.lean ====
section
/-! DEFINITION. What counts as a good state, in the terms the statements use. -/

namespace Sys2Proof.Machine

/-- The running command is `INIT`. -/
def Job.isInit : Job → Bool
  | .initReset => true
  | .initSettle => true
  | .initControl1 _ => true
  | .initRollOver => true
  | .idle => false
  | .rawRead => false
  | .sample _ => false
  | .gap _ => false

/-- The running command is `RDRAW`, `READ` or `HEAD`. -/
def Job.isAcquire : Job → Bool
  | .rawRead => true
  | .sample _ => true
  | .gap _ => true
  | .idle => false
  | .initReset => false
  | .initSettle => false
  | .initControl1 _ => false
  | .initRollOver => false

/-- The running command is in `FilteredAcc()` for `want`. -/
def Job.filteredFor : Job → Option Want
  | .sample want => some want
  | .gap want => some want
  | .rawRead => none
  | .idle => none
  | .initReset => none
  | .initSettle => none
  | .initControl1 _ => none
  | .initRollOver => none

/-- `acc` is a sum of `n` signed 16-bit values (42_acquisition.md R112). -/
def SumOf (n : Nat) (acc : Int) : Prop := -32768 * (n : Int) ≤ acc ∧ acc ≤ 32767 * (n : Int)

/-- `i` fits in `w` bits, two's complement. -/
def FitsTc (w : Nat) (i : Int) : Prop := -(2 ^ w : Nat) ≤ 2 * i ∧ 2 * i < (2 ^ w : Nat)

/-- The invariant of MAGCODEC. -/
structure State.Inv (s : State) : Prop where
  /-- The instance is legal (00_scope.md R4). -/
  params_wf : s.params.wf = true
  /-- `CFG.MODE` holds 0 or 1 (10_state.md R13). -/
  mode_legal : s.cfg.mode.toNat ≤ 1
  /-- `CFG.RNG` holds 0 or 1 (10_state.md R13). -/
  rng_legal : s.cfg.rng.toNat ≤ 1
  /-- `BUSY` is 1 exactly while a command is in progress (10_state.md R16). -/
  busy_iff : s.busy = true ↔ s.job ≠ .idle
  /-- No command runs while `HALT` is 1 (60_exceptions.md R135). -/
  halt_idle : s.halt = true → s.busy = false
  /-- `PHASE` is `Initializing` exactly while `INIT` runs (10_state.md R14, 41_init.md R94). -/
  phase_init : s.phase = .initializing ↔ s.job.isInit = true
  /-- The Control-1 byte in flight is `CTRL1_IMAGE` (41_init.md R91). -/
  control1_image : ∀ b, s.job = .initControl1 b → b = ctrl1Image s.cfg
  /-- With the guard, acquisition runs in `Ready` only (60_exceptions.md R136). -/
  guarded : s.job.isAcquire = true → s.params.guardNotReady = true → s.phase = .ready
  /-- A heading is computed only where the engine exists (30_encoding.md R63(c)). -/
  engine : s.job.filteredFor = some .heading → s.params.hasHeading = true
  /-- Fewer than ten samples are in when a block read is in flight (42_acquisition.md R105). -/
  cnt_sample : ∀ w, s.job = .sample w → s.cnt.toNat < nSamples
  /-- One to ten samples are in when a delay runs (42_acquisition.md R105). -/
  cnt_gap : ∀ w, s.job = .gap w → 1 ≤ s.cnt.toNat ∧ s.cnt.toNat ≤ nSamples
  /-- During `FilteredAcc()` each accumulator is a sum of `CNT` samples (42_acquisition.md R112). -/
  acc_sum : s.job.filteredFor ≠ none →
    SumOf s.cnt.toNat s.accX ∧ SumOf s.cnt.toNat s.accY ∧ SumOf s.cnt.toNat s.accZ
  /-- The accumulators fit in `ACC_W` bits (10_state.md R19). -/
  acc_fits : FitsTc s.params.accW s.accX ∧ FitsTc s.params.accW s.accY ∧ FitsTc s.params.accW s.accZ

/-- A good end of a run: idle, not halted (60_exceptions.md R135: "it is never a successful end of a run"). -/
def State.Good (s : State) : Prop := s.halt = false ∧ s.busy = false

end Sys2Proof.Machine
end

