-- ==== Sys2Proof/Certificates/Slice0/Obligations.lean ====
section
/-! DEFINITION. The statements for the provers. `Sys2Proof.Claims` holds the words they are stated in, written from the spec's
formulas and not from the model's operations. -/

namespace Sys2Proof.Claims

open Sys2Proof Sys2Proof.Machine

/-- `s` after a response: `BUSY` 0, the response delivered, nothing else changed (60_exceptions.md R142). -/
def answered (st : Status) (data : Nat) (s : State) : State :=
  { s with busy := false, job := .idle, responses := s.responses ++ [⟨st, data⟩] }

/-- The acquisition commands run: not halted, and `Ready` unless the guard is off (60_exceptions.md R136). -/
def MayAcquire (s : State) : Prop := s.halt = false ∧ (s.params.guardNotReady = true → s.phase = .ready)

/-- `s16(p)` (00_scope.md section 7). -/
def s16 (p : Nat) : Int := if p < 32768 then (p : Int) else (p : Int) - 65536

/-- `d[k]` as a number: bits 8k+7..8k of the answer (20_memory.md R46). -/
def byteOf (d : BitVec 48) (k : Nat) : Nat := d.toNat / 2 ^ (8 * k) % 256

/-- The raw value of axis 0, 1, 2 (x, y, z) of a block (20_memory.md R37, 42_acquisition.md R101). -/
def axisValue (order : ByteOrder) (d : BitVec 48) (axis : Nat) : Int :=
  match order with
  | .lowFirst => s16 (byteOf d (2 * axis + 1) * 256 + byteOf d (2 * axis))
  | .highFirst => s16 (byteOf d (2 * axis) * 256 + byteOf d (2 * axis + 1))

/-- The sum of one axis over the blocks read (42_acquisition.md R105). -/
def sumOf (order : ByteOrder) (ds : List (BitVec 48)) (axis : Nat) : Int := (ds.map fun d => axisValue order d axis).sum

/-- The event of a successful block read (00_scope.md R6). -/
def readOk (p : Params) (d : BitVec 48) : Event :=
  .read p.busAddr 0x00#8 6 (.ok ((List.range 6).map fun k => BitVec.ofNat 8 (byteOf d k)))

/-- The pairs of a block read and the delay of 10 ms after it (42_acquisition.md R105). -/
def readPairs (p : Params) (ds : List (BitVec 48)) : List Event := ds.flatMap fun d => [readOk p d, .delay 10]

/-- `MEAN_a` (42_acquisition.md R107). -/
def mean (d : MeanDiv) (acc : Int) : ℚ :=
  match d with
  | .exact => (acc : ℚ) / 10
  | .truncZero => (acc.tdiv 10 : Int)
  | .floor => (acc.fdiv 10 : Int)

/-- `G_a` for a legal range code (42_acquisition.md R106, R108). -/
def gauss (d : MeanDiv) (rng : BitVec 2) (acc : Int) : ℚ := mean d acc / (if rng = 0#2 then 12000 else 3000)

/-- `i` is `RN(q)` (00_scope.md section 7). -/
def IsRN (q : ℚ) (i : Int) : Prop := |q - i| ≤ 1 / 2 ∧ (|q - i| = 1 / 2 → i % 2 = 0)

/-- `tc_w(i)` for `i` in range (00_scope.md section 7). -/
def tcPattern (w : Nat) (i : Int) : Int := if 0 ≤ i then i else i + 2 ^ w

/-- `HN_a` (43_heading.md R121). -/
def headIn (d : MeanDiv) (acc : Int) : Int :=
  match d with
  | .exact => acc
  | .truncZero => acc.tdiv 10
  | .floor => acc.fdiv 10

/-- Which statuses an instruction can answer (60_exceptions.md R140; a control byte's write can end `INIT`, 41_init.md R90). -/
def mayAnswer : Instr → List Status
  | .setodr _ => [.ok, .invalidConfiguration, .seqError, .halted]
  | .setrng _ => [.ok, .invalidConfiguration, .seqError, .halted]
  | .setosr _ => [.ok, .invalidConfiguration, .seqError, .halted]
  | .setmode _ => [.ok, .invalidConfiguration, .seqError, .halted]
  | .init _ => [.ok, .busError, .seqError, .illegalCmd, .halted]
  | .rdraw _ => [.ok, .busError, .notReady, .illegalCmd, .halted]
  | .read _ => [.ok, .busError, .notReady, .illegalCmd, .halted]
  | .head _ => [.ok, .busError, .notReady, .illegalCmd, .halted]
  | .enc _ => [.ok, .illegalCmd, .halted]
  | .dec _ => [.ok, .halted, .reservedEncoding]
  | .reservedAB _ => [.illegalCmd, .halted]
  | .reservedCF _ => [.illegalCmd, .halted]
  | .ctrl1Byte _ _ _ _ => [.busError]
  | .ctrl2SoftReset => [.busError]
  | .ctrl2RollOver => [.ok, .busError]

/-- Which statuses the event that ends a running command at a position can answer (60_exceptions.md R140, 41_init.md R90,
42_acquisition.md R102, R105). -/
def mayFinish : Job → List Status
  | .idle => []
  | .initReset => [.busError]
  | .initSettle => []
  | .initControl1 _ => [.busError]
  | .initRollOver => [.ok, .busError]
  | .rawRead => [.ok, .busError]
  | .sample _ => [.busError]
  | .gap _ => [.ok]

/-- The accesses MAGCODEC can make, and its two delays (20_memory.md R36, 60_exceptions.md R152). -/
def Listed (p : Params) : Event → Prop
  | .write addr reg val _ => addr = p.busAddr ∧
      ((reg = 0x0A#8 ∧ val = 0x80#8) ∨ (reg = 0x09#8 ∧ val &&& 0x22#8 = 0#8) ∨ (reg = 0x0A#8 ∧ val = 0x40#8))
  | .read addr reg len _ => addr = p.busAddr ∧ reg = 0x00#8 ∧ len = 6
  | .delay ms => ms = 5 ∨ ms = 10

/-- The command in progress waits for an input that is not there (70_reset_and_hazards.md R170, R173). -/
def Waiting (s : State) : Prop :=
  (s.busRequest ≠ none ∧ s.answers = []) ∨ (s.timer ≠ none ∧ s.timerEnds = 0)

/-- `s` with further inputs. -/
def withInputs (as : List BusAnswer) (k : Nat) (s : State) : State :=
  { s with answers := s.answers ++ as, timerEnds := s.timerEnds + k }

/-- `n` steps lead from `s` to `t`. -/
def StepsTo : Nat → State → State → Prop
  | 0, s, t => s = t
  | n + 1, s, t => ∃ u, step s = .next u ∧ StepsTo n u t

/-- The command in progress at `s` has gone on to `t` in `n` steps, without reset, further inputs coming before each step. -/
def GoesOnTo : Nat → State → State → Prop
  | 0, s, t => s = t
  | n + 1, s, t => ∃ as k u, s.rst = false ∧ s.busy = true ∧ step (withInputs as k s) = .next u ∧ GoesOnTo n u t

/-- The three histories of a failed `INIT` (41_init.md R93). -/
def failedInits (s : State) : List (List Event) :=
  [[.write s.params.busAddr 0x0A#8 0x80#8 .err],
   [.write s.params.busAddr 0x0A#8 0x80#8 .ok, .delay 5, .write s.params.busAddr 0x09#8 (ctrl1Image s.cfg) .err],
   [.write s.params.busAddr 0x0A#8 0x80#8 .ok, .delay 5, .write s.params.busAddr 0x09#8 (ctrl1Image s.cfg) .ok,
    .write s.params.busAddr 0x0A#8 0x40#8 .err]]

/-- A filtered read and what it is for: `READ`, and `HEAD` where the engine exists (30_encoding.md R63(c)). -/
def FilteredRead (p : Params) (i : Instr) (want : Want) : Prop :=
  (i = .read 0#16 ∧ want = .gauss) ∨ (i = .head 0#16 ∧ want = .heading ∧ p.hasHeading = true)

/-- A write of `INIT` that failed. -/
def IsFailedWrite : Event → Prop
  | .write _ _ _ res => res = .err
  | .read _ _ _ _ => False
  | .delay _ => False

/-- An illegal command word, by its opcode and operand (30_encoding.md R63). -/
def IllegalWord (p : Params) (w : CmdWord) : Prop :=
  10 ≤ w.toNat / 65536 ∨ (4 ≤ w.toNat / 65536 ∧ w.toNat / 65536 ≤ 8 ∧ w.toNat % 65536 ≠ 0) ∨
    (w.toNat / 65536 = 7 ∧ p.hasHeading = false)

/-- A setter's command word carries a value outside the option's table (40_codec.md R74 to R77). -/
def IllegalSetting : Instr → Prop
  | .setodr v => v ∉ [10#16, 50#16, 100#16, 200#16]
  | .setrng v => v ∉ [2#16, 8#16]
  | .setosr v => v ∉ [64#16, 128#16, 256#16, 512#16]
  | .setmode v => v ∉ [0#16, 1#16]
  | .init _ => False
  | .rdraw _ => False
  | .read _ => False
  | .head _ => False
  | .enc _ => False
  | .dec _ => False
  | .reservedAB _ => False
  | .reservedCF _ => False
  | .ctrl1Byte _ _ _ _ => False
  | .ctrl2SoftReset => False
  | .ctrl2RollOver => False

/-- The field of `CFG` a setter names takes a code its table holds; the other three keep theirs (10_state.md R13). -/
def FieldReplaced (c c' : Cfg) : Instr → Prop
  | .setodr v => ∃ x, (v, x) ∈ [(10#16, 0#2), (50#16, 1#2), (100#16, 2#2), (200#16, 3#2)] ∧ c' = { c with odr := x }
  | .setrng v => ∃ x, (v, x) ∈ [(2#16, 0#2), (8#16, 1#2)] ∧ c' = { c with rng := x }
  | .setosr v => ∃ x, (v, x) ∈ [(512#16, 0#2), (256#16, 1#2), (128#16, 2#2), (64#16, 3#2)] ∧ c' = { c with osr := x }
  | .setmode v => ∃ x, (v, x) ∈ [(0#16, 0#2), (1#16, 1#2)] ∧ c' = { c with mode := x }
  | .init _ => False
  | .rdraw _ => False
  | .read _ => False
  | .head _ => False
  | .enc _ => False
  | .dec _ => False
  | .reservedAB _ => False
  | .reservedCF _ => False
  | .ctrl1Byte _ _ _ _ => False
  | .ctrl2SoftReset => False
  | .ctrl2RollOver => False

end Sys2Proof.Claims

open Sys2Proof Sys2Proof.Machine Sys2Proof.Claims

/-! ### Reset -/

/-- 70_reset_and_hazards.md R161: the reset value of every piece of state the table gives one. -/
def Obligations.ResetHoldsTheSpecifiedValues : Prop :=
  State.reset.cfg.odr = 1#2 ∧ State.reset.cfg.rng = 0#2 ∧ State.reset.cfg.osr = 0#2 ∧ State.reset.cfg.mode = 1#2 ∧
  ctrl1Image State.reset.cfg = 0x05#8 ∧ State.reset.phase = .uninitialized ∧ State.reset.halt = false ∧
  State.reset.busy = false ∧ State.reset.params.busAddr = 0x0D#8 ∧ State.reset.timer = none ∧
  State.reset.responses = [] ∧ State.reset.busRequest = none

/-- 70_reset_and_hazards.md R163: reset in any state, inside a command too. That the unanswered transaction's answer is taken
off the inputs, and that parameters and observations stay, is the model's choice (log 6). -/
def Obligations.AssertedResetAbandonsTheCommand : Prop :=
  ∀ s : State, s.rst = true → ∃ t, step s = .next t ∧
    t.cfg = State.reset.cfg ∧ t.phase = .uninitialized ∧ t.halt = false ∧ t.busy = false ∧ t.timer = none ∧
    t.busRequest = none ∧ t.params = s.params ∧ t.responses = s.responses ∧
    (s.busRequest = none → t.history = s.history ∧ t.answers = s.answers) ∧
    (∀ addr reg val, s.busRequest = some (.writeByte addr reg val) →
      t.history = s.history ++ [.write addr reg val .unknown] ∧ t.answers = s.answers.tail) ∧
    (∀ addr reg len, s.busRequest = some (.readBlock addr reg len) →
      t.history = s.history ++ [.read addr reg len .unknown] ∧ t.answers = s.answers.tail)

/-- The state after reset meets the invariant. -/
def Obligations.ResetMeetsTheInvariant : Prop := State.reset.Inv

/-- The numbers of 10_state.md R14 and 30_encoding.md R61, and the outputs of 10_state.md R23 and 30_encoding.md R58. -/
def Obligations.OutputsShowTheSpecifiedNumbers : Prop :=
  [Phase.uninitialized.code, Phase.initializing.code, Phase.ready.code] = [0#2, 1#2, 2#2] ∧
  [Status.ok.code, Status.invalidConfiguration.code, Status.busError.code, Status.notReady.code, Status.seqError.code,
    Status.illegalCmd.code, Status.halted.code, Status.reservedEncoding.code] =
    [0#4, 1#4, 2#4, 3#4, 4#4, 5#4, 6#4, 7#4] ∧
  ∀ s : State, s.busyOut = s.busy ∧ s.haltOut = s.halt ∧ s.phaseOut = s.phase.code ∧ s.cmdReady = !s.busy

/-! ### The step -/

/-- A command word at the port of an idle block is executed, the word leaving the port (30_encoding.md R58, 60_exceptions.md
R150); the model's entry point for table words does the same. -/
def Obligations.StepExecutesThePresentedCommand : Prop :=
  (∀ (s : State) (w : CmdWord) (rest : List CmdWord), s.rst = false → s.busy = false → s.cmds = w :: rest →
    step s = exec (decodeCommand w) { s with cmds := rest }) ∧
  (∀ (s : State) (i : Instr) (w : CmdWord) (rest : List CmdWord), i.wellFormed = true → encode i = .command w →
    s.rst = false → s.busy = false → s.cmds = w :: rest → step s = exec i { s with cmds := rest }) ∧
  (∀ (s : State) (i : Instr) (nbits w : Nat), 8 < nbits → decodeTableWord nbits w = some i →
    step (s.withFetchWord nbits w) = exec i { s with rst := false, busy := false, job := .idle })

/-- While `INIT` has a write in flight, a step runs the control byte the write carries (the model's reading of the byte
rows, log 9); the entry point for table words puts `INIT` there. -/
def Obligations.StepExecutesTheSequencersControlByte : Prop :=
  (∀ (s : State) (i : Instr), s.Inv → s.rst = false → sequencerInstr s = some i → step s = exec i s) ∧
  (∀ (s : State) (i : Instr) (nbits w : Nat), nbits ≤ 8 → decodeTableWord nbits w = some i →
    step (s.withFetchWord nbits w) = exec i { s with rst := false })

/-- 70_reset_and_hazards.md R162 and R173: an idle block with no command does nothing; a command whose transaction is
unanswered, or whose delay runs, stays where it is. -/
def Obligations.BlockWaitsForItsInputs : Prop :=
  ∀ s : State, s.rst = false →
    (s.Inv → s.busy = false → s.cmds = [] → step s = .next s) ∧
    (s.busy = true → Waiting s → step s = .next s)

/-- 60_exceptions.md R150: a command presented while `BUSY` is 1 stays at the port. -/
def Obligations.BusyBlockHoldsTheNextCommand : Prop :=
  ∀ s t : State, s.rst = false → s.busy = true → step s = .next t → t.cmds = s.cmds

/-- Inputs that come late change nothing (the model's way of waiting, log 5; 70_reset_and_hazards.md R170, R173). What a
command did before they came is the beginning of what it does with them there from the start; a step of a busy block lets the
running command go on by one event; and a command that `exec` left waiting, once its inputs are there, ends after at most 20
steps exactly where `exec` would have ended with them there at acceptance. So every statement about `exec` with its inputs
there holds of commands whose answers and delay ends come later. -/
def Obligations.LateInputsChangeNothing : Prop :=
  (∀ (s : State) (m k : Nat) (as : List BusAnswer), ∃ j ≤ m, withInputs as k (run m s) = run j (withInputs as k s)) ∧
  (∀ s : State, s.rst = false → s.busy = true → step s = .next (run 1 s)) ∧
  (∀ (s t : State) (w : CmdWord) (as : List BusAnswer) (k : Nat), s.rst = false → exec (decodeCommand w) s = .next t →
    t.busy = true → ∃ u, exec (decodeCommand w) (withInputs as k s) = .next u ∧
      ∃ n ≤ 20, StepsTo n (withInputs as k t) u)

/-! ### Encodings -/

/-- Words written out from 30_encoding.md R59 and R65 and 95_test_vectors.md decode to what they stand for. -/
def Obligations.WordsOfEveryFamilyDecode : Prop :=
  decodeCommand 0b0000_0000000011001000#20 = .setodr 200#16 ∧
  decodeCommand 0b0001_0000000000001000#20 = .setrng 8#16 ∧
  decodeCommand 0b0010_0000000001000000#20 = .setosr 64#16 ∧
  decodeCommand 0b0011_0000000000000000#20 = .setmode 0#16 ∧
  decodeCommand 0b0100_0000000000000000#20 = .init 0#16 ∧
  decodeCommand 0b0101_0000000000000000#20 = .rdraw 0#16 ∧
  decodeCommand 0b0110_0000000000000001#20 = .read 1#16 ∧
  decodeCommand 0b0111_0000000000000000#20 = .head 0#16 ∧
  decodeCommand 0b1000_0000000000000000#20 = .enc 0#16 ∧
  decodeCommand 0b1001_0000000000011101#20 = .dec 0x1D#16 ∧
  decodeCommand 0b1010_0000000000000000#20 = .reservedAB 0#17 ∧
  decodeCommand 0b1111_0001001000110100#20 = .reservedCF 0x31234#18

/-- Decoding the encoding of a well-formed instruction gives it back, with every operand. -/
def Obligations.DecodeOfEncodeIsTheInstruction : Prop :=
  ∀ i : Instr, i.wellFormed = true → decode (encode i) = .ok i

/-- Encoding what was decoded gives the bits back: no two bit patterns are one instruction; every command word decodes
(30_encoding.md R63: no word has undefined behaviour). -/
def Obligations.EncodeOfDecodeIsTheBits : Prop :=
  (∀ (x : Wire) (i : Instr), decode x = .ok i → encode i = x) ∧ (∀ w : CmdWord, ∃ i, decode (.command w) = .ok i)

/-- 30_encoding.md R64 and R56: which control bytes are encodings of something MAGCODEC writes. -/
def Obligations.ReservedControlBytesAreRefused : Prop :=
  (∀ v : Byte, (∃ i, decode (.control 0x09#8 v) = .ok i) ↔ v &&& 0x22#8 = 0#8) ∧
  (∀ v : Byte, v &&& 0x22#8 ≠ 0#8 → decode (.control 0x09#8 v) = .error .reservedControl1) ∧
  (∀ v : Byte, (∃ i, decode (.control 0x0A#8 v) = .ok i) ↔ v = 0x80#8 ∨ v = 0x40#8)

/-! ### The codec -/

/-- 40_codec.md R74. -/
def Obligations.SetodrSetsTheDataRate : Prop :=
  ∀ (s : State) (v : Half),
    (s.halt = true → exec (.setodr v) s = .next (answered .halted 0 s)) ∧
    (s.halt = false → s.phase ≠ .uninitialized → exec (.setodr v) s = .next (answered .seqError 0 s)) ∧
    (s.halt = false → s.phase = .uninitialized → ∀ c,
      (v, c) ∈ [(10#16, 0#2), (50#16, 1#2), (100#16, 2#2), (200#16, 3#2)] →
      exec (.setodr v) s = .next (answered .ok 0 { s with cfg := { s.cfg with odr := c } })) ∧
    (s.halt = false → s.phase = .uninitialized → v ∉ [10#16, 50#16, 100#16, 200#16] →
      exec (.setodr v) s =
        .next (answered .invalidConfiguration 0x4_00C8_0064_0032_000A { s with halt := s.params.failFast }))

/-- 40_codec.md R75. -/
def Obligations.SetrngSetsTheRange : Prop :=
  ∀ (s : State) (v : Half),
    (s.halt = true → exec (.setrng v) s = .next (answered .halted 0 s)) ∧
    (s.halt = false → s.phase ≠ .uninitialized → exec (.setrng v) s = .next (answered .seqError 0 s)) ∧
    (s.halt = false → s.phase = .uninitialized → ∀ c, (v, c) ∈ [(2#16, 0#2), (8#16, 1#2)] →
      exec (.setrng v) s = .next (answered .ok 0 { s with cfg := { s.cfg with rng := c } })) ∧
    (s.halt = false → s.phase = .uninitialized → v ∉ [2#16, 8#16] →
      exec (.setrng v) s =
        .next (answered .invalidConfiguration 0x2_0000_0000_0008_0002 { s with halt := s.params.failFast }))

/-- 40_codec.md R76. -/
def Obligations.SetosrSetsTheOversampling : Prop :=
  ∀ (s : State) (v : Half),
    (s.halt = true → exec (.setosr v) s = .next (answered .halted 0 s)) ∧
    (s.halt = false → s.phase ≠ .uninitialized → exec (.setosr v) s = .next (answered .seqError 0 s)) ∧
    (s.halt = false → s.phase = .uninitialized → ∀ c,
      (v, c) ∈ [(512#16, 0#2), (256#16, 1#2), (128#16, 2#2), (64#16, 3#2)] →
      exec (.setosr v) s = .next (answered .ok 0 { s with cfg := { s.cfg with osr := c } })) ∧
    (s.halt = false → s.phase = .uninitialized → v ∉ [64#16, 128#16, 256#16, 512#16] →
      exec (.setosr v) s =
        .next (answered .invalidConfiguration 0x4_0200_0100_0080_0040 { s with halt := s.params.failFast }))

/-- 40_codec.md R77. -/
def Obligations.SetmodeSetsTheMode : Prop :=
  ∀ (s : State) (v : Half),
    (s.halt = true → exec (.setmode v) s = .next (answered .halted 0 s)) ∧
    (s.halt = false → s.phase ≠ .uninitialized → exec (.setmode v) s = .next (answered .seqError 0 s)) ∧
    (s.halt = false → s.phase = .uninitialized → ∀ c, (v, c) ∈ [(0#16, 0#2), (1#16, 1#2)] →
      exec (.setmode v) s = .next (answered .ok 0 { s with cfg := { s.cfg with mode := c } })) ∧
    (s.halt = false → s.phase = .uninitialized → v ∉ [0#16, 1#16] →
      exec (.setmode v) s =
        .next (answered .invalidConfiguration 0x2_0000_0000_0001_0000 { s with halt := s.params.failFast }))

/-- 40_codec.md R78: the four field codes at their places, in every `PHASE`. -/
def Obligations.EncAnswersTheControl1Image : Prop :=
  ∀ (s : State) (arg : Half),
    (s.halt = true → exec (.enc arg) s = .next (answered .halted 0 s)) ∧
    (s.halt = false → arg ≠ 0#16 → exec (.enc arg) s = .next (answered .illegalCmd 0 s)) ∧
    (s.halt = false → arg = 0#16 → exec (.enc arg) s = .next (answered .ok
      (s.cfg.osr.toNat * 64 + s.cfg.rng.toNat * 16 + s.cfg.odr.toNat * 4 + s.cfg.mode.toNat) s))

/-- 40_codec.md R79: the four values of a legal byte, a refusal of every other operand, in every `PHASE`. -/
def Obligations.DecAnswersTheFourValues : Prop :=
  ∀ (s : State) (b : Half),
    (s.halt = true → exec (.dec b) s = .next (answered .halted 0 s)) ∧
    (s.halt = false → 255 < b.toNat → exec (.dec b) s = .next (answered .reservedEncoding 0 s)) ∧
    (s.halt = false → b.toNat ≤ 255 → (2 ≤ b.toNat % 4 ∨ 2 ≤ b.toNat / 16 % 4) →
      exec (.dec b) s = .next (answered .reservedEncoding 0 s)) ∧
    (s.halt = false → ∀ m o r v vo vr vv : Nat, b.toNat = m + 4 * o + 16 * r + 64 * v → m < 2 →
      (o, vo) ∈ [(0, 10), (1, 50), (2, 100), (3, 200)] → (r, vr) ∈ [(0, 2), (1, 8)] →
      (v, vv) ∈ [(0, 512), (1, 256), (2, 128), (3, 64)] →
      exec (.dec b) s = .next (answered .ok (m + 2 ^ 16 * vo + 2 ^ 32 * vr + 2 ^ 48 * vv) s))

/-- 40_codec.md R80: the round-trip laws of the Control-1 byte, an inference of the spec ("derived: from rules R70, R72, R73
and R79"). -/
def Obligations.Control1RoundTrips : Prop :=
  (∀ c : Cfg, c.mode.toNat ≤ 1 → c.rng.toNat ≤ 1 → ∃ m o r v,
    decodeValues (ctrl1Image c) = some (m, o, r, v) ∧ valueIn (optTable .mode) c.mode = some m ∧
    valueIn (optTable .odr) c.odr = some o ∧ valueIn (optTable .rng) c.rng = some r ∧
    valueIn (optTable .osr) c.osr = some v) ∧
  (∀ (b : Byte) (m o r v : Half), decodeValues b = some (m, o, r, v) → ∃ c : Cfg, ctrl1Image c = b ∧
    codeIn (optTable .mode) m = some c.mode ∧ codeIn (optTable .odr) o = some c.odr ∧
    codeIn (optTable .rng) r = some c.rng ∧ codeIn (optTable .osr) v = some c.osr) ∧
  (∀ b : Byte, decodeValues b ≠ none ↔ b &&& 0x22#8 = 0#8)

/-- 40_codec.md R73: the image of `Encode` is exactly the bytes with bits 1 and 5 zero, and `Encode` is injective; an
inference of the spec ("derived: from rule R72"). -/
def Obligations.Control1ImageIsTheLegalBytes : Prop :=
  (∀ b : Byte, (∃ c : Cfg, c.mode.toNat ≤ 1 ∧ c.rng.toNat ≤ 1 ∧ ctrl1Image c = b) ↔ b &&& 0x22#8 = 0#8) ∧
  (∀ c c' : Cfg, ctrl1Image c = ctrl1Image c' → c = c')

/-! ### INIT -/

/-- 41_init.md R90: the checks in their order, and the sequence when every write succeeds. -/
def Obligations.InitRunsTheFixedSequence : Prop :=
  ∀ (s : State) (arg : Half),
    (s.halt = true → exec (.init arg) s = .next (answered .halted 0 s)) ∧
    (s.halt = false → arg ≠ 0#16 → exec (.init arg) s = .next (answered .illegalCmd 0 s)) ∧
    (s.halt = false → arg = 0#16 → s.phase ≠ .uninitialized → exec (.init arg) s = .next (answered .seqError 0 s)) ∧
    (∀ (d1 d2 d3 : BitVec 48) (rest : List BusAnswer) (n : Nat), s.halt = false → arg = 0#16 →
      s.phase = .uninitialized → s.answers = .ok d1 :: .ok d2 :: .ok d3 :: rest → s.timerEnds = n + 1 →
      exec (.init arg) s = .next (answered .ok 0 { s with
        phase := .ready
        answers := rest
        timerEnds := n
        history := s.history ++
          [.write s.params.busAddr 0x0A#8 0x80#8 .ok, .delay 5,
           .write s.params.busAddr 0x09#8 (ctrl1Image s.cfg) .ok, .write s.params.busAddr 0x0A#8 0x40#8 .ok] }))

/-- 41_init.md R93: the three histories of a failed `INIT`, and no others, however late its inputs come; `PHASE` returns to
`Uninitialized`, `CFG` is unchanged. -/
def Obligations.InitStopsAtTheFirstFailedWrite : Prop :=
  ∀ s : State, s.halt = false → s.phase = .uninitialized →
    (∀ rest, s.answers = .busError :: rest →
      exec (.init 0#16) s = .next (answered .busError 0 { s with
        answers := rest
        history := s.history ++ [.write s.params.busAddr 0x0A#8 0x80#8 .err] })) ∧
    (∀ d1 rest n, s.answers = .ok d1 :: .busError :: rest → s.timerEnds = n + 1 →
      exec (.init 0#16) s = .next (answered .busError 0 { s with
        answers := rest
        timerEnds := n
        history := s.history ++
          [.write s.params.busAddr 0x0A#8 0x80#8 .ok, .delay 5,
           .write s.params.busAddr 0x09#8 (ctrl1Image s.cfg) .err] })) ∧
    (∀ d1 d2 rest n, s.answers = .ok d1 :: .ok d2 :: .busError :: rest → s.timerEnds = n + 1 →
      exec (.init 0#16) s = .next (answered .busError 0 { s with
        answers := rest
        timerEnds := n
        history := s.history ++
          [.write s.params.busAddr 0x0A#8 0x80#8 .ok, .delay 5,
           .write s.params.busAddr 0x09#8 (ctrl1Image s.cfg) .ok, .write s.params.busAddr 0x0A#8 0x40#8 .err] })) ∧
    (∀ t u n r, exec (.init 0#16) s = .next t → GoesOnTo n t u → u.responses = s.responses ++ [r] →
      r.status = .busError → (∃ h ∈ failedInits s, u.history = s.history ++ h) ∧ u.phase = .uninitialized ∧
      u.cfg = s.cfg)

/-- The three control bytes are the writes of `INIT` that carry them (30_encoding.md R50, R56; the model's reading of the
byte rows, log 9): what each does with either answer, and while none comes. -/
def Obligations.ControlBytesAreTheWritesOfInit : Prop :=
  ∀ (s : State) (osr rng odr mode : BitVec 2) (rest : List BusAnswer) (d : BitVec 48),
    (s.answers = .ok d :: rest →
      exec .ctrl2SoftReset s = .next { s with
        phase := .initializing, busy := true, job := .initSettle, answers := rest
        history := s.history ++ [.write s.params.busAddr 0x0A#8 0x80#8 .ok, .delay 5] } ∧
      exec (.ctrl1Byte osr rng odr mode) s = .next { s with
        phase := .initializing, busy := true, job := .initRollOver, answers := rest
        history := s.history ++ [.write s.params.busAddr 0x09#8
          (BitVec.ofNat 8 (osr.toNat * 64 + rng.toNat * 16 + odr.toNat * 4 + mode.toNat)) .ok] } ∧
      exec .ctrl2RollOver s = .next (answered .ok 0 { s with
        phase := .ready, answers := rest
        history := s.history ++ [.write s.params.busAddr 0x0A#8 0x40#8 .ok] })) ∧
    (s.answers = .busError :: rest →
      exec .ctrl2SoftReset s = .next (answered .busError 0 { s with
        phase := .uninitialized, answers := rest
        history := s.history ++ [.write s.params.busAddr 0x0A#8 0x80#8 .err] }) ∧
      exec (.ctrl1Byte osr rng odr mode) s = .next (answered .busError 0 { s with
        phase := .uninitialized, answers := rest
        history := s.history ++ [.write s.params.busAddr 0x09#8
          (BitVec.ofNat 8 (osr.toNat * 64 + rng.toNat * 16 + odr.toNat * 4 + mode.toNat)) .err] }) ∧
      exec .ctrl2RollOver s = .next (answered .busError 0 { s with
        phase := .uninitialized, answers := rest
        history := s.history ++ [.write s.params.busAddr 0x0A#8 0x40#8 .err] })) ∧
    (s.answers = [] →
      exec .ctrl2SoftReset s = .next { s with phase := .initializing, busy := true, job := .initReset } ∧
      exec (.ctrl1Byte osr rng odr mode) s = .next { s with
        phase := .initializing, busy := true
        job := .initControl1 (BitVec.ofNat 8 (osr.toNat * 64 + rng.toNat * 16 + odr.toNat * 4 + mode.toNat)) } ∧
      exec .ctrl2RollOver s = .next { s with phase := .initializing, busy := true, job := .initRollOver })

/-! ### Acquisition -/

/-- 42_acquisition.md R103 and 20_memory.md R37: the signed value of each axis, for both byte orders. That the pattern is two's
complement is PRESUMED (log 17). -/
def Obligations.SamplesAreReassembledAsSigned16 : Prop :=
  ∀ (order : ByteOrder) (d : BitVec 48) (axis : Nat), axis < 3 →
    (axisPattern order d axis).toInt = axisValue order d axis

/-- 42_acquisition.md R102; samples are two's complement (log 17). The `RAW` registers hold the sample afterwards; the payload
is their three patterns. -/
def Obligations.RdrawAnswersOneSample : Prop :=
  ∀ (s : State) (arg : Half),
    (s.halt = true → exec (.rdraw arg) s = .next (answered .halted 0 s)) ∧
    (s.halt = false → arg ≠ 0#16 → exec (.rdraw arg) s = .next (answered .illegalCmd 0 s)) ∧
    (s.halt = false → arg = 0#16 → s.params.guardNotReady = true → s.phase ≠ .ready →
      exec (.rdraw arg) s = .next (answered .notReady 0 s)) ∧
    (MayAcquire s → arg = 0#16 → ∀ rest, s.answers = .busError :: rest →
      exec (.rdraw arg) s = .next (answered .busError 0 { s with
        answers := rest
        history := s.history ++ [.read s.params.busAddr 0x00#8 6 .err] })) ∧
    (MayAcquire s → arg = 0#16 → ∀ d rest, s.answers = .ok d :: rest → ∃ x y z : Half,
      x.toInt = axisValue s.params.sampleByteOrder d 0 ∧ y.toInt = axisValue s.params.sampleByteOrder d 1 ∧
      z.toInt = axisValue s.params.sampleByteOrder d 2 ∧
      exec (.rdraw arg) s = .next (answered .ok (x.toNat + 2 ^ 16 * y.toNat + 2 ^ 32 * z.toNat) { s with
        rawX := x
        rawY := y
        rawZ := z
        answers := rest
        history := s.history ++ [readOk s.params d] }))

/-- 42_acquisition.md R104, R105, R107 to R109: ten reads and ten delays, the sums in the accumulators, and each axis's
Gauss value `RN(G_a * 2^FRAC_W)` in its field; nothing that persists changes. Samples are two's complement (log 17). -/
def Obligations.ReadAnswersTheScaledMeans : Prop :=
  ∀ (s : State) (ds : List (BitVec 48)) (rest : List BusAnswer) (n : Nat), s.params.wf = true → s.cfg.rng.toNat ≤ 1 →
    MayAcquire s → ds.length = 10 → s.answers = ds.map .ok ++ rest → s.timerEnds = n + 10 →
    ∃ (ox oy oz : Int) (rx ry rz : Half) (data : Nat),
      IsRN (gauss s.params.meanDiv s.cfg.rng (sumOf s.params.sampleByteOrder ds 0) * 2 ^ s.params.fracW) ox ∧
      IsRN (gauss s.params.meanDiv s.cfg.rng (sumOf s.params.sampleByteOrder ds 1) * 2 ^ s.params.fracW) oy ∧
      IsRN (gauss s.params.meanDiv s.cfg.rng (sumOf s.params.sampleByteOrder ds 2) * 2 ^ s.params.fracW) oz ∧
      (data : Int) = tcPattern s.params.outW ox + 2 ^ s.params.outW * tcPattern s.params.outW oy +
        2 ^ (2 * s.params.outW) * tcPattern s.params.outW oz ∧
      exec (.read 0#16) s = .next (answered .ok data { s with
        cnt := 10#4
        accX := sumOf s.params.sampleByteOrder ds 0
        accY := sumOf s.params.sampleByteOrder ds 1
        accZ := sumOf s.params.sampleByteOrder ds 2
        rawX := rx
        rawY := ry
        rawZ := rz
        answers := rest
        timerEnds := n
        history := s.history ++ readPairs s.params ds })

/-- 43_heading.md R120, R121: a filtered read of its own, the same history as `READ`, then the heading of (`HN_Y`, `HN_X`), y
first. Samples are two's complement (log 17); the engine is free inside its limits (log 13). -/
def Obligations.HeadAnswersTheHeading : Prop :=
  ∀ (s : State) (ds : List (BitVec 48)) (rest : List BusAnswer) (n : Nat), s.params.wf = true →
    s.params.hasHeading = true → MayAcquire s → ds.length = 10 → s.answers = ds.map .ok ++ rest →
    s.timerEnds = n + 10 → ∃ rx ry rz : Half,
      exec (.head 0#16) s = .next (answered .ok
        (headingFn s.params (headIn s.params.meanDiv (sumOf s.params.sampleByteOrder ds 1))
          (headIn s.params.meanDiv (sumOf s.params.sampleByteOrder ds 0))) { s with
        cnt := 10#4
        accX := sumOf s.params.sampleByteOrder ds 0
        accY := sumOf s.params.sampleByteOrder ds 1
        accZ := sumOf s.params.sampleByteOrder ds 2
        rawX := rx
        rawY := ry
        rawZ := rz
        answers := rest
        timerEnds := n
        history := s.history ++ readPairs s.params ds })

/-- 42_acquisition.md R110, R105: a failure at any of the ten reads ends `READ` and `HEAD` at once, with the pairs before it
and nothing after it in the history, an all-zero payload and no change that persists. -/
def Obligations.FilteredReadAbortsAtTheFirstFailure : Prop :=
  ∀ (s : State) (i : Instr) (ds : List (BitVec 48)) (rest : List BusAnswer) (n : Nat),
    (i = .read 0#16 ∨ (i = .head 0#16 ∧ s.params.hasHeading = true)) → MayAcquire s → ds.length < 10 →
    s.answers = ds.map .ok ++ .busError :: rest → s.timerEnds = n + ds.length →
    ∃ (c : BitVec 4) (ax ay az : Int) (rx ry rz : Half),
      exec i s = .next (answered .busError 0 { s with
        cnt := c
        accX := ax
        accY := ay
        accZ := az
        rawX := rx
        rawY := ry
        rawZ := rz
        answers := rest
        timerEnds := n
        history := s.history ++ readPairs s.params ds ++ [.read s.params.busAddr 0x00#8 6 .err] })

/-- 60_exceptions.md R131, R135 to R137 for `READ` and `HEAD`: halted first, then the illegal word, then the guard; no
transaction and no state change in any of them. -/
def Obligations.FilteredReadRefusalsChangeNothing : Prop :=
  ∀ (s : State) (arg : Half),
    (s.halt = true → exec (.read arg) s = .next (answered .halted 0 s) ∧
      exec (.head arg) s = .next (answered .halted 0 s)) ∧
    (s.halt = false → arg ≠ 0#16 → exec (.read arg) s = .next (answered .illegalCmd 0 s)) ∧
    (s.halt = false → (arg ≠ 0#16 ∨ s.params.hasHeading = false) →
      exec (.head arg) s = .next (answered .illegalCmd 0 s)) ∧
    (s.halt = false → arg = 0#16 → s.params.guardNotReady = true → s.phase ≠ .ready →
      exec (.read arg) s = .next (answered .notReady 0 s) ∧
      (s.params.hasHeading = true → exec (.head arg) s = .next (answered .notReady 0 s)))

/-- 42_acquisition.md R114(c): `OUT_X` depends on no y or z byte (and so for each axis: the field of an axis is the same for
any two runs of `READ` whose ten blocks agree on that axis). -/
def Obligations.AxesDoNotInteract : Prop :=
  ∀ (s t t' : State) (ds es : List (BitVec 48)) (rest : List BusAnswer) (n : Nat) (axis : Nat), s.params.wf = true →
    s.cfg.rng.toNat ≤ 1 → MayAcquire s → ds.length = 10 → es.length = 10 → s.timerEnds = n + 10 → axis < 3 →
    (∀ k, k < 10 → axisValue s.params.sampleByteOrder (ds.getD k 0#48) axis =
      axisValue s.params.sampleByteOrder (es.getD k 0#48) axis) →
    exec (.read 0#16) { s with answers := ds.map .ok ++ rest } = .next t →
    exec (.read 0#16) { s with answers := es.map .ok ++ rest } = .next t' →
    ∃ r r' : Response, t.responses = s.responses ++ [r] ∧ t'.responses = s.responses ++ [r'] ∧ r.status = .ok ∧
      r'.status = .ok ∧
      r.data / 2 ^ (axis * s.params.outW) % 2 ^ s.params.outW = r'.data / 2 ^ (axis * s.params.outW) % 2 ^ s.params.outW

/-- 10_state.md R19 and 42_acquisition.md R112: every accumulator width of 20 or more gives the same `READ` and the same
`HEAD`; widening `ACC_W` changes nothing but the parameter itself. -/
def Obligations.AccumulatorWidthDoesNotMatter : Prop :=
  ∀ (s t : State) (i : Instr) (arg : Half) (w : Nat), (i = .read arg ∨ i = .head arg) → s.params.accW = 20 → 20 ≤ w →
    exec i s = .next t →
    exec i { s with params := { s.params with accW := w } } = .next { t with params := { t.params with accW := w } }

/-- 10_state.md R21 and 70_reset_and_hazards.md R161 ("written before read in every command that uses them"): whatever the
scratch registers hold when a command is executed, its responses, its history and everything else but those registers are
the same. -/
def Obligations.ScratchIsWrittenBeforeItIsRead : Prop :=
  ∀ (s t : State) (w : CmdWord) (c : BitVec 4) (ax ay az : Int) (rx ry rz : Half),
    exec (decodeCommand w) s = .next t →
    ∃ t', exec (decodeCommand w)
        { s with cnt := c, accX := ax, accY := ay, accZ := az, rawX := rx, rawY := ry, rawZ := rz } = .next t' ∧
      t = { t' with cnt := t.cnt, accX := t.accX, accY := t.accY, accZ := t.accZ, rawX := t.rawX, rawY := t.rawY,
                    rawZ := t.rawZ }

/-! ### The scaler -/

/-- 42_acquisition.md R109(b): the output is within half a unit of `G_a`. -/
def Obligations.ScaleErrsByAtMostHalfAUnit : Prop :=
  ∀ (p : Params) (acc : Int) (rng : BitVec 2), rng.toNat ≤ 1 →
    |(scale p acc rng : ℚ) / 2 ^ p.fracW - gauss p.meanDiv rng acc| ≤ 1 / 2 ^ (p.fracW + 1)

/-- 42_acquisition.md R109(c): `RN` never has to choose between two integers. The scaler divides by a positive number, the
remainder is never half of it, so `scale` never takes the tie branch of `roundNearest`; and `G_a * 2^FRAC_W` is never an odd
multiple of one half. -/
def Obligations.ScaleNeverMeetsATie : Prop :=
  ∀ (p : Params) (acc : Int) (rng : BitVec 2), p.wf = true → rng.toNat ≤ 1 →
    let n : Int := (meanOf p.meanDiv acc).1 * 2 ^ p.fracW
    let d : Nat := (meanOf p.meanDiv acc).2 * countsPerGauss rng
    0 < d ∧ 2 * (n % (d : Int)) ≠ d ∧
    scale p acc rng = (if 2 * (n % (d : Int)) < d then n / (d : Int) else n / (d : Int) + 1) ∧
    ∀ k : Int, 2 * (gauss p.meanDiv rng acc * 2 ^ p.fracW) ≠ 2 * (k : ℚ) + 1

/-- 42_acquisition.md R109(a): ten samples' sum, scaled, fits `OUT_W` bits. -/
def Obligations.ScaleFitsTheOutputWidth : Prop :=
  ∀ (p : Params) (acc : Int) (rng : BitVec 2), p.wf = true → rng.toNat ≤ 1 → SumOf 10 acc →
    -(2 ^ (p.outW - 1)) ≤ scale p acc rng ∧ scale p acc rng < 2 ^ (p.outW - 1)

/-- 42_acquisition.md R109(d), (e), (f): odd with `Exact` and `TruncZero`, zero at zero, exact where `G_a * 2^FRAC_W` is an
integer. -/
def Obligations.ScaleIsOddAndExactOnIntegers : Prop :=
  ∀ (p : Params) (acc : Int) (rng : BitVec 2), p.wf = true → rng.toNat ≤ 1 →
    (p.meanDiv ≠ .floor → scale p (-acc) rng = -scale p acc rng) ∧ scale p 0 rng = 0 ∧
    (∀ k : Int, gauss p.meanDiv rng acc * 2 ^ p.fracW = k → scale p acc rng = k)

/-- 95_test_vectors.md section 5.2, rows that tell the three divisions apart, and the source's example of 1 Gauss. -/
def Obligations.ScaleVectorsOfTheSpec : Prop :=
  scale Params.default 120000 0#2 = 16777216 ∧ scale Params.default 12345 0#2 = 1725956 ∧
  scale Params.default (-15) 1#2 = -8389 ∧
  scale { Params.default with meanDiv := .truncZero } (-15) 1#2 = -5592 ∧
  scale { Params.default with meanDiv := .floor } (-15) 1#2 = -11185

/-! ### The heading function -/

/-- 43_heading.md R124, HP4 and HP5. -/
def Obligations.HeadingIsExactOnTheAxes : Prop :=
  ∀ p : Params, headingFn p 0 0 = 0 ∧ ∀ k : Int, 0 < k →
    headingFn p 0 k = 0 ∧ headingFn p k 0 = 90 * 2 ^ p.headFrac ∧ headingFn p 0 (-k) = 180 * 2 ^ p.headFrac ∧
    headingFn p (-k) 0 = 270 * 2 ^ p.headFrac

/-- 43_heading.md R124, HP1, and R123: every code is below 360 degrees and fits `HEAD_W` bits. -/
def Obligations.HeadingStaysBelowAFullTurn : Prop :=
  ∀ (p : Params) (y x : Int), headingFn p y x < 360 * 2 ^ p.headFrac ∧ (p.wf = true → headingFn p y x < 2 ^ p.headW)

/-- 43_heading.md R122: off the origin there is exactly one `HeadExact`, in [0, 360). The angle's convention is PRESUMED
(log 18). -/
def Obligations.HeadExactIsOneAngle : Prop :=
  ∀ y x : Int, (y ≠ 0 ∨ x ≠ 0) → ∃ t : ℝ, IsHeadExact y x t ∧ 0 ≤ t ∧ t < 360 ∧ ∀ t', IsHeadExact y x t' → t' = t

/-- 43_heading.md R124, HP3: every heading is within `HEAD_EPS` of the exact angle, circularly. `IsHeadExact` rests on the
convention of the angle that the spec marks as general knowledge (PRESUMED, log 18); the engine is free (log 13). -/
def Obligations.HeadingIsWithinHeadEps : Prop :=
  ∀ (p : Params) (y x : Int) (t : ℝ), p.wf = true → (y ≠ 0 ∨ x ≠ 0) → IsHeadExact y x t →
    CDistLe ((headingFn p y x : ℝ) / 2 ^ p.headFrac) t ((p.headEpsNum : ℝ) / p.headEpsDen)

/-- 43_heading.md R125(b), an inference of the spec ("derived: from rule R124 HP3"): scaling both inputs by a positive number
moves no exact angle and moves the heading by at most 2 x `HEAD_EPS`, circularly, and the correctly rounded code not at all.
The angle's convention is PRESUMED (log 18). -/
def Obligations.HeadingIsNearlyScaleInvariant : Prop :=
  ∀ (p : Params) (y x k : Int), p.wf = true → (y ≠ 0 ∨ x ≠ 0) → 0 < k →
    (∀ t : ℝ, IsHeadExact (k * y) (k * x) t ↔ IsHeadExact y x t) ∧
    CDistLe ((headingFn p (k * y) (k * x) : ℝ) / 2 ^ p.headFrac) ((headingFn p y x : ℝ) / 2 ^ p.headFrac)
      (2 * ((p.headEpsNum : ℝ) / p.headEpsDen)) ∧
    headNearest p (k * y) (k * x) = headNearest p y x

/-- 43_heading.md R124: the correctly rounded engine, the model's code where the free engine breaks HP3 (log 13), is the
nearest code to the exact angle, modulo `M`. The angle's convention is PRESUMED (log 18). -/
def Obligations.HeadNearestIsTheNearestCode : Prop :=
  ∀ (p : Params) (y x : Int) (t : ℝ), (y ≠ 0 ∨ x ≠ 0) → IsHeadExact y x t →
    ∃ n : Nat, |t * 2 ^ p.headFrac - n| ≤ 1 / 2 ∧ headNearest p y x = n % (360 * 2 ^ p.headFrac)

/-! ### Whole-machine rules -/

/-- Every step keeps the invariant. -/
def Obligations.EveryStepKeepsTheInvariant : Prop := ∀ s t : State, s.Inv → step s = .next t → t.Inv

/-- 60_exceptions.md R135: a halted block answers every one of the 2^20 words with `HALTED`, and nothing else changes; only
reset clears `HALT`, so that no later step makes the end good. -/
def Obligations.HaltedBlockAnswersHalted : Prop :=
  (∀ (s : State) (w : CmdWord) (rest : List CmdWord), s.rst = false → s.halt = true → s.busy = false →
    s.cmds = w :: rest → step s = .next (answered .halted 0 { s with cmds := rest })) ∧
  (∀ s t : State, s.halt = true → step s = .next t → (s.rst = false → ¬ t.Good) ∧ (s.rst = true → t.halt = false))

/-- 10_state.md R15: `HALT` is 0 after reset; an illegal setter value under `FAIL_FAST` sets it and nothing else does; only
reset clears it; while it is 1 every command answers `HALTED` and does nothing else. -/
def Obligations.HaltIsSticky : Prop :=
  State.reset.halt = false ∧ ∀ s t : State, step s = .next t →
    (s.rst = true → t.halt = false) ∧
    (s.halt = true → s.rst = false → t.halt = true) ∧
    (s.halt = true → s.rst = false → s.busy = false → ∀ w rest, s.cmds = w :: rest →
      t = answered .halted 0 { s with cmds := rest }) ∧
    (s.halt = false → t.halt = true → s.params.failFast = true ∧ s.rst = false ∧ s.busy = false ∧
      s.phase = .uninitialized ∧ ∃ w rest, s.cmds = w :: rest ∧ IllegalSetting (decodeCommand w)) ∧
    (s.halt = false → s.rst = false → s.busy = false → s.phase = .uninitialized → s.params.failFast = true →
      ∀ w rest, s.cmds = w :: rest → IllegalSetting (decodeCommand w) → t.halt = true)

/-- 10_state.md R14: the transitions of `PHASE`, and no others. Without reset, `Ready` is never left; `Initializing` is entered
from `Uninitialized` only, as an `INIT` passes its checks, and `Ready` only as the third write of `INIT` succeeds; `Initializing`
gives way to `Uninitialized` only as a write of `INIT` fails; and each of these two ends comes whenever its write does. A step can
hold several of these events, so that it can lead from `Uninitialized` straight to `Ready` (the model's choice, log 5), and the
response comes in the same step (log 25). -/
def Obligations.PhaseMovesOnlyAsDrawn : Prop :=
  ∀ s t : State, s.Inv → s.rst = false → step s = .next t →
    (t.phase ≠ s.phase →
      s.phase ≠ .ready ∧
      (s.phase = .uninitialized →
        s.busy = false ∧ s.halt = false ∧ ∃ w rest, s.cmds = w :: rest ∧ decodeCommand w = .init 0#16) ∧
      (s.phase = .initializing → s.busy = true ∧ t.busy = false ∧ (t.phase = .ready ∨ t.phase = .uninitialized)) ∧
      (t.phase = .initializing → s.phase = .uninitialized ∧ t.busy = true) ∧
      (t.phase = .ready → ∃ es, t.history = s.history ++ es ++ [.write s.params.busAddr 0x0A#8 0x40#8 .ok]) ∧
      (t.phase = .uninitialized → ∃ es e, t.history = s.history ++ es ++ [e] ∧ IsFailedWrite e)) ∧
    (∀ es e, t.history = s.history ++ es → e ∈ es →
      (e = .write s.params.busAddr 0x0A#8 0x40#8 .ok → t.phase = .ready) ∧
      (IsFailedWrite e → t.phase = .uninitialized))

/-- 10_state.md R13 and 70_reset_and_hazards.md R172: apart from reset, `CFG` changes only by a setter with a legal value
accepted in `Uninitialized`, one field at a time. -/
def Obligations.CfgIsWrittenByLegalSettersOnly : Prop :=
  ∀ s t : State, s.rst = false → step s = .next t → t.cfg ≠ s.cfg →
    s.busy = false ∧ s.halt = false ∧ s.phase = .uninitialized ∧
    ∃ w rest, s.cmds = w :: rest ∧ FieldReplaced s.cfg t.cfg (decodeCommand w)

/-- 20_memory.md R36: from any state that meets the invariant, a step appends to the history only accesses of the complete
list and the two delays, and removes nothing; an inference of the spec ("derived: from 41_init.md rule R90 and
42_acquisition.md rule R101"). -/
def Obligations.BusSeesOnlyTheListedAccesses : Prop :=
  ∀ s t : State, s.Inv → step s = .next t → ∃ es : List Event, t.history = s.history ++ es ∧ ∀ e ∈ es, Listed s.params e

/-- 30_encoding.md R61, 60_exceptions.md R150, 70_reset_and_hazards.md R173: an executed command either ends with exactly one
response and `BUSY` 0, or is in progress, waiting for an answer or for time, with none. That it waits only where an input is
missing rests on the model's choices that `exec` goes as far as its inputs allow (log 5) and that a busy block has a
transaction in flight or a delay running (log 25). -/
def Obligations.EveryCommandAnswersOnceOrWaits : Prop :=
  ∀ (s t : State) (w : CmdWord), exec (decodeCommand w) s = .next t →
    (t.busy = false ∧ t.job = .idle ∧ ∃ r, t.responses = s.responses ++ [r]) ∨
    (t.busy = true ∧ t.responses = s.responses ∧ Waiting t)

/-- 70_reset_and_hazards.md R173 and 92_eei_decisions.md D30 ("A model must not add a step that lets the command past an
unanswered transaction"), R170: `INIT`, `RDRAW`, `READ` and `HEAD`, once past their checks, stop at the first transaction without
an answer and at the first delay without an end, wherever in the sequence it is: `BUSY` 1, no response, no further event, the
position kept. That they come so far in one step is the model's choice (logs 5 and 25); that steps leave them there is
`BlockWaitsForItsInputs`. Samples are two's complement (log 17). -/
def Obligations.NoCommandPassesAMissingInput : Prop :=
  ∀ (s : State) (rest : List BusAnswer) (n : Nat),
    (s.halt = false → s.phase = .uninitialized →
      (s.answers = [] →
        exec (.init 0#16) s = .next { s with phase := .initializing, busy := true, job := .initReset }) ∧
      (∀ d1, s.answers = .ok d1 :: rest → s.timerEnds = 0 →
        exec (.init 0#16) s = .next { s with
          phase := .initializing, busy := true, job := .initSettle, answers := rest
          history := s.history ++ [.write s.params.busAddr 0x0A#8 0x80#8 .ok, .delay 5] }) ∧
      (∀ d1, s.answers = [.ok d1] → s.timerEnds = n + 1 →
        exec (.init 0#16) s = .next { s with
          phase := .initializing, busy := true, job := .initControl1 (ctrl1Image s.cfg), answers := [], timerEnds := n
          history := s.history ++ [.write s.params.busAddr 0x0A#8 0x80#8 .ok, .delay 5] }) ∧
      (∀ d1 d2, s.answers = [.ok d1, .ok d2] → s.timerEnds = n + 1 →
        exec (.init 0#16) s = .next { s with
          phase := .initializing, busy := true, job := .initRollOver, answers := [], timerEnds := n
          history := s.history ++ [.write s.params.busAddr 0x0A#8 0x80#8 .ok, .delay 5,
            .write s.params.busAddr 0x09#8 (ctrl1Image s.cfg) .ok] })) ∧
    (MayAcquire s → s.answers = [] →
      exec (.rdraw 0#16) s = .next { s with busy := true, job := .rawRead }) ∧
    (∀ i want (ds : List (BitVec 48)), FilteredRead s.params i want → MayAcquire s → s.params.wf = true →
      (ds.length < 10 → s.answers = ds.map .ok → s.timerEnds = n + ds.length → ∃ rx ry rz : Half,
        exec i s = .next { s with
          busy := true
          job := .sample want
          cnt := BitVec.ofNat 4 ds.length
          accX := sumOf s.params.sampleByteOrder ds 0
          accY := sumOf s.params.sampleByteOrder ds 1
          accZ := sumOf s.params.sampleByteOrder ds 2
          rawX := rx
          rawY := ry
          rawZ := rz
          answers := []
          timerEnds := n
          history := s.history ++ readPairs s.params ds }) ∧
      (ds.length ≤ 10 → s.answers = ds.map .ok ++ rest → s.timerEnds + 1 = ds.length → ∃ rx ry rz : Half,
        exec i s = .next { s with
          busy := true
          job := .gap want
          cnt := BitVec.ofNat 4 ds.length
          accX := sumOf s.params.sampleByteOrder ds 0
          accY := sumOf s.params.sampleByteOrder ds 1
          accZ := sumOf s.params.sampleByteOrder ds 2
          rawX := rx
          rawY := ry
          rawZ := rz
          answers := rest
          timerEnds := 0
          history := s.history ++ readPairs s.params ds }))

/-- 60_exceptions.md R150: a step delivers at most one response, and only as `BUSY` falls. -/
def Obligations.StepDeliversAtMostOneResponse : Prop :=
  ∀ s t : State, step s = .next t →
    t.responses = s.responses ∨ ((∃ r, t.responses = s.responses ++ [r]) ∧ t.busy = false)

/-- 60_exceptions.md R140: the statuses each instruction can answer, inside `exec` and, for a command that waited, in a later
step, by its position; an inference of the spec ("derived: from rules R130 to R139"). The rows of the control bytes are the
model's (log 9), and so is the splitting into steps (log 5). -/
def Obligations.EachCommandAnswersItsOwnStatuses : Prop :=
  (∀ (i : Instr) (s t : State) (r : Response), exec i s = .next t → t.responses = s.responses ++ [r] →
    r.status ∈ mayAnswer i) ∧
  (∀ (s t : State) (r : Response), s.rst = false → s.busy = true → step s = .next t →
    t.responses = s.responses ++ [r] → r.status ∈ mayFinish s.job)

/-- 30_encoding.md R62, last row: the payload of a refusal is zero, but for the legal list. -/
def Obligations.RefusalsCarryNoPayload : Prop :=
  ∀ (s t : State) (r : Response), step s = .next t → t.responses = s.responses ++ [r] → r.status ≠ .ok →
    r.status ≠ .invalidConfiguration → r.data = 0

/-- 30_encoding.md R62: every payload fits `rsp_data`, for an instance whose heading field does. -/
def Obligations.PayloadsFitTheResponsePort : Prop :=
  ∀ (s t : State) (r : Response), s.Inv → s.params.headW ≤ max (3 * s.params.outW) 67 → step s = .next t →
    t.responses = s.responses ++ [r] → r.data < 2 ^ max (3 * s.params.outW) 67

/-- 60_exceptions.md R137: every illegal word of 30_encoding.md R63 answers `ILLEGAL_CMD`, or `HALTED` first, and changes
nothing; the reserved opcodes whatever their other bits. -/
def Obligations.IllegalWordsAnswerIllegalCmd : Prop :=
  (∀ (s : State) (w : CmdWord), IllegalWord s.params w →
    (s.halt = false → exec (decodeCommand w) s = .next (answered .illegalCmd 0 s)) ∧
    (s.halt = true → exec (decodeCommand w) s = .next (answered .halted 0 s))) ∧
  (∀ (s : State) (a : BitVec 17) (c : BitVec 18),
    (s.halt = false → exec (.reservedAB a) s = .next (answered .illegalCmd 0 s) ∧
      exec (.reservedCF c) s = .next (answered .illegalCmd 0 s)) ∧
    (s.halt = true → exec (.reservedAB a) s = .next (answered .halted 0 s) ∧
      exec (.reservedCF c) s = .next (answered .halted 0 s)))

/-- 60_exceptions.md R136: with the guard, `RDRAW`, `READ` and `HEAD` outside `Ready` answer `NOT_READY` and change nothing;
without it they run in every `PHASE` exactly as in `Ready`. -/
def Obligations.AcquisitionIsGuarded : Prop :=
  ∀ (s : State) (i : Instr), (i = .rdraw 0#16 ∨ i = .read 0#16 ∨ (i = .head 0#16 ∧ s.params.hasHeading = true)) →
    s.halt = false →
    (s.params.guardNotReady = true → s.phase ≠ .ready → exec i s = .next (answered .notReady 0 s)) ∧
    (s.params.guardNotReady = false → ∀ t, exec i { s with phase := .ready } = .next t →
      exec i s = .next { t with phase := s.phase })

/-- 00_scope.md R4 ("None changes while the block runs") and 60_exceptions.md R142: every step answers a next state, and no
step changes a parameter. -/
def Obligations.StepNeverStopsAndKeepsTheParameters : Prop :=
  ∀ s : State, ∃ t, step s = .next t ∧ t.params = s.params
end

