-- ==== Sys2Proof/Laws/Codec.lean ====
section
/-! SUPPORT. The packed encodings as numbers, their fields read back, and the legal lists as payloads. -/

namespace Sys2Proof

theorem packCommand_toNat (op : BitVec 4) (arg : Half) : (packCommand op arg).toNat = op.toNat * 65536 + arg.toNat := by
  show (op ++ arg : BitVec (4 + 16)).toNat = _
  rw [BitVec.toNat_append, ← Nat.shiftLeft_add_eq_or_of_lt arg.isLt, Nat.shiftLeft_eq]

@[simp] theorem opOf_packCommand (op : BitVec 4) (arg : Half) : opOf (packCommand op arg) = op := by
  have := arg.isLt
  have := op.isLt
  apply BitVec.eq_of_toNat_eq
  simp only [opOf, BitVec.extractLsb'_toNat, packCommand_toNat, Nat.shiftRight_eq_div_pow]
  omega

@[simp] theorem argOf_packCommand (op : BitVec 4) (arg : Half) : argOf (packCommand op arg) = arg := by
  have := arg.isLt
  apply BitVec.eq_of_toNat_eq
  simp only [argOf, BitVec.extractLsb'_toNat, packCommand_toNat, Nat.shiftRight_eq_div_pow]
  omega

theorem packControl1_toNat (osr rng odr mode : BitVec 2) :
    (packControl1 osr rng odr mode).toNat = osr.toNat * 64 + rng.toNat * 16 + odr.toNat * 4 + mode.toNat := by
  revert osr rng odr mode; decide +kernel

/-- Putting the four fields of a byte together gives the byte. -/
theorem packControl1_fields (b : Byte) :
    packControl1 (b.extractLsb' 6 2) (b.extractLsb' 4 2) (b.extractLsb' 2 2) (b.extractLsb' 0 2) = b := by
  revert b; decide +kernel

namespace Machine

theorem legalPayload_odr : legalPayload (legalList .odr) = 0x4_00C8_0064_0032_000A := by decide
theorem legalPayload_rng : legalPayload (legalList .rng) = 0x2_0000_0000_0008_0002 := by decide
theorem legalPayload_osr : legalPayload (legalList .osr) = 0x4_0200_0100_0080_0040 := by decide
theorem legalPayload_mode : legalPayload (legalList .mode) = 0x2_0000_0000_0001_0000 := by decide

end Machine

end Sys2Proof
end

