-- ==== Sys2Proof/Laws/State.lean ====
section
/-! SUPPORT. One lemma per field per named update of State, each true by rfl. `completeOk`, `raise`, `initFail` and
`acquireFail` are first rewritten to `respond`. -/

namespace Sys2Proof.Machine

@[simp] theorem completeOk_eq_respond (data : Nat) (s : State) : completeOk data s = respond .ok data s := rfl
@[simp] theorem raise_eq_respond (st : Status) (data : Nat) (s : State) : raise st data s = respond st data s := rfl
@[simp] theorem acquireFail_eq_respond (s : State) : acquireFail s = respond .busError 0 s := rfl
@[simp] theorem initFail_eq_respond (s : State) :
    initFail s = respond .busError 0 { s with phase := .uninitialized } := rfl


@[simp] theorem accept_params (s : State) : (accept s).params = s.params := rfl
@[simp] theorem accept_cfg (s : State) : (accept s).cfg = s.cfg := rfl
@[simp] theorem accept_phase (s : State) : (accept s).phase = s.phase := rfl
@[simp] theorem accept_halt (s : State) : (accept s).halt = s.halt := rfl
@[simp] theorem accept_busy (s : State) : (accept s).busy = true := rfl
@[simp] theorem accept_job (s : State) : (accept s).job = s.job := rfl
@[simp] theorem accept_cnt (s : State) : (accept s).cnt = s.cnt := rfl
@[simp] theorem accept_accX (s : State) : (accept s).accX = s.accX := rfl
@[simp] theorem accept_accY (s : State) : (accept s).accY = s.accY := rfl
@[simp] theorem accept_accZ (s : State) : (accept s).accZ = s.accZ := rfl
@[simp] theorem accept_rawX (s : State) : (accept s).rawX = s.rawX := rfl
@[simp] theorem accept_rawY (s : State) : (accept s).rawY = s.rawY := rfl
@[simp] theorem accept_rawZ (s : State) : (accept s).rawZ = s.rawZ := rfl
@[simp] theorem accept_cmds (s : State) : (accept s).cmds = s.cmds := rfl
@[simp] theorem accept_rst (s : State) : (accept s).rst = s.rst := rfl
@[simp] theorem accept_answers (s : State) : (accept s).answers = s.answers := rfl
@[simp] theorem accept_timerEnds (s : State) : (accept s).timerEnds = s.timerEnds := rfl
@[simp] theorem accept_history (s : State) : (accept s).history = s.history := rfl
@[simp] theorem accept_responses (s : State) : (accept s).responses = s.responses := rfl

@[simp] theorem failFast_params (s : State) : (failFast s).params = s.params := rfl
@[simp] theorem failFast_cfg (s : State) : (failFast s).cfg = s.cfg := rfl
@[simp] theorem failFast_phase (s : State) : (failFast s).phase = s.phase := rfl
@[simp] theorem failFast_halt (s : State) : (failFast s).halt = (s.halt || s.params.failFast) := rfl
@[simp] theorem failFast_busy (s : State) : (failFast s).busy = s.busy := rfl
@[simp] theorem failFast_job (s : State) : (failFast s).job = s.job := rfl
@[simp] theorem failFast_cnt (s : State) : (failFast s).cnt = s.cnt := rfl
@[simp] theorem failFast_accX (s : State) : (failFast s).accX = s.accX := rfl
@[simp] theorem failFast_accY (s : State) : (failFast s).accY = s.accY := rfl
@[simp] theorem failFast_accZ (s : State) : (failFast s).accZ = s.accZ := rfl
@[simp] theorem failFast_rawX (s : State) : (failFast s).rawX = s.rawX := rfl
@[simp] theorem failFast_rawY (s : State) : (failFast s).rawY = s.rawY := rfl
@[simp] theorem failFast_rawZ (s : State) : (failFast s).rawZ = s.rawZ := rfl
@[simp] theorem failFast_cmds (s : State) : (failFast s).cmds = s.cmds := rfl
@[simp] theorem failFast_rst (s : State) : (failFast s).rst = s.rst := rfl
@[simp] theorem failFast_answers (s : State) : (failFast s).answers = s.answers := rfl
@[simp] theorem failFast_timerEnds (s : State) : (failFast s).timerEnds = s.timerEnds := rfl
@[simp] theorem failFast_history (s : State) : (failFast s).history = s.history := rfl
@[simp] theorem failFast_responses (s : State) : (failFast s).responses = s.responses := rfl

@[simp] theorem respond_params (st : Status) (data : Nat) (s : State) : (respond st data s).params = s.params := rfl
@[simp] theorem respond_cfg (st : Status) (data : Nat) (s : State) : (respond st data s).cfg = s.cfg := rfl
@[simp] theorem respond_phase (st : Status) (data : Nat) (s : State) : (respond st data s).phase = s.phase := rfl
@[simp] theorem respond_halt (st : Status) (data : Nat) (s : State) : (respond st data s).halt = s.halt := rfl
@[simp] theorem respond_busy (st : Status) (data : Nat) (s : State) : (respond st data s).busy = false := rfl
@[simp] theorem respond_job (st : Status) (data : Nat) (s : State) : (respond st data s).job = .idle := rfl
@[simp] theorem respond_cnt (st : Status) (data : Nat) (s : State) : (respond st data s).cnt = s.cnt := rfl
@[simp] theorem respond_accX (st : Status) (data : Nat) (s : State) : (respond st data s).accX = s.accX := rfl
@[simp] theorem respond_accY (st : Status) (data : Nat) (s : State) : (respond st data s).accY = s.accY := rfl
@[simp] theorem respond_accZ (st : Status) (data : Nat) (s : State) : (respond st data s).accZ = s.accZ := rfl
@[simp] theorem respond_rawX (st : Status) (data : Nat) (s : State) : (respond st data s).rawX = s.rawX := rfl
@[simp] theorem respond_rawY (st : Status) (data : Nat) (s : State) : (respond st data s).rawY = s.rawY := rfl
@[simp] theorem respond_rawZ (st : Status) (data : Nat) (s : State) : (respond st data s).rawZ = s.rawZ := rfl
@[simp] theorem respond_cmds (st : Status) (data : Nat) (s : State) : (respond st data s).cmds = s.cmds := rfl
@[simp] theorem respond_rst (st : Status) (data : Nat) (s : State) : (respond st data s).rst = s.rst := rfl
@[simp] theorem respond_answers (st : Status) (data : Nat) (s : State) : (respond st data s).answers = s.answers := rfl
@[simp] theorem respond_timerEnds (st : Status) (data : Nat) (s : State) : (respond st data s).timerEnds = s.timerEnds := rfl
@[simp] theorem respond_history (st : Status) (data : Nat) (s : State) : (respond st data s).history = s.history := rfl
@[simp] theorem respond_responses (st : Status) (data : Nat) (s : State) : (respond st data s).responses = s.responses ++ [⟨st, data⟩] := rfl

@[simp] theorem logEvent_params (e : Event) (s : State) : (logEvent e s).params = s.params := rfl
@[simp] theorem logEvent_cfg (e : Event) (s : State) : (logEvent e s).cfg = s.cfg := rfl
@[simp] theorem logEvent_phase (e : Event) (s : State) : (logEvent e s).phase = s.phase := rfl
@[simp] theorem logEvent_halt (e : Event) (s : State) : (logEvent e s).halt = s.halt := rfl
@[simp] theorem logEvent_busy (e : Event) (s : State) : (logEvent e s).busy = s.busy := rfl
@[simp] theorem logEvent_job (e : Event) (s : State) : (logEvent e s).job = s.job := rfl
@[simp] theorem logEvent_cnt (e : Event) (s : State) : (logEvent e s).cnt = s.cnt := rfl
@[simp] theorem logEvent_accX (e : Event) (s : State) : (logEvent e s).accX = s.accX := rfl
@[simp] theorem logEvent_accY (e : Event) (s : State) : (logEvent e s).accY = s.accY := rfl
@[simp] theorem logEvent_accZ (e : Event) (s : State) : (logEvent e s).accZ = s.accZ := rfl
@[simp] theorem logEvent_rawX (e : Event) (s : State) : (logEvent e s).rawX = s.rawX := rfl
@[simp] theorem logEvent_rawY (e : Event) (s : State) : (logEvent e s).rawY = s.rawY := rfl
@[simp] theorem logEvent_rawZ (e : Event) (s : State) : (logEvent e s).rawZ = s.rawZ := rfl
@[simp] theorem logEvent_cmds (e : Event) (s : State) : (logEvent e s).cmds = s.cmds := rfl
@[simp] theorem logEvent_rst (e : Event) (s : State) : (logEvent e s).rst = s.rst := rfl
@[simp] theorem logEvent_answers (e : Event) (s : State) : (logEvent e s).answers = s.answers := rfl
@[simp] theorem logEvent_timerEnds (e : Event) (s : State) : (logEvent e s).timerEnds = s.timerEnds := rfl
@[simp] theorem logEvent_history (e : Event) (s : State) : (logEvent e s).history = s.history ++ [e] := rfl
@[simp] theorem logEvent_responses (e : Event) (s : State) : (logEvent e s).responses = s.responses := rfl

@[simp] theorem beginDelay_params (ms : Nat) (j : Job) (s : State) : (beginDelay ms j s).params = s.params := rfl
@[simp] theorem beginDelay_cfg (ms : Nat) (j : Job) (s : State) : (beginDelay ms j s).cfg = s.cfg := rfl
@[simp] theorem beginDelay_phase (ms : Nat) (j : Job) (s : State) : (beginDelay ms j s).phase = s.phase := rfl
@[simp] theorem beginDelay_halt (ms : Nat) (j : Job) (s : State) : (beginDelay ms j s).halt = s.halt := rfl
@[simp] theorem beginDelay_busy (ms : Nat) (j : Job) (s : State) : (beginDelay ms j s).busy = s.busy := rfl
@[simp] theorem beginDelay_job (ms : Nat) (j : Job) (s : State) : (beginDelay ms j s).job = j := rfl
@[simp] theorem beginDelay_cnt (ms : Nat) (j : Job) (s : State) : (beginDelay ms j s).cnt = s.cnt := rfl
@[simp] theorem beginDelay_accX (ms : Nat) (j : Job) (s : State) : (beginDelay ms j s).accX = s.accX := rfl
@[simp] theorem beginDelay_accY (ms : Nat) (j : Job) (s : State) : (beginDelay ms j s).accY = s.accY := rfl
@[simp] theorem beginDelay_accZ (ms : Nat) (j : Job) (s : State) : (beginDelay ms j s).accZ = s.accZ := rfl
@[simp] theorem beginDelay_rawX (ms : Nat) (j : Job) (s : State) : (beginDelay ms j s).rawX = s.rawX := rfl
@[simp] theorem beginDelay_rawY (ms : Nat) (j : Job) (s : State) : (beginDelay ms j s).rawY = s.rawY := rfl
@[simp] theorem beginDelay_rawZ (ms : Nat) (j : Job) (s : State) : (beginDelay ms j s).rawZ = s.rawZ := rfl
@[simp] theorem beginDelay_cmds (ms : Nat) (j : Job) (s : State) : (beginDelay ms j s).cmds = s.cmds := rfl
@[simp] theorem beginDelay_rst (ms : Nat) (j : Job) (s : State) : (beginDelay ms j s).rst = s.rst := rfl
@[simp] theorem beginDelay_answers (ms : Nat) (j : Job) (s : State) : (beginDelay ms j s).answers = s.answers := rfl
@[simp] theorem beginDelay_timerEnds (ms : Nat) (j : Job) (s : State) : (beginDelay ms j s).timerEnds = s.timerEnds := rfl
@[simp] theorem beginDelay_history (ms : Nat) (j : Job) (s : State) : (beginDelay ms j s).history = s.history ++ [.delay ms] := rfl
@[simp] theorem beginDelay_responses (ms : Nat) (j : Job) (s : State) : (beginDelay ms j s).responses = s.responses := rfl

@[simp] theorem enterInit_params (j : Job) (s : State) : (enterInit j s).params = s.params := rfl
@[simp] theorem enterInit_cfg (j : Job) (s : State) : (enterInit j s).cfg = s.cfg := rfl
@[simp] theorem enterInit_phase (j : Job) (s : State) : (enterInit j s).phase = .initializing := rfl
@[simp] theorem enterInit_halt (j : Job) (s : State) : (enterInit j s).halt = s.halt := rfl
@[simp] theorem enterInit_busy (j : Job) (s : State) : (enterInit j s).busy = true := rfl
@[simp] theorem enterInit_job (j : Job) (s : State) : (enterInit j s).job = j := rfl
@[simp] theorem enterInit_cnt (j : Job) (s : State) : (enterInit j s).cnt = s.cnt := rfl
@[simp] theorem enterInit_accX (j : Job) (s : State) : (enterInit j s).accX = s.accX := rfl
@[simp] theorem enterInit_accY (j : Job) (s : State) : (enterInit j s).accY = s.accY := rfl
@[simp] theorem enterInit_accZ (j : Job) (s : State) : (enterInit j s).accZ = s.accZ := rfl
@[simp] theorem enterInit_rawX (j : Job) (s : State) : (enterInit j s).rawX = s.rawX := rfl
@[simp] theorem enterInit_rawY (j : Job) (s : State) : (enterInit j s).rawY = s.rawY := rfl
@[simp] theorem enterInit_rawZ (j : Job) (s : State) : (enterInit j s).rawZ = s.rawZ := rfl
@[simp] theorem enterInit_cmds (j : Job) (s : State) : (enterInit j s).cmds = s.cmds := rfl
@[simp] theorem enterInit_rst (j : Job) (s : State) : (enterInit j s).rst = s.rst := rfl
@[simp] theorem enterInit_answers (j : Job) (s : State) : (enterInit j s).answers = s.answers := rfl
@[simp] theorem enterInit_timerEnds (j : Job) (s : State) : (enterInit j s).timerEnds = s.timerEnds := rfl
@[simp] theorem enterInit_history (j : Job) (s : State) : (enterInit j s).history = s.history := rfl
@[simp] theorem enterInit_responses (j : Job) (s : State) : (enterInit j s).responses = s.responses := rfl

@[simp] theorem latchRaw_params (d : BitVec 48) (s : State) : (latchRaw d s).params = s.params := rfl
@[simp] theorem latchRaw_cfg (d : BitVec 48) (s : State) : (latchRaw d s).cfg = s.cfg := rfl
@[simp] theorem latchRaw_phase (d : BitVec 48) (s : State) : (latchRaw d s).phase = s.phase := rfl
@[simp] theorem latchRaw_halt (d : BitVec 48) (s : State) : (latchRaw d s).halt = s.halt := rfl
@[simp] theorem latchRaw_busy (d : BitVec 48) (s : State) : (latchRaw d s).busy = s.busy := rfl
@[simp] theorem latchRaw_job (d : BitVec 48) (s : State) : (latchRaw d s).job = s.job := rfl
@[simp] theorem latchRaw_cnt (d : BitVec 48) (s : State) : (latchRaw d s).cnt = s.cnt := rfl
@[simp] theorem latchRaw_accX (d : BitVec 48) (s : State) : (latchRaw d s).accX = s.accX := rfl
@[simp] theorem latchRaw_accY (d : BitVec 48) (s : State) : (latchRaw d s).accY = s.accY := rfl
@[simp] theorem latchRaw_accZ (d : BitVec 48) (s : State) : (latchRaw d s).accZ = s.accZ := rfl
@[simp] theorem latchRaw_rawX (d : BitVec 48) (s : State) : (latchRaw d s).rawX = axisPattern s.params.sampleByteOrder d 0 := rfl
@[simp] theorem latchRaw_rawY (d : BitVec 48) (s : State) : (latchRaw d s).rawY = axisPattern s.params.sampleByteOrder d 1 := rfl
@[simp] theorem latchRaw_rawZ (d : BitVec 48) (s : State) : (latchRaw d s).rawZ = axisPattern s.params.sampleByteOrder d 2 := rfl
@[simp] theorem latchRaw_cmds (d : BitVec 48) (s : State) : (latchRaw d s).cmds = s.cmds := rfl
@[simp] theorem latchRaw_rst (d : BitVec 48) (s : State) : (latchRaw d s).rst = s.rst := rfl
@[simp] theorem latchRaw_answers (d : BitVec 48) (s : State) : (latchRaw d s).answers = s.answers := rfl
@[simp] theorem latchRaw_timerEnds (d : BitVec 48) (s : State) : (latchRaw d s).timerEnds = s.timerEnds := rfl
@[simp] theorem latchRaw_history (d : BitVec 48) (s : State) : (latchRaw d s).history = s.history := rfl
@[simp] theorem latchRaw_responses (d : BitVec 48) (s : State) : (latchRaw d s).responses = s.responses := rfl

@[simp] theorem addSample_params (s : State) : (addSample s).params = s.params := rfl
@[simp] theorem addSample_cfg (s : State) : (addSample s).cfg = s.cfg := rfl
@[simp] theorem addSample_phase (s : State) : (addSample s).phase = s.phase := rfl
@[simp] theorem addSample_halt (s : State) : (addSample s).halt = s.halt := rfl
@[simp] theorem addSample_busy (s : State) : (addSample s).busy = s.busy := rfl
@[simp] theorem addSample_job (s : State) : (addSample s).job = s.job := rfl
@[simp] theorem addSample_cnt (s : State) : (addSample s).cnt = s.cnt + 1#4 := rfl
@[simp] theorem addSample_accX (s : State) : (addSample s).accX = accumulate s.params.accW s.accX s.rawX := rfl
@[simp] theorem addSample_accY (s : State) : (addSample s).accY = accumulate s.params.accW s.accY s.rawY := rfl
@[simp] theorem addSample_accZ (s : State) : (addSample s).accZ = accumulate s.params.accW s.accZ s.rawZ := rfl
@[simp] theorem addSample_rawX (s : State) : (addSample s).rawX = s.rawX := rfl
@[simp] theorem addSample_rawY (s : State) : (addSample s).rawY = s.rawY := rfl
@[simp] theorem addSample_rawZ (s : State) : (addSample s).rawZ = s.rawZ := rfl
@[simp] theorem addSample_cmds (s : State) : (addSample s).cmds = s.cmds := rfl
@[simp] theorem addSample_rst (s : State) : (addSample s).rst = s.rst := rfl
@[simp] theorem addSample_answers (s : State) : (addSample s).answers = s.answers := rfl
@[simp] theorem addSample_timerEnds (s : State) : (addSample s).timerEnds = s.timerEnds := rfl
@[simp] theorem addSample_history (s : State) : (addSample s).history = s.history := rfl
@[simp] theorem addSample_responses (s : State) : (addSample s).responses = s.responses := rfl

@[simp] theorem beginFiltered_params (w : Want) (s : State) : (beginFiltered w s).params = s.params := rfl
@[simp] theorem beginFiltered_cfg (w : Want) (s : State) : (beginFiltered w s).cfg = s.cfg := rfl
@[simp] theorem beginFiltered_phase (w : Want) (s : State) : (beginFiltered w s).phase = s.phase := rfl
@[simp] theorem beginFiltered_halt (w : Want) (s : State) : (beginFiltered w s).halt = s.halt := rfl
@[simp] theorem beginFiltered_busy (w : Want) (s : State) : (beginFiltered w s).busy = s.busy := rfl
@[simp] theorem beginFiltered_job (w : Want) (s : State) : (beginFiltered w s).job = .sample w := rfl
@[simp] theorem beginFiltered_cnt (w : Want) (s : State) : (beginFiltered w s).cnt = 0#4 := rfl
@[simp] theorem beginFiltered_accX (w : Want) (s : State) : (beginFiltered w s).accX = 0 := rfl
@[simp] theorem beginFiltered_accY (w : Want) (s : State) : (beginFiltered w s).accY = 0 := rfl
@[simp] theorem beginFiltered_accZ (w : Want) (s : State) : (beginFiltered w s).accZ = 0 := rfl
@[simp] theorem beginFiltered_rawX (w : Want) (s : State) : (beginFiltered w s).rawX = s.rawX := rfl
@[simp] theorem beginFiltered_rawY (w : Want) (s : State) : (beginFiltered w s).rawY = s.rawY := rfl
@[simp] theorem beginFiltered_rawZ (w : Want) (s : State) : (beginFiltered w s).rawZ = s.rawZ := rfl
@[simp] theorem beginFiltered_cmds (w : Want) (s : State) : (beginFiltered w s).cmds = s.cmds := rfl
@[simp] theorem beginFiltered_rst (w : Want) (s : State) : (beginFiltered w s).rst = s.rst := rfl
@[simp] theorem beginFiltered_answers (w : Want) (s : State) : (beginFiltered w s).answers = s.answers := rfl
@[simp] theorem beginFiltered_timerEnds (w : Want) (s : State) : (beginFiltered w s).timerEnds = s.timerEnds := rfl
@[simp] theorem beginFiltered_history (w : Want) (s : State) : (beginFiltered w s).history = s.history := rfl
@[simp] theorem beginFiltered_responses (w : Want) (s : State) : (beginFiltered w s).responses = s.responses := rfl

end Sys2Proof.Machine
end

