-- ==== Sys2Proof/Laws/Ops.lean ====
section
/-! SUPPORT. What each shared operation can do, said once: the bus primitives and the delay by the input at hand, the running
command by its position, and the frame of `advance`, `run`, `exec` and `step`. -/

namespace Sys2Proof.Machine

/-! ### Bus primitives and the delay -/

theorem memWrite_unanswered {reg val : Byte} {f g : State → State} {s : State} (h : s.answers = []) :
    memWrite reg val f g s = s := by
  unfold memWrite; rw [h]

theorem memWrite_ok {reg val : Byte} {f g : State → State} {s : State} {d : BitVec 48} {rest : List BusAnswer}
    (h : s.answers = .ok d :: rest) :
    memWrite reg val f g s = f (logEvent (.write s.params.busAddr reg val .ok) { s with answers := rest }) := by
  unfold memWrite; rw [h]

theorem memWrite_err {reg val : Byte} {f g : State → State} {s : State} {rest : List BusAnswer}
    (h : s.answers = .busError :: rest) :
    memWrite reg val f g s = g (logEvent (.write s.params.busAddr reg val .err) { s with answers := rest }) := by
  unfold memWrite; rw [h]

theorem memRead_unanswered {f : BitVec 48 → State → State} {g : State → State} {s : State} (h : s.answers = []) :
    memRead f g s = s := by
  unfold memRead; rw [h]

theorem memRead_ok {f : BitVec 48 → State → State} {g : State → State} {s : State} {d : BitVec 48}
    {rest : List BusAnswer} (h : s.answers = .ok d :: rest) :
    memRead f g s =
      f d (logEvent (.read s.params.busAddr regXOut blockLen (.ok (blockBytes d))) { s with answers := rest }) := by
  unfold memRead; rw [h]

theorem memRead_err {f : BitVec 48 → State → State} {g : State → State} {s : State} {rest : List BusAnswer}
    (h : s.answers = .busError :: rest) :
    memRead f g s =
      g (logEvent (.read s.params.busAddr regXOut blockLen .err) { s with answers := rest }) := by
  unfold memRead; rw [h]

theorem endDelay_running {f : State → State} {s : State} (h : s.timerEnds = 0) : endDelay f s = s := by
  unfold endDelay; rw [h]

theorem endDelay_over {f : State → State} {s : State} {n : Nat} (h : s.timerEnds = n + 1) :
    endDelay f s = f { s with timerEnds := n } := by
  unfold endDelay; rw [h]

/-- What a write can do: nothing, or take an answer and go on in one of two ways. -/
theorem memWrite_elim {P : State → Prop} {reg val : Byte} {f g : State → State} {s : State} (stay : s.answers = [] → P s)
    (ok : ∀ d rest, s.answers = .ok d :: rest →
      P (f (logEvent (.write s.params.busAddr reg val .ok) { s with answers := rest })))
    (err : ∀ rest, s.answers = .busError :: rest →
      P (g (logEvent (.write s.params.busAddr reg val .err) { s with answers := rest }))) :
    P (memWrite reg val f g s) := by
  rcases h : s.answers with _ | ⟨_ | _, rest⟩
  · rw [memWrite_unanswered h]; exact stay h
  · rw [memWrite_ok h]; exact ok _ rest h
  · rw [memWrite_err h]; exact err rest h

/-- What a block read can do: nothing, or take an answer and go on in one of two ways. -/
theorem memRead_elim {P : State → Prop} {f : BitVec 48 → State → State} {g : State → State} {s : State}
    (stay : s.answers = [] → P s)
    (ok : ∀ d rest, s.answers = .ok d :: rest → P (f d (logEvent
      (.read s.params.busAddr regXOut blockLen (.ok (blockBytes d))) { s with answers := rest })))
    (err : ∀ rest, s.answers = .busError :: rest →
      P (g (logEvent (.read s.params.busAddr regXOut blockLen .err) { s with answers := rest }))) :
    P (memRead f g s) := by
  rcases h : s.answers with _ | ⟨_ | _, rest⟩
  · rw [memRead_unanswered h]; exact stay h
  · rw [memRead_ok h]; exact ok _ rest h
  · rw [memRead_err h]; exact err rest h

/-- What the end of a delay can do: nothing, or go on. -/
theorem endDelay_elim {P : State → Prop} {f : State → State} {s : State} (stay : s.timerEnds = 0 → P s)
    (ended : ∀ n, s.timerEnds = n + 1 → P (f { s with timerEnds := n })) : P (endDelay f s) := by
  rcases h : s.timerEnds with _ | n
  · rw [endDelay_running h]; exact stay h
  · rw [endDelay_over h]; exact ended n h

/-! ### The running command, position by position -/

theorem advance_idle {s : State} (h : s.job = .idle) : advance s = s := by unfold advance; rw [h]
theorem advance_initReset {s : State} (h : s.job = .initReset) : advance s = writeSoftReset s := by
  unfold advance; rw [h]
theorem advance_initSettle {s : State} (h : s.job = .initSettle) :
    advance s = endDelay (fun s => { s with job := .initControl1 (ctrl1Image s.cfg) }) s := by
  unfold advance; rw [h]
theorem advance_initControl1 {s : State} {b : Byte} (h : s.job = .initControl1 b) : advance s = writeControl1 b s := by
  unfold advance; rw [h]
theorem advance_initRollOver {s : State} (h : s.job = .initRollOver) : advance s = writeRollOver s := by
  unfold advance; rw [h]
theorem advance_rawRead {s : State} (h : s.job = .rawRead) : advance s = readRawSample s := by
  unfold advance; rw [h]
theorem advance_sample {s : State} {w : Want} (h : s.job = .sample w) : advance s = readSample w s := by
  unfold advance; rw [h]
theorem advance_gap {s : State} {w : Want} (h : s.job = .gap w) : advance s = endDelay (nextSample w) s := by
  unfold advance; rw [h]

theorem run_idle {s : State} (h : s.job = .idle) (n : Nat) : run n s = s := by
  induction n with
  | zero => rfl
  | succ n ih => rw [run, advance_idle h, ih]

theorem run_add (m n : Nat) (s : State) : run (m + n) s = run n (run m s) := by
  induction m generalizing s with
  | zero => rw [Nat.zero_add]; rfl
  | succ m ih => rw [Nat.succ_add]; exact ih (advance s)

/-- A command that waits for an input stays where it is. -/
theorem run_fixed {s : State} (h : advance s = s) (n : Nat) : run n s = s := by
  induction n with
  | zero => rfl
  | succ n ih => rw [run, h, ih]

/-- `run` keeps whatever `advance` keeps. -/
theorem run_induct {P : State → Prop} (hstep : ∀ s, P s → P (advance s)) {s : State} (h : P s) (n : Nat) :
    P (run n s) := by
  induction n generalizing s with
  | zero => exact h
  | succ n ih => exact ih (hstep s h)

/-! ### Frames -/

/-- Everything one event of the running command can do, by its position and its input. -/
theorem advance_elim {P : State → Prop} (s : State) (stay : P s)
    (softResetOk : ∀ d rest, s.job = .initReset → s.answers = .ok d :: rest → P (beginDelay tSettle .initSettle
      (logEvent (.write s.params.busAddr regControl2 softResetByte .ok) { s with answers := rest })))
    (softResetErr : ∀ rest, s.job = .initReset → s.answers = .busError :: rest → P (initFail
      (logEvent (.write s.params.busAddr regControl2 softResetByte .err) { s with answers := rest })))
    (settled : ∀ n, s.job = .initSettle → s.timerEnds = n + 1 →
      P { s with timerEnds := n, job := .initControl1 (ctrl1Image s.cfg) })
    (control1Ok : ∀ b d rest, s.job = .initControl1 b → s.answers = .ok d :: rest →
      P { logEvent (.write s.params.busAddr regControl1 b .ok) { s with answers := rest } with job := .initRollOver })
    (control1Err : ∀ b rest, s.job = .initControl1 b → s.answers = .busError :: rest → P (initFail
      (logEvent (.write s.params.busAddr regControl1 b .err) { s with answers := rest })))
    (rollOverOk : ∀ d rest, s.job = .initRollOver → s.answers = .ok d :: rest → P (completeOk 0
      { logEvent (.write s.params.busAddr regControl2 rollOverByte .ok) { s with answers := rest } with phase := .ready }))
    (rollOverErr : ∀ rest, s.job = .initRollOver → s.answers = .busError :: rest → P (initFail
      (logEvent (.write s.params.busAddr regControl2 rollOverByte .err) { s with answers := rest })))
    (rawOk : ∀ d rest, s.job = .rawRead → s.answers = .ok d :: rest → P (completeOk
      (rawPayload (axisPattern s.params.sampleByteOrder d 0) (axisPattern s.params.sampleByteOrder d 1)
        (axisPattern s.params.sampleByteOrder d 2))
      (latchRaw d (logEvent (.read s.params.busAddr regXOut blockLen (.ok (blockBytes d))) { s with answers := rest }))))
    (rawErr : ∀ rest, s.job = .rawRead → s.answers = .busError :: rest → P (acquireFail
      (logEvent (.read s.params.busAddr regXOut blockLen .err) { s with answers := rest })))
    (sampleOk : ∀ w d rest, s.job = .sample w → s.answers = .ok d :: rest → P (beginDelay tGap (.gap w)
      (addSample (latchRaw d
        (logEvent (.read s.params.busAddr regXOut blockLen (.ok (blockBytes d))) { s with answers := rest })))))
    (sampleErr : ∀ w rest, s.job = .sample w → s.answers = .busError :: rest → P (acquireFail
      (logEvent (.read s.params.busAddr regXOut blockLen .err) { s with answers := rest })))
    (again : ∀ w n, s.job = .gap w → s.timerEnds = n + 1 → s.cnt.toNat < nSamples →
      P { s with timerEnds := n, job := .sample w })
    (finish : ∀ w n, s.job = .gap w → s.timerEnds = n + 1 → ¬ s.cnt.toNat < nSamples →
      P (finishFiltered w { s with timerEnds := n })) :
    P (advance s) := by
  cases hj : s.job with
  | idle => rw [advance_idle hj]; exact stay
  | initReset =>
    rw [advance_initReset hj]
    exact memWrite_elim (fun _ => stay) (fun d r h => softResetOk d r hj h) (fun r h => softResetErr r hj h)
  | initSettle =>
    rw [advance_initSettle hj]
    exact endDelay_elim (fun _ => stay) (fun n h => settled n hj h)
  | initControl1 b =>
    rw [advance_initControl1 hj]
    exact memWrite_elim (fun _ => stay) (fun d r h => control1Ok b d r hj h) (fun r h => control1Err b r hj h)
  | initRollOver =>
    rw [advance_initRollOver hj]
    exact memWrite_elim (fun _ => stay) (fun d r h => rollOverOk d r hj h) (fun r h => rollOverErr r hj h)
  | rawRead =>
    rw [advance_rawRead hj]
    exact memRead_elim (fun _ => stay) (fun d r h => rawOk d r hj h) (fun r h => rawErr r hj h)
  | sample w =>
    rw [advance_sample hj]
    exact memRead_elim (fun _ => stay) (fun d r h => sampleOk w d r hj h) (fun r h => sampleErr w r hj h)
  | gap w =>
    rw [advance_gap hj]
    refine endDelay_elim (fun _ => stay) (fun n h => ?_)
    by_cases hc : s.cnt.toNat < nSamples
    · rw [nextSample, if_pos hc]; exact again w n hj h hc
    · rw [nextSample, if_neg hc]; exact finish w n hj h hc

/-- One event changes no parameter, no configuration, no `HALT` and no command or reset input. -/
theorem advance_frame (s : State) :
    (advance s).params = s.params ∧ (advance s).cfg = s.cfg ∧ (advance s).halt = s.halt ∧ (advance s).cmds = s.cmds ∧
      (advance s).rst = s.rst := by
  apply advance_elim (P := fun t => t.params = s.params ∧ t.cfg = s.cfg ∧ t.halt = s.halt ∧ t.cmds = s.cmds ∧ t.rst = s.rst)
  case finish => intro w n _ _ _; cases w <;> simp [finishFiltered]
  all_goals intros; simp

theorem run_frame (n : Nat) (s : State) :
    (run n s).params = s.params ∧ (run n s).cfg = s.cfg ∧ (run n s).halt = s.halt ∧ (run n s).cmds = s.cmds ∧
      (run n s).rst = s.rst := by
  induction n generalizing s with
  | zero => simp [run]
  | succ n ih =>
    obtain ⟨a, b, c, d, e⟩ := ih (advance s)
    obtain ⟨a', b', c', d', e'⟩ := advance_frame s
    exact ⟨a.trans a', b.trans b', c.trans c', d.trans d', e.trans e'⟩

@[simp] theorem runCommand_params (s : State) : (runCommand s).params = s.params := (run_frame _ s).1
@[simp] theorem runCommand_cfg (s : State) : (runCommand s).cfg = s.cfg := (run_frame _ s).2.1
@[simp] theorem runCommand_halt (s : State) : (runCommand s).halt = s.halt := (run_frame _ s).2.2.1
@[simp] theorem runCommand_cmds (s : State) : (runCommand s).cmds = s.cmds := (run_frame _ s).2.2.2.1
@[simp] theorem runCommand_rst (s : State) : (runCommand s).rst = s.rst := (run_frame _ s).2.2.2.2

/-- What the configuration setters can do. -/
theorem setOption_cases (o : Opt) (v : Half) (s : State) :
    (s.halt = true ∧ setOption o v s = respond .halted 0 s) ∨
    (s.halt = false ∧ s.phase ≠ .uninitialized ∧ setOption o v s = respond .seqError 0 s) ∨
    (∃ c, s.halt = false ∧ s.phase = .uninitialized ∧ codeIn (optTable o) v = some c ∧
      setOption o v s = respond .ok 0 { s with cfg := s.cfg.setField o c }) ∨
    (s.halt = false ∧ s.phase = .uninitialized ∧ codeIn (optTable o) v = none ∧
      setOption o v s = respond .invalidConfiguration (legalPayload (legalList o)) (failFast s)) := by
  unfold setOption validate
  cases hh : s.halt
  · by_cases hp : s.phase = .uninitialized
    · cases hc : codeIn (optTable o) v <;> simp [hp]
    · simp [hp]
  · simp

/-- What an acquisition command can do before its first transaction. -/
theorem acquire_cases (ill : Bool) (f : State → State) (s : State) :
    (s.halt = true ∧ acquire ill f s = respond .halted 0 s) ∨
    (s.halt = false ∧ ill = true ∧ acquire ill f s = respond .illegalCmd 0 s) ∨
    (s.halt = false ∧ ill = false ∧ notReady s = true ∧ acquire ill f s = respond .notReady 0 s) ∨
    (s.halt = false ∧ ill = false ∧ notReady s = false ∧ acquire ill f s = runCommand (f s)) := by
  unfold acquire
  cases s.halt <;> cases ill <;> cases notReady s <;> simp

/-- What `INIT` can do before its first transaction. -/
theorem initialise_cases (arg : Half) (s : State) :
    (s.halt = true ∧ initialise arg s = respond .halted 0 s) ∨
    (s.halt = false ∧ arg ≠ 0#16 ∧ initialise arg s = respond .illegalCmd 0 s) ∨
    (s.halt = false ∧ arg = 0#16 ∧ s.phase ≠ .uninitialized ∧ initialise arg s = respond .seqError 0 s) ∨
    (s.halt = false ∧ arg = 0#16 ∧ s.phase = .uninitialized ∧
      initialise arg s = runCommand (enterInit .initReset s)) := by
  unfold initialise
  cases s.halt <;> by_cases ha : arg = 0#16 <;> by_cases hp : s.phase = .uninitialized <;> simp [ha, hp]

/-- What `ENC` can do. -/
theorem encodeCfg_cases (arg : Half) (s : State) :
    (s.halt = true ∧ encodeCfg arg s = respond .halted 0 s) ∨
    (s.halt = false ∧ arg ≠ 0#16 ∧ encodeCfg arg s = respond .illegalCmd 0 s) ∨
    (s.halt = false ∧ arg = 0#16 ∧ encodeCfg arg s = respond .ok (ctrl1Image s.cfg).toNat s) := by
  unfold encodeCfg
  cases s.halt <;> by_cases ha : arg = 0#16 <;> simp [ha]

/-- `DEC` only answers. -/
theorem decodeOperand_responds (b : Half) (s : State) :
    ∃ st data, (st = .halted ∨ st = .reservedEncoding ∨ st = .ok) ∧ decodeOperand b s = respond st data s := by
  unfold decodeOperand
  split
  · exact ⟨_, _, .inl rfl, rfl⟩
  · split
    · exact ⟨_, _, .inr (.inl rfl), rfl⟩
    · split
      · exact ⟨_, _, .inr (.inl rfl), rfl⟩
      · exact ⟨_, _, .inr (.inr rfl), rfl⟩

/-- An illegal word only answers. -/
theorem illegalWord_responds (s : State) :
    ∃ st, (st = .halted ∨ st = .illegalCmd) ∧ illegalWord s = respond st 0 s := by
  unfold illegalWord
  split
  · exact ⟨_, .inl rfl, rfl⟩
  · exact ⟨_, .inr rfl, rfl⟩

/-! ### Every step ends in a next state -/

theorem exec_next (i : Instr) (s : State) : ∃ t, exec i s = .next t := by
  cases i <;> exact ⟨_, rfl⟩

theorem acceptable_some {s s' : State} {w : CmdWord} (h : acceptable s = some (w, s')) :
    s.busy = false ∧ ∃ rest, s.cmds = w :: rest ∧ s' = { s with cmds := rest } := by
  unfold acceptable at h
  cases hb : s.busy
  · rcases hc : s.cmds with _ | ⟨c, rest⟩
    · simp [hb, hc] at h
    · simp only [hb, hc, Bool.false_eq_true, if_false, Option.some.injEq, Prod.mk.injEq] at h
      exact ⟨rfl, rest, by rw [h.1], h.2.symm⟩
  · simp [hb] at h

theorem acceptable_none {s : State} (h : acceptable s = none) : s.busy = true ∨ s.cmds = [] := by
  unfold acceptable at h
  cases hb : s.busy
  · rcases hc : s.cmds with _ | ⟨c, rest⟩
    · exact .inr rfl
    · simp [hb, hc] at h
  · exact .inl rfl

/-- What a step can do: reset, execute the accepted command, or let the running one go on. -/
theorem step_cases {s t : State} (h : step s = .next t) :
    (s.rst = true ∧ t = resetBlock s) ∨
    (s.rst = false ∧ s.busy = false ∧
      ∃ w rest, s.cmds = w :: rest ∧ exec (decodeCommand w) { s with cmds := rest } = .next t) ∨
    (s.rst = false ∧ (s.busy = true ∨ s.cmds = []) ∧ t = advance s) := by
  unfold step at h
  by_cases hr : s.rst = true
  · rw [if_pos hr] at h
    injection h with h
    exact .inl ⟨hr, h.symm⟩
  · rw [if_neg hr] at h
    rw [Bool.not_eq_true] at hr
    split at h
    · rename_i w s' ha
      obtain ⟨hb, rest, hc, rfl⟩ := acceptable_some ha
      exact .inr (.inl ⟨hr, hb, w, rest, hc, h⟩)
    · rename_i ha
      injection h with h
      exact .inr (.inr ⟨hr, acceptable_none ha, h.symm⟩)

theorem step_next (s : State) : ∃ t, step s = .next t := by
  unfold step
  split
  · exact ⟨_, rfl⟩
  · split
    · exact exec_next _ _
    · exact ⟨_, rfl⟩

end Sys2Proof.Machine
end

