-- ==== Sys2Proof/Laws/Exec.lean ====
section
/-! SUPPORT. What executing a command word can do, said once: a refusal, a setting, an immediate answer, or a command that
runs on the bus. -/

namespace Sys2Proof.Machine

/-- The setter of an option, as an instruction. -/
def Opt.setter : Opt → Half → Instr
  | .odr => .setodr
  | .rng => .setrng
  | .osr => .setosr
  | .mode => .setmode

/-- The statuses of a refusal with an all-zero payload. -/
def refusals : List Status := [.halted, .seqError, .illegalCmd, .notReady, .reservedEncoding]

/-- The ways in which executing a command word can end; `P` holds after all of them if it holds after each. -/
theorem exec_command_elim {P : State → Prop} {w : CmdWord} {s t : State} (h : exec (decodeCommand w) s = .next t)
    (refusal : ∀ st, st ∈ refusals → st = .halted ∨ s.halt = false → P (respond st 0 (accept s)))
    (setting : ∀ o v c, decodeCommand w = Opt.setter o v → s.halt = false → s.phase = .uninitialized →
      codeIn (optTable o) v = some c → P (respond .ok 0 { accept s with cfg := s.cfg.setField o c }))
    (illegalSetting : ∀ o v, decodeCommand w = Opt.setter o v → s.halt = false → s.phase = .uninitialized →
      codeIn (optTable o) v = none →
      P (respond .invalidConfiguration (legalPayload (legalList o)) (failFast (accept s))))
    (answer : ∀ data, data < 2 ^ 64 → s.halt = false → P (respond .ok data (accept s)))
    (init : decodeCommand w = .init 0#16 → s.halt = false → s.phase = .uninitialized →
      P (runCommand (enterInit .initReset (accept s))))
    (raw : decodeCommand w = .rdraw 0#16 → s.halt = false → notReady s = false →
      P (runCommand { accept s with job := .rawRead }))
    (gauss : decodeCommand w = .read 0#16 → s.halt = false → notReady s = false →
      P (runCommand (beginFiltered .gauss (accept s))))
    (heading : decodeCommand w = .head 0#16 → s.halt = false → notReady s = false → s.params.hasHeading = true →
      P (runCommand (beginFiltered .heading (accept s)))) : P t := by
  have hset : ∀ o v, decodeCommand w = Opt.setter o v → P (setOption o v (accept s)) := by
    intro o v hi
    rcases setOption_cases o v (accept s) with ⟨_, e⟩ | ⟨hh, _, e⟩ | ⟨c, hh, hp, hc, e⟩ | ⟨hh, hp, hc, e⟩ <;> rw [e]
    · exact refusal _ (by decide) (.inl rfl)
    · exact refusal _ (by decide) (.inr hh)
    · exact setting o v c hi hh hp hc
    · exact illegalSetting o v hi hh hp hc
  have hacq : ∀ ill f, (ill = false → s.halt = false → notReady s = false → P (runCommand (f (accept s)))) →
      P (acquire ill f (accept s)) := by
    intro ill f go
    rcases acquire_cases ill f (accept s) with ⟨_, e⟩ | ⟨hh, _, e⟩ | ⟨hh, _, _, e⟩ | ⟨hh, hi, hn, e⟩ <;> rw [e]
    · exact refusal _ (by decide) (.inl rfl)
    · exact refusal _ (by decide) (.inr hh)
    · exact refusal _ (by decide) (.inr hh)
    · exact go hi hh hn
  have hill : P (illegalWord (accept s)) := by
    unfold illegalWord
    split
    · exact refusal _ (by decide) (.inl rfl)
    · rename_i hh; exact refusal _ (by decide) (.inr (by simpa using hh))
  cases hi : decodeCommand w <;> rw [hi] at h <;>
    simp only [exec, execSetodr, execSetrng, execSetosr, execSetmode, execInit, execRdraw, execRead, execHead, execEnc,
      execDec, execReservedAB, execReservedCF, Host.Outcome.next.injEq] at h
  case setodr v => exact h ▸ hset .odr v hi
  case setrng v => exact h ▸ hset .rng v hi
  case setosr v => exact h ▸ hset .osr v hi
  case setmode v => exact h ▸ hset .mode v hi
  case init arg =>
    subst h
    rcases initialise_cases arg (accept s) with ⟨_, e⟩ | ⟨hh, _, e⟩ | ⟨hh, _, _, e⟩ | ⟨hh, ha, hp, e⟩ <;> rw [e]
    · exact refusal _ (by decide) (.inl rfl)
    · exact refusal _ (by decide) (.inr hh)
    · exact refusal _ (by decide) (.inr hh)
    · exact init (ha ▸ hi) hh hp
  case rdraw arg =>
    subst h
    exact hacq _ _ fun hl hh hn => raw (by simp at hl; exact hl ▸ hi) hh hn
  case read arg =>
    subst h
    exact hacq _ _ fun hl hh hn => gauss (by simp at hl; exact hl ▸ hi) hh hn
  case head arg =>
    subst h
    exact hacq _ _ fun hl hh hn => by
      simp at hl; exact heading (hl.1 ▸ hi) hh hn hl.2
  case enc arg =>
    subst h
    rcases encodeCfg_cases arg (accept s) with ⟨_, e⟩ | ⟨hh, _, e⟩ | ⟨hh, _, e⟩ <;> rw [e]
    · exact refusal _ (by decide) (.inl rfl)
    · exact refusal _ (by decide) (.inr hh)
    · exact answer _ (lt_trans (BitVec.isLt _) (by decide)) hh
  case dec b =>
    subst h
    unfold decodeOperand
    split
    · exact refusal _ (by decide) (.inl rfl)
    · rename_i hh
      have hh : s.halt = false := by simpa using hh
      split
      · exact refusal _ (by decide) (.inr hh)
      · split
        · exact refusal _ (by decide) (.inr hh)
        · rename_i m o r v _
          refine answer _ ?_ hh
          have := m.isLt; have := o.isLt; have := r.isLt; have := v.isLt
          simp only [decPayload, packHalves]; omega
  case reservedAB low => exact h ▸ hill
  case reservedCF low => exact h ▸ hill
  all_goals
    revert hi
    unfold decodeCommand
    split <;> simp

end Sys2Proof.Machine
end

