-- ==== Sys2Proof/Laws/Filtered.lean ====
section
/-! SUPPORT. `FilteredAcc()` over a run of answers (42_acquisition.md R105): one read and its delay, then any number of
them. -/

namespace Sys2Proof.Machine

/-- The events of a successful block read and the delay after it. -/
def sampleEvents (p : Params) (rdata : BitVec 48) : List Event :=
  [.read p.busAddr regXOut blockLen (.ok (blockBytes rdata)), .delay tGap]

/-- The accumulator of an axis after the blocks `ds`, from `acc`. -/
def accAfter (p : Params) (axis : Nat) (acc : Int) (ds : List (BitVec 48)) : Int :=
  ds.foldl (fun a d => accumulate p.accW a (axisPattern p.sampleByteOrder d axis)) acc

/-- One read that succeeds and the delay after it. -/
theorem run_pair {s : State} {want : Want} {d : BitVec 48} {rest : List BusAnswer} {n : Nat} (hj : s.job = .sample want)
    (ha : s.answers = .ok d :: rest) (ht : s.timerEnds = n + 1) :
    run 2 s = nextSample want { s with
      job := .gap want
      answers := rest
      timerEnds := n
      rawX := axisPattern s.params.sampleByteOrder d 0
      rawY := axisPattern s.params.sampleByteOrder d 1
      rawZ := axisPattern s.params.sampleByteOrder d 2
      accX := accumulate s.params.accW s.accX (axisPattern s.params.sampleByteOrder d 0)
      accY := accumulate s.params.accW s.accY (axisPattern s.params.sampleByteOrder d 1)
      accZ := accumulate s.params.accW s.accZ (axisPattern s.params.sampleByteOrder d 2)
      cnt := s.cnt + 1#4
      history := s.history ++ sampleEvents s.params d } := by
  show advance (advance s) = _
  rw [advance_sample hj, readSample, memRead_ok ha]
  rw [advance_gap (w := want) rfl,
    endDelay_over (n := n) (by simpa [beginDelay, logEvent, addSample, latchRaw] using ht)]
  simp [beginDelay, logEvent, addSample, latchRaw, sampleEvents]

/-- The reads of `ds` and their delays, while fewer than ten samples are in. -/
theorem run_samples (want : Want) (rest : List BusAnswer) (n : Nat) (ds : List (BitVec 48)) :
    ∀ s : State, s.job = .sample want → s.answers = ds.map .ok ++ rest → s.timerEnds = n + ds.length →
      s.cnt.toNat + ds.length < 10 → ∃ rx ry rz, run (2 * ds.length) s = { s with
        answers := rest
        timerEnds := n
        rawX := rx
        rawY := ry
        rawZ := rz
        cnt := s.cnt + BitVec.ofNat 4 ds.length
        accX := accAfter s.params 0 s.accX ds
        accY := accAfter s.params 1 s.accY ds
        accZ := accAfter s.params 2 s.accZ ds
        history := s.history ++ ds.flatMap (sampleEvents s.params) } := by
  induction ds with
  | nil =>
    intro s _ ha ht _
    simp at ha ht
    subst ha ht
    exact ⟨s.rawX, s.rawY, s.rawZ, by simp [run, accAfter]⟩
  | cons d ds ih =>
    intro s hj ha ht hc
    rw [List.length_cons] at *
    have hc1 : (s.cnt + 1#4).toNat = s.cnt.toNat + 1 := by
      rw [BitVec.toNat_add]; simp; omega
    have e : s.cnt + 1#4 + BitVec.ofNat 4 ds.length = s.cnt + BitVec.ofNat 4 (ds.length + 1) := by
      rw [BitVec.ofNat_add, BitVec.add_assoc, BitVec.add_comm (BitVec.ofNat 4 ds.length)]
    rw [show 2 * (ds.length + 1) = 2 + 2 * ds.length by omega, run_add,
      run_pair (n := n + ds.length) hj (by simpa using ha) (by omega), nextSample,
      if_pos (by simp only [hc1, nSamples]; omega)]
    obtain ⟨rx, ry, rz, h⟩ := ih { s with
      job := .sample want
      answers := ds.map .ok ++ rest
      timerEnds := n + ds.length
      rawX := axisPattern s.params.sampleByteOrder d 0
      rawY := axisPattern s.params.sampleByteOrder d 1
      rawZ := axisPattern s.params.sampleByteOrder d 2
      accX := accumulate s.params.accW s.accX (axisPattern s.params.sampleByteOrder d 0)
      accY := accumulate s.params.accW s.accY (axisPattern s.params.sampleByteOrder d 1)
      accZ := accumulate s.params.accW s.accZ (axisPattern s.params.sampleByteOrder d 2)
      cnt := s.cnt + 1#4
      history := s.history ++ sampleEvents s.params d } rfl rfl rfl (by simp only [hc1]; omega)
    refine ⟨rx, ry, rz, h.trans ?_⟩
    simp only [e, accAfter, List.foldl_cons, hj, List.append_assoc, List.flatMap_cons]

end Sys2Proof.Machine
end

