-- ==== Sys2Proof/Laws/Heading.lean ====
section
/-! SUPPORT. What the exact angle arithmetic of Machine/Heading.lean computes: counted half turns are the whole part of a
multiple of the angle, and the comparisons are those of the reals. -/

namespace Sys2Proof.Machine

/-- `t` stands for the angle `A`, in radians. -/
def Turn.Is (t : Turn) (A : ℝ) : Prop :=
  ∃ r B : ℝ, 0 < r ∧ 0 ≤ B ∧ B < Real.pi ∧ (t.re : ℝ) = r * Real.cos B ∧ (t.im : ℝ) = r * Real.sin B ∧
    A = t.halves * Real.pi + B

theorem turnOf_is {n : Nat} {re im : Int} {r B : ℝ} (hr : 0 < r) (h0 : 0 ≤ B) (h1 : B < 2 * Real.pi)
    (hre : (re : ℝ) = r * Real.cos B) (him : (im : ℝ) = r * Real.sin B) :
    (turnOf n re im).Is (n * Real.pi + B) := by
  unfold turnOf
  split
  · rename_i h
    refine ⟨r, B, hr, h0, ?_, hre, him, rfl⟩
    by_contra hB
    have hs : Real.sin (B - Real.pi) = -Real.sin B := Real.sin_sub_pi B
    have hc : Real.cos (B - Real.pi) = -Real.cos B := Real.cos_sub_pi B
    rcases h with h | ⟨hz, hp⟩
    · have h' : (0 : ℝ) < im := by exact_mod_cast h
      have hpos : 0 < Real.sin B := by
        rw [him] at h'; exact pos_of_mul_pos_right h' hr.le
      have := Real.sin_nonneg_of_nonneg_of_le_pi (x := B - Real.pi) (by linarith) (by linarith)
      linarith
    · have h' : (0 : ℝ) < re := by exact_mod_cast hp
      have hcos : 0 < Real.cos B := by
        rw [hre] at h'; exact pos_of_mul_pos_right h' hr.le
      have hsin : Real.sin B = 0 := by
        have : r * Real.sin B = 0 := by rw [← him, hz]; simp
        exact (mul_eq_zero.mp this).resolve_left hr.ne'
      have hzero : B - Real.pi = 0 := by
        by_contra hne
        have hlt : 0 < B - Real.pi := lt_of_le_of_ne (by linarith) (Ne.symm hne)
        have := Real.sin_pos_of_pos_of_lt_pi hlt (by linarith)
        linarith
      rw [hzero, Real.cos_zero] at hc
      linarith
  · rename_i h
    push Not at h
    have hB : Real.pi ≤ B := by
      by_contra hB
      have hB : B < Real.pi := not_le.mp hB
      have him' : (im : ℝ) ≤ 0 := by exact_mod_cast h.1
      have hs0 := Real.sin_nonneg_of_nonneg_of_le_pi h0 hB.le
      have hz : Real.sin B = 0 := by
        rw [him] at him'
        exact le_antisymm (nonpos_of_mul_nonpos_right him' hr) hs0
      have hB0 : B = 0 := by
        by_contra hne
        have := Real.sin_pos_of_pos_of_lt_pi (lt_of_le_of_ne h0 (Ne.symm hne)) hB
        linarith
      rw [hz, mul_zero] at him
      have hre' := h.2 (by exact_mod_cast him)
      have : (re : ℝ) ≤ 0 := by exact_mod_cast hre'
      rw [hre, hB0, Real.cos_zero] at this
      linarith
    refine ⟨r, B - Real.pi, hr, by linarith, by linarith, ?_, ?_, ?_⟩
    · push_cast; rw [hre, Real.cos_sub_pi]; ring
    · push_cast; rw [him, Real.sin_sub_pi]; ring
    · push_cast; ring

theorem turnAdd_is {a b : Turn} {A B : ℝ} (ha : a.Is A) (hb : b.Is B) : (turnAdd a b).Is (A + B) := by
  obtain ⟨r, C, hr, hC0, hC1, hre, him, rfl⟩ := ha
  obtain ⟨q, D, hq, hD0, hD1, hre', him', rfl⟩ := hb
  have := turnOf_is (n := a.halves + b.halves) (re := a.re * b.re - a.im * b.im) (im := a.re * b.im + a.im * b.re)
    (mul_pos hr hq) (B := C + D) (by linarith) (by linarith)
    (by push_cast; rw [hre, him, hre', him', Real.cos_add]; ring)
    (by push_cast; rw [hre, him, hre', him', Real.sin_add]; ring)
  unfold turnAdd
  convert this using 1
  push_cast; ring

theorem turnTimes_is {a : Turn} {A : ℝ} (ha : a.Is A) {bits n : Nat} (hn : n < 2 ^ bits) :
    (turnTimes a bits n).Is (n * A) := by
  induction bits generalizing n with
  | zero =>
    obtain rfl : n = 0 := by simpa using hn
    exact ⟨1, 0, one_pos, le_refl _, Real.pi_pos, by simp [turnTimes], by simp [turnTimes], by simp [turnTimes]⟩
  | succ bits ih =>
    have h := ih (n := n / 2) (by rw [pow_succ] at hn; omega)
    have h2 := turnAdd_is h h
    unfold turnTimes
    simp only
    split
    · rename_i hodd
      have e : (n : ℝ) = ((n / 2 : Nat) : ℝ) * 2 + 1 := by exact_mod_cast (by omega : n = n / 2 * 2 + 1)
      convert turnAdd_is h2 ha using 1
      rw [e]; ring
    · rename_i heven
      have e : (n : ℝ) = ((n / 2 : Nat) : ℝ) * 2 := by exact_mod_cast (by omega : n = n / 2 * 2)
      convert h2 using 1
      rw [e]; ring

theorem IsHeadExact.turn {y x : Int} {t : ℝ} (h : IsHeadExact y x t) : (turnOf 0 x y).Is (t * Real.pi / 180) := by
  obtain ⟨A, r, h0, h1, hr, hx, hy, ⟨hA, rfl⟩ | ⟨hA, rfl⟩⟩ := h
  · convert turnOf_is (n := 0) hr hA (by linarith [Real.pi_pos]) hx hy using 1
    have := Real.pi_pos.ne'
    field_simp; simp
  · convert turnOf_is (n := 0) hr (B := A + 2 * Real.pi) (by linarith) (by linarith)
      (by rw [Real.cos_add_two_pi]; exact hx) (by rw [Real.sin_add_two_pi]; exact hy) using 1
    have := Real.pi_pos.ne'
    field_simp; push_cast; ring

theorem headTimes_is {y x : Int} {t : ℝ} (h : IsHeadExact y x t) (n : Nat) :
    (headTimes y x n).Is (n * (t * Real.pi / 180)) :=
  turnTimes_is h.turn Nat.lt_log2_self

/-- The half turns of `180 m` times the angle are the whole part of `m` times the degrees; no rest is left exactly where
that is an integer. -/
theorem headTimes_degrees {y x : Int} {t : ℝ} (h : IsHeadExact y x t) (m : Nat) :
    ((headTimes y x (180 * m)).halves : ℝ) ≤ m * t ∧ m * t < (headTimes y x (180 * m)).halves + 1 ∧
      ((headTimes y x (180 * m)).im = 0 ↔ m * t = (headTimes y x (180 * m)).halves) := by
  obtain ⟨r, B, hr, hB0, hB1, hre, him, e⟩ := headTimes_is h (180 * m)
  have hpi := Real.pi_pos
  have e' : m * t = (headTimes y x (180 * m)).halves + B / Real.pi := by
    push_cast at e
    field_simp
    linear_combination e
  have hq0 : 0 ≤ B / Real.pi := by positivity
  have hq1 : B / Real.pi < 1 := by rw [div_lt_one hpi]; exact hB1
  refine ⟨by linarith, by linarith, ?_⟩
  rw [e', add_eq_left, div_eq_zero_iff, or_iff_left hpi.ne']
  constructor
  · intro hz
    rw [hz] at him
    have hs : Real.sin B = 0 := (mul_eq_zero.mp (by simpa using him.symm)).resolve_left hr.ne'
    by_contra hne
    have := Real.sin_pos_of_pos_of_lt_pi (lt_of_le_of_ne hB0 (Ne.symm hne)) hB1
    linarith
  · rintro rfl
    rw [Real.sin_zero, mul_zero] at him
    exact_mod_cast him

theorem rat_le_iff (q : Rat) (t : ℝ) : (t ≤ q ↔ q.den * t ≤ q.num) ∧ ((q : ℝ) ≤ t ↔ (q.num : ℝ) ≤ q.den * t) := by
  have hd : (0 : ℝ) < q.den := by exact_mod_cast q.pos
  rw [Rat.cast_def, le_div_iff₀ hd, div_le_iff₀ hd, mul_comm t]
  exact ⟨Iff.rfl, Iff.rfl⟩

theorem headGe_iff {y x : Int} {t : ℝ} (h : IsHeadExact y x t) (q : Rat) : headGe y x q = true ↔ (q : ℝ) ≤ t := by
  obtain ⟨h0, h1, -⟩ := headTimes_degrees h q.den
  rw [(rat_le_iff q t).2, headGe, decide_eq_true_iff]
  constructor
  · intro hq
    have : (q.num : ℝ) ≤ (headTimes y x (180 * q.den)).halves := by exact_mod_cast hq
    linarith
  · intro hq
    have : (q.num : ℝ) < (headTimes y x (180 * q.den)).halves + 1 := by linarith
    have : q.num < (headTimes y x (180 * q.den)).halves + 1 := by exact_mod_cast this
    omega

theorem headLe_iff {y x : Int} {t : ℝ} (h : IsHeadExact y x t) (q : Rat) : headLe y x q = true ↔ t ≤ q := by
  obtain ⟨h0, h1, hz⟩ := headTimes_degrees h q.den
  rw [(rat_le_iff q t).1, headLe]
  simp only [Bool.or_eq_true, Bool.and_eq_true, decide_eq_true_iff]
  rw [hz]
  constructor
  · rintro (hq | ⟨hq, e⟩)
    · have hq' : ((headTimes y x (180 * q.den)).halves : Int) + 1 ≤ q.num := hq
      have : ((headTimes y x (180 * q.den)).halves : ℝ) + 1 ≤ q.num := by exact_mod_cast hq'
      linarith
    · have : ((headTimes y x (180 * q.den)).halves : ℝ) = q.num := by exact_mod_cast hq
      linarith
  · intro hq
    have hle : ((headTimes y x (180 * q.den)).halves : ℝ) ≤ q.num := by linarith
    have hle' : ((headTimes y x (180 * q.den)).halves : Int) ≤ q.num := by exact_mod_cast hle
    rcases lt_or_eq_of_le hle' with hlt | heq
    · exact .inl hlt
    · have : ((headTimes y x (180 * q.den)).halves : ℝ) = q.num := by exact_mod_cast heq
      exact .inr ⟨heq, by linarith⟩

/-- The test of a code is the circular bound on the reals. -/
theorem meetsHeadEps_iff (p : Params) {y x : Int} {t : ℝ} (h : IsHeadExact y x t) (c : Nat) :
    meetsHeadEps p y x c = true ↔ CDistLe ((c : ℝ) / 2 ^ p.headFrac) t ((p.headEpsNum : ℝ) / p.headEpsDen) := by
  unfold meetsHeadEps CDistLe
  simp only [Bool.or_eq_true, Bool.and_eq_true, headGe_iff h, headLe_iff h, codeDeg, headEps]
  push_cast
  rw [abs_le, sub_le_comm (a := (360 : ℝ)), le_abs]
  constructor
  · rintro ((⟨h1, h2⟩ | h1) | h1)
    · exact .inl ⟨by linarith, by linarith⟩
    · exact .inr (.inl (by linarith))
    · exact .inr (.inr (by linarith))
  · rintro (⟨h1, h2⟩ | h1 | h1)
    · exact .inl (.inl ⟨by linarith, by linarith⟩)
    · exact .inl (.inr (by linarith))
    · exact .inr (by linarith)

end Sys2Proof.Machine
end

