-- ==== Sys2Proof/Laws/Numeric.lean ====
section
/-! SUPPORT. The arithmetic of Machine/Operands.lean: wrapping, summing, rounding and payload patterns. -/

namespace Sys2Proof.Machine

/-- A value that fits is not changed by wrapping. -/
theorem wrapTc_of_fits {w : Nat} (hw : 0 < w) {i : Int} (h : FitsTc w i) : wrapTc w i = i := by
  obtain ⟨k, rfl⟩ : ∃ k, w = k + 1 := ⟨w - 1, by omega⟩
  unfold FitsTc at h
  unfold wrapTc
  rw [Int.bmod_eq_of_le_mul_two] <;> push_cast at * <;> omega

/-- A wrapped value fits. -/
theorem fits_wrapTc {w : Nat} (hw : 0 < w) (i : Int) : FitsTc w (wrapTc w i) := by
  obtain ⟨k, rfl⟩ : ∃ k, w = k + 1 := ⟨w - 1, by omega⟩
  have h0 : 0 < 2 ^ (k + 1) := by positivity
  have h1 := Int.le_bmod (x := i) (m := 2 ^ (k + 1)) h0
  have h2 := Int.bmod_lt (x := i) (m := 2 ^ (k + 1)) h0
  have e : (2 : Int) ^ (k + 1) = 2 * 2 ^ k := by ring
  unfold FitsTc wrapTc
  push_cast at *
  omega

theorem half_toInt_bounds (h : Half) : -32768 ≤ h.toInt ∧ h.toInt ≤ 32767 := by
  have := h.toInt_lt
  have := h.le_toInt
  omega

/-- A sum of up to ten samples fits in 20 bits and more (42_acquisition.md R112). -/
theorem SumOf.fits {n w : Nat} {acc : Int} (h : SumOf n acc) (hn : n ≤ 10) (hw : 20 ≤ w) : FitsTc w acc := by
  have : 2 ^ 20 ≤ 2 ^ w := Nat.pow_le_pow_right (by decide) hw
  unfold SumOf at h
  unfold FitsTc
  omega

/-- Adding one more of ten samples neither wraps nor leaves the bound. -/
theorem accumulate_sum {n w : Nat} {acc : Int} (h : SumOf n acc) (hn : n < 10) (hw : 20 ≤ w) (raw : Half) :
    accumulate w acc raw = acc + raw.toInt ∧ SumOf (n + 1) (acc + raw.toInt) := by
  have hb := half_toInt_bounds raw
  have hs : SumOf (n + 1) (acc + raw.toInt) := by
    unfold SumOf at *; push_cast; omega
  exact ⟨wrapTc_of_fits (by omega) (hs.fits (by omega) hw), hs⟩

/-- `RN` (00_scope.md section 7): within half, and even at a tie. -/
theorem roundNearest_spec (n : Int) {d : Nat} (hd : 0 < d) :
    2 * |n - d * roundNearest n d| ≤ d ∧ (2 * |n - d * roundNearest n d| = d → roundNearest n d % 2 = 0) := by
  have hq := Int.mul_ediv_add_emod n d
  have h0 := Int.emod_nonneg n (show (d : Int) ≠ 0 by omega)
  have h1 := Int.emod_lt_of_pos n (show (0 : Int) < d by omega)
  have up : n - d * (n / (d : Int) + 1) = n % (d : Int) - d := by rw [mul_add]; omega
  have down : n - d * (n / (d : Int)) = n % (d : Int) := by omega
  unfold roundNearest
  simp only
  split
  · rw [down, abs_of_nonneg h0]; omega
  · split
    · rw [up, abs_of_nonpos (by omega)]; omega
    · split
      · rw [down, abs_of_nonneg h0]; omega
      · rw [up, abs_of_nonpos (by omega)]; omega

theorem tc_lt (w : Nat) (i : Int) : tc w i < 2 ^ w := by
  have h1 := Int.emod_lt_of_pos i (show (0 : Int) < ((2 ^ w : Nat) : Int) by positivity)
  have h0 := Int.emod_nonneg i (show ((2 ^ w : Nat) : Int) ≠ 0 by positivity)
  unfold tc
  omega

end Sys2Proof.Machine
end

