-- ==== Sys2Proof/Laws/PerInstr.lean ====
section
/-! SUPPORT. Every well-formed instruction's encoding stands in its row of spec/opcode_table.json: the encoded bits under
the row's mask are the row's match. -/

namespace Sys2Proof.Laws.TableRow

open Sys2Proof

/-- The row of an instruction: the field `lo`, `width` its fixed bits stand in, and their value; two such fields for the
Control-1 byte, whose mask is 0x22. -/
def fixedFields : Instr → List (Nat × Nat × Nat)
  | .setodr _ => [(16, 4, 0x0)]
  | .setrng _ => [(16, 4, 0x1)]
  | .setosr _ => [(16, 4, 0x2)]
  | .setmode _ => [(16, 4, 0x3)]
  | .init _ => [(0, 20, 0x40000)]
  | .rdraw _ => [(0, 20, 0x50000)]
  | .read _ => [(0, 20, 0x60000)]
  | .head _ => [(0, 20, 0x70000)]
  | .enc _ => [(0, 20, 0x80000)]
  | .dec _ => [(16, 4, 0x9)]
  | .reservedAB _ => [(17, 3, 0x5)]
  | .reservedCF _ => [(18, 2, 0x3)]
  | .ctrl1Byte _ _ _ _ => [(1, 1, 0), (5, 1, 0)]
  | .ctrl2SoftReset => [(0, 8, 0x80)]
  | .ctrl2RollOver => [(0, 8, 0x40)]

/-- The fixed fields of the row ("fixed" in spec/opcode_table.json) hold in the encoding. -/
def Statement (i : Instr) : Prop :=
  i.wellFormed = true → ∀ f ∈ fixedFields i, (encode i).toNat / 2 ^ f.1 % 2 ^ f.2.1 = f.2.2

theorem of_pack {op : BitVec 4} {a : Half} {k : Nat} (h : op.toNat = k) :
    (packCommand op a).toNat / 2 ^ 16 % 2 ^ 4 = k := by
  have := a.isLt
  have := op.isLt
  rw [packCommand_toNat]
  omega

theorem setodr (v : Half) : Statement (.setodr v) := fun _ _ h => by
  obtain rfl := List.mem_singleton.mp h; exact of_pack rfl
theorem setrng (v : Half) : Statement (.setrng v) := fun _ _ h => by
  obtain rfl := List.mem_singleton.mp h; exact of_pack rfl
theorem setosr (v : Half) : Statement (.setosr v) := fun _ _ h => by
  obtain rfl := List.mem_singleton.mp h; exact of_pack rfl
theorem setmode (v : Half) : Statement (.setmode v) := fun _ _ h => by
  obtain rfl := List.mem_singleton.mp h; exact of_pack rfl
theorem dec (b : Half) : Statement (.dec b) := fun _ _ h => by
  obtain rfl := List.mem_singleton.mp h; exact of_pack rfl

theorem init (arg : Half) : Statement (.init arg) := fun w _ h => by
  obtain rfl := List.mem_singleton.mp h; obtain rfl := eq_of_beq w; rfl
theorem rdraw (arg : Half) : Statement (.rdraw arg) := fun w _ h => by
  obtain rfl := List.mem_singleton.mp h; obtain rfl := eq_of_beq w; rfl
theorem read (arg : Half) : Statement (.read arg) := fun w _ h => by
  obtain rfl := List.mem_singleton.mp h; obtain rfl := eq_of_beq w; rfl
theorem head (arg : Half) : Statement (.head arg) := fun w _ h => by
  obtain rfl := List.mem_singleton.mp h; obtain rfl := eq_of_beq w; rfl
theorem enc (arg : Half) : Statement (.enc arg) := fun w _ h => by
  obtain rfl := List.mem_singleton.mp h; obtain rfl := eq_of_beq w; rfl

theorem reservedAB (low : BitVec 17) : Statement (.reservedAB low) := fun _ _ h => by
  obtain rfl := List.mem_singleton.mp h
  have e : (0b101#3 ++ low : BitVec (3 + 17)).toNat = 5 * 131072 + low.toNat := by
    rw [BitVec.toNat_append, ← Nat.shiftLeft_add_eq_or_of_lt low.isLt, Nat.shiftLeft_eq]; rfl
  have := low.isLt
  show (0b101#3 ++ low : BitVec (3 + 17)).toNat / 2 ^ 17 % 2 ^ 3 = 5
  rw [e]; omega

theorem reservedCF (low : BitVec 18) : Statement (.reservedCF low) := fun _ _ h => by
  obtain rfl := List.mem_singleton.mp h
  have e : (0b11#2 ++ low : BitVec (2 + 18)).toNat = 3 * 262144 + low.toNat := by
    rw [BitVec.toNat_append, ← Nat.shiftLeft_add_eq_or_of_lt low.isLt, Nat.shiftLeft_eq]; rfl
  have := low.isLt
  show (0b11#2 ++ low : BitVec (2 + 18)).toNat / 2 ^ 18 % 2 ^ 2 = 3
  rw [e]; omega

theorem ctrl1Byte (osr rng odr mode : BitVec 2) : Statement (.ctrl1Byte osr rng odr mode) := fun w f h => by
  have hw : rng.toNat ≤ 1 ∧ mode.toNat ≤ 1 := by simpa [Instr.wellFormed] using w
  have := osr.isLt
  have := odr.isLt
  have e : (encode (.ctrl1Byte osr rng odr mode)).toNat =
      osr.toNat * 64 + rng.toNat * 16 + odr.toNat * 4 + mode.toNat := packControl1_toNat osr rng odr mode
  rcases List.mem_cons.mp h with rfl | h
  · simp only [e]; omega
  · obtain rfl := List.mem_singleton.mp h
    simp only [e]; omega

theorem ctrl2SoftReset : Statement .ctrl2SoftReset := fun _ _ h => by
  obtain rfl := List.mem_singleton.mp h; rfl
theorem ctrl2RollOver : Statement .ctrl2RollOver := fun _ _ h => by
  obtain rfl := List.mem_singleton.mp h; rfl

end Sys2Proof.Laws.TableRow
end

