-- ==== Sys2Proof/Tests/Slice0.lean ====
section
/-! SUPPORT. The model's own tests. Expected values come from spec/95_test_vectors.md ("V" and its section or program) or from
the rule cited; then one witness for each clause of each obligation that has hypotheses. -/

namespace Sys2Proof.Tests

open Sys2Proof Sys2Proof.Machine Sys2Proof.Claims

/-! ### States -/

/-- The state of an outcome. -/
def stateOf : Host.Outcome State Fault Refusal → Option State
  | .next t => some t
  | .fault _ => none
  | .refused _ => none

/-- The responses an outcome shows. -/
def answersOf (o : Host.Outcome State Fault Refusal) : Option (List Response) := (stateOf o).map (·.responses)

/-- After a successful `INIT` in the default configuration. -/
def ready : State := { State.reset with phase := .ready }

/-- After an illegal setting (V P3). -/
def halted : State := { State.reset with halt := true }

/-- The block of V P1: E0 2E 00 00 20 D1. -/
def blockP1 : BitVec 48 := 0xD1200000_2EE0#48

/-- The block of V P4: FF FF FF 7F 00 80. -/
def blockP4 : BitVec 48 := 0x80007FFF_FFFF#48

/-- The block of V P6: 00 00 F4 01 F9 FF. -/
def blockP6 : BitVec 48 := 0xFFF901F4_0000#48

/-- Ready, with ten answers and ten delays to come. -/
def tenReads (d : BitVec 48) : State := { ready with answers := List.replicate 10 (.ok d), timerEnds := 10 }

/-- Inside `INIT` at position `j`. -/
def inInit (j : Job) : State := { State.reset with phase := .initializing, busy := true, job := j }

/-! ### WellFormed refuses what matches no row -/

theorem test_init_arg_refused : (Instr.init 1#16).wellFormed = false := by decide
theorem test_rdraw_arg_refused : (Instr.rdraw 0x8000#16).wellFormed = false := by decide
theorem test_read_arg_refused : (Instr.read 1#16).wellFormed = false := by decide
theorem test_head_arg_refused : (Instr.head 1#16).wellFormed = false := by decide
theorem test_enc_arg_refused : (Instr.enc 1#16).wellFormed = false := by decide
theorem test_rng_code_refused : (Instr.ctrl1Byte 0#2 2#2 0#2 0#2).wellFormed = false := by decide
theorem test_mode_code_refused : (Instr.ctrl1Byte 0#2 0#2 0#2 3#2).wellFormed = false := by decide

/-! ### Decoding, words written out from 30_encoding.md R58, R59, R50, R56 -/

theorem test_decode_setodr : decodeTableWord 24 0b0000_0000000001100100 = some (.setodr 100#16) := by decide
theorem test_decode_setrng : decodeTableWord 24 0b0001_0000000000001000 = some (.setrng 8#16) := by decide
theorem test_decode_setosr : decodeTableWord 24 0b0010_0000001000000000 = some (.setosr 512#16) := by decide
theorem test_decode_setmode : decodeTableWord 24 0b0011_0000000000000001 = some (.setmode 1#16) := by decide
theorem test_decode_init : decodeTableWord 24 0b0100_0000000000000000 = some (.init 0#16) := by decide
theorem test_decode_rdraw : decodeTableWord 24 0b0101_0000000000000000 = some (.rdraw 0#16) := by decide
theorem test_decode_read : decodeTableWord 24 0b0110_0000000000000000 = some (.read 0#16) := by decide
theorem test_decode_head : decodeTableWord 24 0b0111_0000000000000000 = some (.head 0#16) := by decide
theorem test_decode_enc : decodeTableWord 24 0b1000_0000000000000000 = some (.enc 0#16) := by decide
theorem test_decode_dec : decodeTableWord 24 0b1001_0000000011011101 = some (.dec 0xDD#16) := by decide
theorem test_decode_reservedAB : decodeTableWord 24 0b1011_0000000000000001 = some (.reservedAB 0x10001#17) := by decide
theorem test_decode_reservedCF : decodeTableWord 24 0b1100_0000000000000010 = some (.reservedCF 2#18) := by decide
/-- 64, 8 Gauss, 50 Hz, standby: V section 3, row 0xD4. -/
theorem test_decode_ctrl1Byte : decodeTableWord 8 0b11010100 = some (.ctrl1Byte 3#2 1#2 1#2 0#2) := by decide
theorem test_decode_ctrl2SoftReset : decodeTableWord 8 0b10000000 = some .ctrl2SoftReset := by decide
theorem test_decode_ctrl2RollOver : decodeTableWord 8 0b01000000 = some .ctrl2RollOver := by decide
/-- 30_encoding.md R64: a reserved MODE code. -/
theorem test_decode_reserved_byte : decodeTableWord 8 0b00000010 = none := by decide
/-- 30_encoding.md R58: a command word has 20 bits. -/
theorem test_decode_wide_word : decodeTableWord 24 0x100000 = none := by decide
/-- V P2: `CONSTRUCT odr=200 rng=8 osr=64`, then `START`. -/
theorem test_construct : construct (some 200#16) (some 8#16) (some 64#16) none = [0x000C8#20, 0x10008#20, 0x20040#20] ∧
    start = 0x40000#20 := by decide

/-! ### Instructions -/

/-- V 2.1: image 0x09 after `SETODR 100`. -/
theorem test_setodr_100 : (stateOf (exec (.setodr 100#16) State.reset)).map (fun t => ctrl1Image t.cfg) = some 0x09#8 := by
  decide
/-- V 2.1: a pattern is not a value. -/
theorem test_setodr_4 : answersOf (exec (.setodr 4#16) State.reset) =
    some [⟨.invalidConfiguration, 0x4_00C8_0064_0032_000A⟩] := by decide
/-- V 2.1: image 0x15 after `SETRNG 8`. -/
theorem test_setrng_8 : (stateOf (exec (.setrng 8#16) State.reset)).map (fun t => ctrl1Image t.cfg) = some 0x15#8 := by
  decide
/-- V 2.1 and its `HALT` column. -/
theorem test_setrng_4 : exec (.setrng 4#16) State.reset = .next { State.reset with
    halt := true, responses := [⟨.invalidConfiguration, 0x2_0000_0000_0008_0002⟩] } := by rfl
/-- V 2.1: image 0x85 after `SETOSR 128`. -/
theorem test_setosr_128 : (stateOf (exec (.setosr 128#16) State.reset)).map (fun t => ctrl1Image t.cfg) = some 0x85#8 := by
  decide
/-- V section 7: the phase check comes before validation. -/
theorem test_setosr_late : answersOf (exec (.setosr 100#16) ready) = some [⟨.seqError, 0⟩] := by decide
/-- V 2.1: image 0x04 after `SETMODE 0`. -/
theorem test_setmode_0 : (stateOf (exec (.setmode 0#16) State.reset)).map (fun t => ctrl1Image t.cfg) = some 0x04#8 := by
  decide
/-- V P8: with `FAIL_FAST` false `HALT` stays 0. -/
theorem test_setmode_2 : (stateOf (exec (.setmode 2#16)
    { State.reset with params := { Params.default with failFast := false } })).map (·.halt) = some false := by decide
/-- V P1: the history of a default `INIT`. -/
theorem test_init : (stateOf (exec (.init 0#16)
    { State.reset with answers := [.ok 0#48, .ok 0#48, .ok 0#48], timerEnds := 1 })).map (·.history) =
    some [.write 0x0D#8 0x0A#8 0x80#8 .ok, .delay 5, .write 0x0D#8 0x09#8 0x05#8 .ok, .write 0x0D#8 0x0A#8 0x40#8 .ok] := by
  decide
/-- V P4: a failed `INIT` issues one write and no delay. -/
theorem test_init_fails : exec (.init 0#16) { State.reset with answers := [.busError], timerEnds := 1 } =
    .next { State.reset with timerEnds := 1, history := [.write 0x0D#8 0x0A#8 0x80#8 .err],
                             responses := [⟨.busError, 0⟩] } := by rfl
/-- V P4, command 4, and section 4. -/
theorem test_rdraw : answersOf (exec (.rdraw 0#16) { ready with answers := [.ok blockP4] }) =
    some [⟨.ok, 0x8000_7FFF_FFFF⟩] := by decide
/-- V section 4, row 01 00 under `HighFirst`. -/
theorem test_rdraw_highFirst : (stateOf (exec (.rdraw 0#16)
    { ready with params := { Params.default with sampleByteOrder := .highFirst }, answers := [.ok 0x1#48] })).map
      (·.rawX.toInt) = some 256 := by decide
/-- V P1, command 2. -/
theorem test_read : answersOf (exec (.read 0#16) (tenReads blockP1)) =
    some [⟨.ok, 0xFF000000_00000000_01000000⟩] := by decide +kernel
/-- V P5, command 2: three pairs, then the failing read. -/
theorem test_read_aborts : (stateOf (exec (.read 0#16)
    { ready with answers := [.ok 0x02BC025801F4#48, .busError], timerEnds := 9 })).map (·.history) =
    some [.read 0x0D#8 0#8 6 (.ok [0xF4#8, 0x01#8, 0x58#8, 0x02#8, 0xBC#8, 0x02#8]), .delay 10, .read 0x0D#8 0#8 6 .err] := by
  decide +kernel
/-- V P6, command 2: 90 degrees. -/
theorem test_head : answersOf (exec (.head 0#16) (tenReads blockP6)) = some [⟨.ok, 0x2D00⟩] := by decide +kernel
/-- V section 7: without the engine `HEAD` is illegal, before the guard. -/
theorem test_head_absent : answersOf (exec (.head 0#16)
    { State.reset with params := { Params.default with hasHeading := false } }) = some [⟨.illegalCmd, 0⟩] := by decide
/-- V 2.2. -/
theorem test_enc : answersOf (exec (.enc 0#16) { ready with cfg := ⟨1#2, 3#2, 1#2, 3#2⟩ }) = some [⟨.ok, 0xDD⟩] := by decide
/-- V 2.2. -/
theorem test_enc_arg : answersOf (exec (.enc 1#16) State.reset) = some [⟨.illegalCmd, 0⟩] := by decide
/-- V 2.2. -/
theorem test_dec_94 : answersOf (exec (.dec 0x94#16) State.reset) = some [⟨.ok, 0x0080_0008_0032_0000⟩] := by decide
/-- V 2.2: not a byte. -/
theorem test_dec_100 : answersOf (exec (.dec 0x100#16) State.reset) = some [⟨.reservedEncoding, 0⟩] := by decide
/-- V section 7. -/
theorem test_reservedAB : exec (.reservedAB 0#17) State.reset =
    .next { State.reset with responses := [⟨.illegalCmd, 0⟩] } := by rfl
/-- V section 7: the `HALT` check comes first. -/
theorem test_reservedCF : exec (.reservedCF 0x31234#18) halted = .next { halted with responses := [⟨.halted, 0⟩] } := by rfl
/-- 41_init.md R90, step 3. -/
theorem test_ctrl1Byte : (stateOf (exec (.ctrl1Byte 0#2 1#2 3#2 1#2) { inInit (.initControl1 0x1D#8) with
    answers := [.ok 0#48] })).map (·.history) = some [.write 0x0D#8 0x09#8 0x1D#8 .ok] := by decide
/-- 41_init.md R90, steps 1 and 2. -/
theorem test_ctrl2SoftReset : (stateOf (exec .ctrl2SoftReset { inInit .initReset with answers := [.ok 0#48] })).map
    (fun t => (t.history, t.timer)) = some ([.write 0x0D#8 0x0A#8 0x80#8 .ok, .delay 5], some 5) := by decide
/-- 41_init.md R90, step 4. -/
theorem test_ctrl2RollOver : (stateOf (exec .ctrl2RollOver { inInit .initRollOver with answers := [.ok 0#48] })).map
    (fun t => (t.phase, t.responses)) = some (.ready, [⟨.ok, 0⟩]) := by decide

/-! ### Operations -/

/-- V 5.2, row (99999, 0) under `Floor`. -/
theorem test_scale_floor : scale { Params.default with meanDiv := .floor } 99999 0#2 = 13979615 := by decide +kernel
/-- V 5.2, row (-1, 1) under `Exact`. -/
theorem test_scale_exact : scale Params.default (-1) 1#2 = -559 := by decide +kernel
/-- V section 6, row (3, 4): the correctly rounded engine. -/
theorem test_heading_3_4 : headNearest Params.default 4 3 = 6801 := by decide +kernel
/-- 43_heading.md R124, HP3: at the diagonal 1/128 degree is `HEAD_EPS`; the code next to 5760 meets it, the one after does
not. -/
theorem test_head_eps : meetsHeadEps Params.default 1 1 5761 = true ∧ meetsHeadEps Params.default 1 1 5762 = false := by
  decide +kernel
/-- V section 6, row (327670, -1): rounding up to a full turn gives 0. -/
theorem test_heading_wraps : headNearest Params.default (-1) 327670 = 0 := by decide +kernel
/-- 70_reset_and_hazards.md R163: the write in flight has an unknown outcome, and no response is delivered. -/
theorem test_reset_in_init : (stateOf (step { inInit .initReset with rst := true })).map
    (fun t => (t.history, t.responses, t.phase)) =
    some ([.write 0x0D#8 0x0A#8 0x80#8 .unknown], [], .uninitialized) := by decide

/-! ### Witnesses: each clause's hypotheses hold together -/

/-- The invariant of an idle state with the scratch registers at 0. -/
theorem inv_idle {s : State} (hw : s.params.wf = true) (hc : s.cfg = Cfg.default) (hj : s.job = .idle)
    (hb : s.busy = false) (hp : s.phase ≠ .initializing) (ha : s.accX = 0 ∧ s.accY = 0 ∧ s.accZ = 0) : s.Inv where
  params_wf := hw
  mode_legal := by rw [hc]; decide
  rng_legal := by rw [hc]; decide
  busy_iff := by simp [hb, hj]
  halt_idle _ := hb
  phase_init := by simp [hj, hp, Job.isInit]
  control1_image := by simp [hj]
  guarded := by simp [hj, Job.isAcquire]
  engine := by simp [hj, Job.filteredFor]
  cnt_sample := by simp [hj]
  cnt_gap := by simp [hj]
  acc_sum := by simp [hj, Job.filteredFor]
  acc_fits := by simp [ha, FitsTc]

theorem inv_ready : State.Inv ready := inv_idle (by decide) rfl rfl rfl (by decide) ⟨rfl, rfl, rfl⟩

theorem inv_reset : State.Inv { State.reset with cmds := [0x40000#20] } :=
  inv_idle (by decide) rfl rfl rfl (by decide) ⟨rfl, rfl, rfl⟩

/-- The invariant inside `INIT` in the default configuration. -/
theorem inv_inInit {j : Job} {as : List BusAnswer} (h : j.isInit = true) (hc : ∀ b, j = .initControl1 b → b = 0x05#8) :
    State.Inv { inInit j with answers := as } where
  params_wf := by show Params.default.wf = true; decide
  mode_legal := by show Cfg.default.mode.toNat ≤ 1; decide
  rng_legal := by show Cfg.default.rng.toNat ≤ 1; decide
  busy_iff := by
    show true = true ↔ j ≠ .idle
    simpa using fun e : j = .idle => by simp [e, Job.isInit] at h
  halt_idle := by show false = true → _; simp
  phase_init := by show Phase.initializing = .initializing ↔ j.isInit = true; simp [h]
  control1_image b hb := (hc b hb).trans (by show (0x05#8 : Byte) = ctrl1Image Cfg.default; decide)
  guarded := by
    show j.isAcquire = true → _
    cases j <;> simp [Job.isInit, Job.isAcquire] at h ⊢
  engine := by
    show j.filteredFor = _ → _
    cases j <;> simp [Job.isInit, Job.filteredFor] at h ⊢
  cnt_sample w hw := by
    replace hw : j = .sample w := hw
    simp [hw, Job.isInit] at h
  cnt_gap w hw := by
    replace hw : j = .gap w := hw
    simp [hw, Job.isInit] at h
  acc_sum := by
    show j.filteredFor ≠ none → _
    cases j <;> simp [Job.isInit, Job.filteredFor] at h ⊢
  acc_fits := by simp [inInit, State.reset, FitsTc]

theorem witness_AssertedReset_idle : ({ ready with rst := true } : State).rst = true ∧
    ({ ready with rst := true } : State).busRequest = none := by decide
theorem witness_AssertedReset_write : ({ inInit .initRollOver with rst := true } : State).rst = true ∧
    ({ inInit .initRollOver with rst := true } : State).busRequest = some (.writeByte 0x0D#8 0x0A#8 0x40#8) := by decide
theorem witness_AssertedReset_read : ({ ready with rst := true, busy := true, job := .rawRead } : State).rst = true ∧
    ({ ready with rst := true, busy := true, job := .rawRead } : State).busRequest = some (.readBlock 0x0D#8 0x00#8 6) := by
  decide

theorem witness_StepExecutesThePresentedCommand : (Instr.dec 0xFFFF#16).wellFormed = true ∧
    encode (.dec 0xFFFF#16) = .command 0x9FFFF#20 ∧ ({ ready with cmds := [0x9FFFF#20] } : State).rst = false ∧
    ({ ready with cmds := [0x9FFFF#20] } : State).busy = false ∧
    ({ ready with cmds := [0x9FFFF#20] } : State).cmds = 0x9FFFF#20 :: [] := by decide
theorem witness_StepExecutesThePresentedCommand_table : 8 < 24 ∧
    decodeTableWord 24 0xFFFFF = some (.reservedCF 0x3FFFF#18) := by decide

theorem witness_SequencersControlByte_softReset : (inInit .initReset).Inv ∧ (inInit .initReset).rst = false ∧
    sequencerInstr (inInit .initReset) = some .ctrl2SoftReset :=
  ⟨inv_inInit rfl (by simp), by decide, by decide⟩
theorem witness_SequencersControlByte_control1 : (inInit (.initControl1 0x05#8)).Inv ∧
    (inInit (.initControl1 0x05#8)).rst = false ∧
    sequencerInstr (inInit (.initControl1 0x05#8)) = some (.ctrl1Byte 0#2 0#2 1#2 1#2) :=
  ⟨inv_inInit rfl (by rintro b ⟨⟩; rfl), by decide, by decide⟩
theorem witness_SequencersControlByte_rollOver : (inInit .initRollOver).Inv ∧ (inInit .initRollOver).rst = false ∧
    sequencerInstr (inInit .initRollOver) = some .ctrl2RollOver :=
  ⟨inv_inInit rfl (by simp), by decide, by decide⟩
theorem witness_SequencersControlByte_table : 8 ≤ 8 ∧ decodeTableWord 8 0xDD = some (.ctrl1Byte 3#2 1#2 3#2 1#2) := by decide

theorem witness_BlockWaits_idle : ready.rst = false ∧ ready.Inv ∧ ready.busy = false ∧ ready.cmds = [] :=
  ⟨rfl, inv_ready, rfl, rfl⟩
theorem witness_BlockWaits_bus : (inInit .initReset).rst = false ∧ (inInit .initReset).busy = true ∧
    Waiting (inInit .initReset) := by unfold Waiting; decide
theorem witness_BlockWaits_timer : (inInit .initSettle).rst = false ∧ (inInit .initSettle).busy = true ∧
    Waiting (inInit .initSettle) := by unfold Waiting; decide
theorem witness_BusyBlockHolds : (inInit .initReset).rst = false ∧ (inInit .initReset).busy = true ∧
    ∃ t, step (inInit .initReset) = .next t := ⟨rfl, rfl, step_next _⟩

/-- Late inputs: a busy block without reset, and a command that `exec` leaves waiting. -/
theorem witness_LateInputs : ((inInit .initReset).rst = false ∧ (inInit .initReset).busy = true) ∧ State.reset.rst = false ∧
    ∃ t, exec (decodeCommand 0x40000#20) State.reset = .next t ∧ t.busy = true := ⟨⟨rfl, rfl⟩, rfl, _, rfl, rfl⟩

theorem witness_DecodeOfEncode : (Instr.ctrl1Byte 3#2 1#2 3#2 1#2).wellFormed = true ∧
    (Instr.reservedCF 0x3FFFF#18).wellFormed = true ∧ (Instr.init 0#16).wellFormed = true := by decide
theorem witness_EncodeOfDecode : decode (.control 0x09#8 0xDD#8) = .ok (.ctrl1Byte 3#2 1#2 3#2 1#2) ∧
    decode (.command 0xFFFFF#20) = .ok (.reservedCF 0x3FFFF#18) := by decide
theorem witness_ReservedControlBytes : (0x02#8 : Byte) &&& 0x22#8 ≠ 0#8 ∧ (0xFF#8 : Byte) &&& 0x22#8 ≠ 0#8 := by decide

/-- The four clauses of the setters' statements. -/
theorem witness_Setters : halted.halt = true ∧ (ready.halt = false ∧ ready.phase ≠ .uninitialized) ∧
    (State.reset.halt = false ∧ State.reset.phase = .uninitialized) := by decide
theorem witness_Setodr : (10#16, 0#2) ∈ [(10#16, 0#2), (50#16, 1#2), (100#16, 2#2), (200#16, 3#2)] ∧
    (200#16, 3#2) ∈ [(10#16, 0#2), (50#16, 1#2), (100#16, 2#2), (200#16, 3#2)] ∧
    9#16 ∉ [10#16, 50#16, 100#16, 200#16] ∧ 0xFFFF#16 ∉ [10#16, 50#16, 100#16, 200#16] := by decide
theorem witness_Setrng : (2#16, 0#2) ∈ [(2#16, 0#2), (8#16, 1#2)] ∧ (8#16, 1#2) ∈ [(2#16, 0#2), (8#16, 1#2)] ∧
    1#16 ∉ [2#16, 8#16] ∧ 9#16 ∉ [2#16, 8#16] := by decide
theorem witness_Setosr : (512#16, 0#2) ∈ [(512#16, 0#2), (256#16, 1#2), (128#16, 2#2), (64#16, 3#2)] ∧
    (64#16, 3#2) ∈ [(512#16, 0#2), (256#16, 1#2), (128#16, 2#2), (64#16, 3#2)] ∧
    0#16 ∉ [64#16, 128#16, 256#16, 512#16] ∧ 513#16 ∉ [64#16, 128#16, 256#16, 512#16] := by decide
theorem witness_Setmode : (0#16, 0#2) ∈ [(0#16, 0#2), (1#16, 1#2)] ∧ (1#16, 1#2) ∈ [(0#16, 0#2), (1#16, 1#2)] ∧
    2#16 ∉ [0#16, 1#16] := by decide

/-- `ENC`: halted, illegal, answered. -/
theorem witness_Enc : halted.halt = true ∧ (State.reset.halt = false ∧ 0xFFFF#16 ≠ 0#16) ∧
    (ready.halt = false ∧ 0#16 = 0#16) := by decide
theorem witness_Dec_not_a_byte : State.reset.halt = false ∧ 255 < (256#16).toNat := by decide
theorem witness_Dec_reserved : State.reset.halt = false ∧ (0xFF#16).toNat ≤ 255 ∧
    (2 ≤ (0xFF#16).toNat % 4 ∨ 2 ≤ (0xFF#16).toNat / 16 % 4) ∧ 2 ≤ (0x20#16).toNat / 16 % 4 ∧ 2 ≤ (0x02#16).toNat % 4 := by
  decide
/-- The first and the last legal byte, 0x00 and 0xDD. -/
theorem witness_Dec_legal : (0x00#16).toNat = 0 + 4 * 0 + 16 * 0 + 64 * 0 ∧ (0xDD#16).toNat = 1 + 4 * 3 + 16 * 1 + 64 * 3 ∧
    1 < 2 ∧ (3, 200) ∈ [(0, 10), (1, 50), (2, 100), (3, 200)] ∧ (1, 8) ∈ [(0, 2), (1, 8)] ∧
    (3, 64) ∈ [(0, 512), (1, 256), (2, 128), (3, 64)] := by decide
theorem witness_Control1RoundTrips : (⟨1#2, 3#2, 1#2, 3#2⟩ : Cfg).mode.toNat ≤ 1 ∧
    (⟨1#2, 3#2, 1#2, 3#2⟩ : Cfg).rng.toNat ≤ 1 ∧ decodeValues 0xDD#8 = some (1#16, 200#16, 8#16, 64#16) := by decide

theorem witness_Init : (State.reset.halt = false ∧ 1#16 ≠ 0#16) ∧ (ready.halt = false ∧ ready.phase ≠ .uninitialized) ∧
    State.reset.phase = .uninitialized := by decide
theorem witness_Init_sequence :
    let s : State := { State.reset with answers := [.ok 0#48, .ok 1#48, .ok 2#48, .busError], timerEnds := 1 }
    s.halt = false ∧ s.phase = .uninitialized ∧ s.answers = .ok 0#48 :: .ok 1#48 :: .ok 2#48 :: [.busError] ∧
      s.timerEnds = 0 + 1 := by decide
theorem witness_InitStops_first : ({ State.reset with answers := [.busError] } : State).answers = .busError :: [] := by decide
theorem witness_InitStops_second :
    ({ State.reset with answers := [.ok 0#48, .busError], timerEnds := 1 } : State).answers = .ok 0#48 :: .busError :: [] ∧
    ({ State.reset with answers := [.ok 0#48, .busError], timerEnds := 1 } : State).timerEnds = 0 + 1 := by decide
theorem witness_InitStops_third :
    ({ State.reset with answers := [.ok 0#48, .ok 0#48, .busError], timerEnds := 1 } : State).answers =
      .ok 0#48 :: .ok 0#48 :: .busError :: [] := by decide
/-- A failed `INIT`: within `exec`, and after a wait for its first answer. -/
theorem witness_InitStops_converse : State.reset.halt = false ∧ State.reset.phase = .uninitialized ∧
    answersOf (exec (.init 0#16) { State.reset with answers := [.busError] }) = some ([] ++ [⟨.busError, 0⟩]) ∧
    ∃ t u, exec (.init 0#16) State.reset = .next t ∧ GoesOnTo 1 t u ∧ u.responses = [] ++ [⟨.busError, 0⟩] :=
  ⟨rfl, rfl, by decide, _, _, rfl, ⟨[.busError], 0, _, rfl, rfl, rfl, rfl⟩, rfl⟩
/-- The control bytes: an answer of each kind, and none. -/
theorem witness_ControlBytes : ({ inInit .initReset with answers := [.ok 0#48] } : State).answers = .ok 0#48 :: [] ∧
    ({ inInit .initReset with answers := [.busError] } : State).answers = .busError :: [] ∧
    (inInit .initReset).answers = [] := by decide

theorem witness_MayAcquire : MayAcquire ready ∧
    MayAcquire { State.reset with params := { Params.default with guardNotReady := false } } := by
  constructor <;> unfold MayAcquire <;> decide
theorem witness_Rdraw_refused : (ready.halt = false ∧ 1#16 ≠ 0#16) ∧ (State.reset.halt = false ∧
    State.reset.params.guardNotReady = true ∧ State.reset.phase ≠ .ready) ∧ halted.halt = true := by decide
theorem witness_Rdraw_answers : ({ ready with answers := [.busError] } : State).answers = .busError :: [] ∧
    ({ ready with answers := [.ok blockP4] } : State).answers = .ok blockP4 :: [] := by decide
theorem witness_Read : (tenReads blockP1).params.wf = true ∧ (tenReads blockP1).cfg.rng.toNat ≤ 1 ∧
    (List.replicate 10 blockP1).length = 10 ∧ (tenReads blockP1).answers = (List.replicate 10 blockP1).map .ok ++ [] ∧
    (tenReads blockP1).timerEnds = 0 + 10 ∧ (tenReads blockP1).halt = false ∧ (tenReads blockP1).phase = .ready := by decide
theorem witness_Head : (tenReads blockP6).params.hasHeading = true ∧
    (tenReads blockP6).answers = (List.replicate 10 blockP6).map .ok ++ [] := by decide
theorem witness_Abort_at_the_first :
    ([] : List (BitVec 48)).length < 10 ∧ ({ ready with answers := [.busError] } : State).answers =
      ([] : List (BitVec 48)).map .ok ++ .busError :: [] ∧
    ({ ready with answers := [.busError] } : State).timerEnds = 0 + ([] : List (BitVec 48)).length := by decide
theorem witness_Abort_at_the_tenth :
    let s : State := { ready with answers := List.replicate 9 (.ok blockP1) ++ [.busError], timerEnds := 9 }
    (List.replicate 9 blockP1).length < 10 ∧ s.answers = (List.replicate 9 blockP1).map .ok ++ .busError :: [] ∧
      s.timerEnds = 0 + (List.replicate 9 blockP1).length := by decide
theorem witness_Refusals_without_engine :
    ({ ready with params := { Params.default with hasHeading := false } } : State).halt = false ∧
    ({ ready with params := { Params.default with hasHeading := false } } : State).params.hasHeading = false := by decide
/-- Two runs that agree on x and differ on y and z. -/
theorem witness_Axes : (∀ k, k < 10 → axisValue .lowFirst ((List.replicate 10 blockP1).getD k 0#48) 0 =
    axisValue .lowFirst ((List.replicate 10 0xFFFFFFFF2EE0#48).getD k 0#48) 0) ∧
    (∃ t, exec (.read 0#16) { tenReads blockP1 with answers := (List.replicate 10 blockP1).map .ok ++ [] } = .next t) ∧
    (∃ t, exec (.read 0#16) { tenReads blockP1 with
      answers := (List.replicate 10 0xFFFFFFFF2EE0#48).map .ok ++ [] } = .next t) :=
  ⟨by decide, exec_next _ _, exec_next _ _⟩
theorem witness_AccumulatorWidth : (tenReads blockP1).params.accW = 20 ∧ 20 ≤ 21 ∧
    (∃ t, exec (.read 0#16) (tenReads blockP1) = .next t) ∧ ∃ t, exec (.head 0#16) (tenReads blockP1) = .next t :=
  ⟨rfl, by decide, exec_next _ _, exec_next _ _⟩
theorem witness_Scratch : ∃ t, exec (decodeCommand 0x60000#20) (tenReads blockP1) = .next t := exec_next _ _

/-- The numeric statements: a legal instance, both range codes, the extreme sums, a sum whose value is an integer. -/
theorem witness_Scale : Params.default.wf = true ∧ (1#2 : BitVec 2).toNat ≤ 1 ∧ SumOf 10 327670 ∧ SumOf 10 (-327680) ∧
    Params.default.meanDiv ≠ .floor ∧ gauss Params.default.meanDiv 0#2 120000 * 2 ^ Params.default.fracW = (16777216 : Int) := by
  refine ⟨by decide, by decide, by unfold SumOf; omega, by unfold SumOf; omega, by decide, ?_⟩
  norm_num [gauss, mean, Params.default]

theorem witness_HeadExact_diagonal : IsHeadExact 1 1 45 := by
  refine ⟨Real.pi / 4, √2, by linarith [Real.pi_pos], by linarith [Real.pi_pos], by positivity, ?_, ?_,
    .inl ⟨by positivity, ?_⟩⟩
  · rw [Real.cos_pi_div_four, mul_div_assoc', Real.mul_self_sqrt (by norm_num)]; norm_num
  · rw [Real.sin_pi_div_four, mul_div_assoc', Real.mul_self_sqrt (by norm_num)]; norm_num
  · field_simp; norm_num
theorem witness_HeadExact_west : IsHeadExact 0 (-1) 180 :=
  ⟨Real.pi, 1, by linarith [Real.pi_pos], le_refl _, one_pos, by simp, by simp,
    .inl ⟨Real.pi_pos.le, by field_simp⟩⟩
theorem witness_HeadExact_south : IsHeadExact (-1) 0 270 :=
  ⟨-(Real.pi / 2), 1, by linarith [Real.pi_pos], by linarith [Real.pi_pos], one_pos, by simp, by simp,
    .inr ⟨by linarith [Real.pi_pos], by field_simp; norm_num⟩⟩
theorem witness_HeadingIsWithinHeadEps : Params.default.wf = true ∧ ((1 : Int) ≠ 0 ∨ (1 : Int) ≠ 0) := by decide
theorem witness_HeadingScales : Params.default.wf = true ∧ ((1 : Int) ≠ 0 ∨ (1 : Int) ≠ 0) ∧ (0 : Int) < 1 ∧ (0 : Int) < 3 := by
  decide

theorem witness_EveryStepKeepsTheInvariant : State.Inv ready ∧ ∃ t, step ready = .next t := ⟨inv_ready, step_next _⟩
theorem witness_HaltedBlock : ({ halted with cmds := [0x80000#20] } : State).rst = false ∧
    ({ halted with cmds := [0x80000#20] } : State).halt = true ∧ ({ halted with cmds := [0x80000#20] } : State).busy = false := by
  decide
theorem witness_HaltedBlock_steps : halted.halt = true ∧ (∃ t, step halted = .next t) ∧ halted.rst = false ∧
    ({ halted with rst := true } : State).rst = true := ⟨rfl, step_next _, rfl, rfl⟩
theorem witness_HaltIsSticky_set : IllegalSetting (decodeCommand 0x00019#20) ∧ IllegalSetting (decodeCommand 0x30002#20) ∧
    State.reset.busy = false ∧ State.reset.phase = .uninitialized ∧ State.reset.params.failFast = true := by
  refine ⟨?_, ?_, rfl, rfl, rfl⟩
  · show 25#16 ∉ [10#16, 50#16, 100#16, 200#16]; decide
  · show 2#16 ∉ [0#16, 1#16]; decide
/-- V P3: a step that sets `HALT`. -/
theorem witness_HaltIsSticky : State.reset.halt = false ∧
    (stateOf (step { State.reset with cmds := [0x00019#20] })).map (·.halt) = some true ∧ halted.rst = false := by decide
theorem witness_PhaseMoves_start : State.Inv { State.reset with cmds := [0x40000#20] } ∧
    (stateOf (step { State.reset with cmds := [0x40000#20] })).map (·.phase) = some .initializing :=
  ⟨inv_reset, by decide⟩
theorem witness_PhaseMoves_end : State.Inv { inInit .initRollOver with answers := [.ok 0#48] } ∧
    (stateOf (step { inInit .initRollOver with answers := [.ok 0#48] })).map (·.phase) = some .ready ∧
    (stateOf (step { inInit .initRollOver with answers := [.busError] })).map (·.phase) = some .uninitialized :=
  ⟨inv_inInit rfl (by simp), by decide, by decide⟩
/-- The events of the two ends: the third write succeeds, and fails. -/
theorem witness_PhaseMoves_events :
    (stateOf (step { inInit .initRollOver with answers := [.ok 0#48] })).map (·.history) =
      some ([] ++ [.write 0x0D#8 0x0A#8 0x40#8 .ok]) ∧
    (stateOf (step { inInit .initRollOver with answers := [.busError] })).map (·.history) =
      some ([] ++ [.write 0x0D#8 0x0A#8 0x40#8 .err]) ∧ IsFailedWrite (.write 0x0D#8 0x0A#8 0x40#8 .err) := by
  refine ⟨by decide, by decide, rfl⟩
/-- A whole `INIT` in one step, from `Uninitialized` straight to `Ready`. -/
theorem witness_PhaseMoves_straight : (stateOf (step { State.reset with
    cmds := [0x40000#20], answers := [.ok 0#48, .ok 0#48, .ok 0#48], timerEnds := 1 })).map (·.phase) = some .ready := by
  decide
theorem witness_CfgIsWritten : State.reset.rst = false ∧
    (stateOf (step { State.reset with cmds := [0x000C8#20] })).map (·.cfg) = some ⟨1#2, 3#2, 0#2, 0#2⟩ ∧
    State.reset.cfg ≠ ⟨1#2, 3#2, 0#2, 0#2⟩ := by decide
theorem witness_BusSees : State.Inv { State.reset with cmds := [0x40000#20] } ∧
    ∃ t, step { State.reset with cmds := [0x40000#20] } = .next t := ⟨inv_reset, step_next _⟩
/-- Both ends of an executed command: answered, and waiting. -/
theorem witness_EveryCommandAnswers :
    (stateOf (exec (decodeCommand 0x80000#20) State.reset)).map (·.busy) = some false ∧
    (stateOf (exec (decodeCommand 0x40000#20) State.reset)).map (·.busy) = some true := by decide
/-- A silent bus: `INIT` at each of its four waits, and `RDRAW`. -/
theorem witness_MissingInput_init : (State.reset.halt = false ∧ State.reset.phase = .uninitialized ∧ State.reset.answers = []) ∧
    ({ State.reset with answers := [.ok 0#48] } : State).timerEnds = 0 ∧
    ({ State.reset with answers := [.ok 0#48], timerEnds := 1 } : State).timerEnds = 0 + 1 ∧
    ({ State.reset with answers := [.ok 0#48, .ok 1#48], timerEnds := 1 } : State).answers = [.ok 0#48, .ok 1#48] ∧
    ready.answers = [] := by decide
/-- `READ` and `HEAD` that wait for their first and their tenth answer, and for their first and their tenth delay. -/
theorem witness_MissingInput_filtered : FilteredRead ready.params (.read 0#16) .gauss ∧
    FilteredRead ready.params (.head 0#16) .heading ∧ ready.params.wf = true ∧
    (([] : List (BitVec 48)).length < 10 ∧ ready.answers = ([] : List (BitVec 48)).map .ok ∧ ready.timerEnds = 0 + 0) ∧
    ((List.replicate 9 blockP1).length < 10 ∧ ({ ready with answers := List.replicate 9 (.ok blockP1) } : State).answers =
      (List.replicate 9 blockP1).map .ok) ∧
    ([blockP1].length ≤ 10 ∧ ready.timerEnds + 1 = [blockP1].length) ∧
    ((List.replicate 10 blockP1).length ≤ 10 ∧ 9 + 1 = (List.replicate 10 blockP1).length) :=
  ⟨.inl ⟨rfl, rfl⟩, .inr ⟨rfl, rfl, rfl⟩, by decide, by decide, by decide, by decide, by decide⟩
theorem witness_StepDelivers : ∃ t, step State.reset = .next t := step_next _
theorem witness_EachCommandAnswers : answersOf (exec (.enc 0#16) State.reset) =
    some (State.reset.responses ++ [⟨.ok, 5⟩]) := by decide
/-- A waiting command that answers in a later step: each status of `INIT`'s last write. -/
theorem witness_EachCommandAnswers_later : (inInit .initRollOver).rst = false ∧ (inInit .initRollOver).busy = true ∧
    answersOf (step { inInit .initRollOver with answers := [.ok 0#48] }) = some ([] ++ [⟨.ok, 0⟩]) ∧
    answersOf (step { inInit .initRollOver with answers := [.busError] }) = some ([] ++ [⟨.busError, 0⟩]) := by decide
theorem witness_RefusalsCarryNoPayload : answersOf (step { ready with cmds := [0x10008#20] }) =
    some (ready.responses ++ [⟨.seqError, 0⟩]) ∧ Status.seqError ≠ .ok ∧ Status.seqError ≠ .invalidConfiguration := by decide
theorem witness_PayloadsFit : State.Inv { State.reset with cmds := [0x40000#20] } ∧
    State.reset.params.headW ≤ max (3 * State.reset.params.outW) 67 ∧
    answersOf (step { State.reset with cmds := [0x40000#20], answers := [.busError] }) =
      some (State.reset.responses ++ [⟨.busError, 0⟩]) := ⟨inv_reset, by decide, by decide⟩
/-- The three kinds of illegal word, each at a boundary: opcode 0xA; `ENC` with `arg` 1; `HEAD` without the engine. -/
theorem witness_IllegalWords : IllegalWord Params.default 0xA0000#20 ∧ IllegalWord Params.default 0xFFFFF#20 ∧
    IllegalWord Params.default 0x40001#20 ∧ IllegalWord Params.default 0x8FFFF#20 ∧
    IllegalWord { Params.default with hasHeading := false } 0x70000#20 ∧ State.reset.halt = false ∧ halted.halt = true := by
  unfold IllegalWord; decide
theorem witness_Acquisition_guarded : State.reset.params.hasHeading = true ∧ State.reset.halt = false ∧
    State.reset.params.guardNotReady = true ∧ State.reset.phase ≠ .ready := by decide
theorem witness_Acquisition_unguarded :
    let s : State := { tenReads blockP1 with params := { Params.default with guardNotReady := false }, phase := .initializing }
    s.halt = false ∧ s.params.guardNotReady = false ∧ ∃ t, exec (.read 0#16) { s with phase := .ready } = .next t :=
  ⟨rfl, rfl, exec_next _ _⟩

end Sys2Proof.Tests
end

section
/-! What no step changes: the parameters of the instance (00_scope.md R4). -/

namespace Sys2Proof.Machine

@[simp] theorem resetBlock_params (s : State) : (resetBlock s).params = s.params := rfl

/-- Whatever a command word does, its named updates leave the parameters alone. -/
theorem exec_command_params {w : CmdWord} {s t : State} (h : exec (decodeCommand w) s = .next t) :
    t.params = s.params := by
  apply exec_command_elim (P := fun t => t.params = s.params) h
  all_goals intros; simp

theorem step_params {s t : State} (h : step s = .next t) : t.params = s.params := by
  obtain ⟨_, rfl⟩ | ⟨_, _, w, rest, _, hexec⟩ | ⟨_, _, rfl⟩ := step_cases h
  · exact resetBlock_params s
  · rw [exec_command_params hexec]
  · exact (advance_frame s).1

/-- Settles O59: every step has a next state (`step_next`), and none of the three things a step can do
(`step_cases`) writes the parameters. -/
theorem stepNeverStopsAndKeepsTheParameters : Obligations.StepNeverStopsAndKeepsTheParameters := by
  intro s
  obtain ⟨t, ht⟩ := step_next s
  exact ⟨t, ht, step_params ht⟩

end Sys2Proof.Machine
end

section
/-! The mapping tables, and what a step does to `CFG` and `HALT` (10_state.md R12, R13, R15). -/

namespace Sys2Proof.Machine

open Sys2Proof.Claims

/-! ### What the running command leaves alone -/

@[simp] theorem advance_params (s : State) : (advance s).params = s.params := (advance_frame s).1
@[simp] theorem advance_cfg (s : State) : (advance s).cfg = s.cfg := (advance_frame s).2.1
@[simp] theorem advance_halt (s : State) : (advance s).halt = s.halt := (advance_frame s).2.2.1

/-! ### The mapping tables -/

theorem codeIn_mem {rows : List (Half × BitVec 2)} {v : Half} {c : BitVec 2} (h : codeIn rows v = some c) :
    (v, c) ∈ rows := by
  induction rows with
  | nil => cases h
  | cons row rows ih =>
    obtain ⟨x, k⟩ := row
    rw [codeIn] at h
    split at h
    · next hv => cases h; simp [hv]
    · exact List.mem_cons_of_mem _ (ih h)

theorem codeIn_eq_none_iff {rows : List (Half × BitVec 2)} {v : Half} :
    codeIn rows v = none ↔ v ∉ rows.map Prod.fst := by
  induction rows with
  | nil => simp [codeIn]
  | cons row rows ih =>
    obtain ⟨x, k⟩ := row
    by_cases hv : v = x <;> simp_all [codeIn]

/-- The claims' illegal settings are the setters' values their table has no code for. -/
theorem illegalSetting_setter_iff (o : Opt) (v : Half) :
    IllegalSetting (Opt.setter o v) ↔ codeIn (optTable o) v = none := by
  rw [codeIn_eq_none_iff]
  cases o
  case osr => simp [Opt.setter, IllegalSetting, optTable]; tauto
  all_goals exact Iff.rfl

theorem setter_of_illegalSetting {i : Instr} (h : IllegalSetting i) : ∃ o v, i = Opt.setter o v := by
  cases i
  case setodr v => exact ⟨.odr, v, rfl⟩
  case setrng v => exact ⟨.rng, v, rfl⟩
  case setosr v => exact ⟨.osr, v, rfl⟩
  case setmode v => exact ⟨.mode, v, rfl⟩
  all_goals exact h.elim

/-- The write of a legal setting is the claims' replacement of one field. -/
theorem setField_replaces {o : Opt} {v : Half} {code : BitVec 2} (c : Cfg) (h : codeIn (optTable o) v = some code) :
    FieldReplaced c (c.setField o code) (Opt.setter o v) := by
  cases o <;> exact ⟨code, codeIn_mem h, rfl⟩

/-! ### `CFG` -/

/-- `i`, executed in `s`, is a legal setting that is accepted and leaves `t` with its code (40_codec.md R74 to R77). -/
def LegalSetting (i : Instr) (s t : State) : Prop :=
  s.halt = false ∧ s.phase = .uninitialized ∧
    ∃ o v c, i = Opt.setter o v ∧ codeIn (optTable o) v = some c ∧ t.cfg = s.cfg.setField o c

theorem exec_command_cfg {w : CmdWord} {s t : State} (h : exec (decodeCommand w) s = .next t) :
    t.cfg = s.cfg ∨ LegalSetting (decodeCommand w) s t := by
  apply exec_command_elim (P := fun t => t.cfg = s.cfg ∨ LegalSetting (decodeCommand w) s t) h
  case setting => exact fun o v c hi hh hp hc => .inr ⟨hh, hp, o, v, c, hi, hc, rfl⟩
  all_goals intros; left; simp

/-- Settles O49: neither the running command (`advance_cfg`) nor any other command word (`exec_command_cfg`) writes
`CFG`. -/
theorem cfgIsWrittenByLegalSettersOnly : Obligations.CfgIsWrittenByLegalSettersOnly := by
  intro s t hrst hstep hne
  obtain ⟨hr, _⟩ | ⟨_, hb, w, rest, hc, hexec⟩ | ⟨_, _, rfl⟩ := step_cases hstep
  · simp [hrst] at hr
  · obtain hkeep | ⟨hh, hp, o, v, c, hi, hcode, hcfg⟩ := exec_command_cfg hexec
    · exact absurd hkeep hne
    · refine ⟨hb, hh, hp, w, rest, hc, ?_⟩
      rw [hi, hcfg]
      exact setField_replaces s.cfg hcode
  · exact absurd (advance_cfg s) hne

/-! ### `HALT` -/

/-- `i`, executed in `s`, is an illegal setting that gets as far as the validation, under `FAIL_FAST` (60_exceptions.md
R134). -/
def FailsFast (i : Instr) (s : State) : Prop :=
  s.params.failFast = true ∧ s.halt = false ∧ s.phase = .uninitialized ∧ IllegalSetting i

theorem exec_command_halt {w : CmdWord} {s t : State} (h : exec (decodeCommand w) s = .next t) :
    t.halt = s.halt ∨ FailsFast (decodeCommand w) s := by
  apply exec_command_elim (P := fun t => t.halt = s.halt ∨ FailsFast (decodeCommand w) s) h
  case illegalSetting =>
    intro o v hi hh hp hc
    cases hf : s.params.failFast
    · left; simp [hf]
    · exact .inr ⟨hf, hh, hp, by rw [hi]; exact (illegalSetting_setter_iff o v).mpr hc⟩
  all_goals intros; left; simp

theorem exec_setter (o : Opt) (v : Half) (s : State) : exec (Opt.setter o v) s = .next (setOption o v (accept s)) := by
  cases o <;> rfl

theorem FailsFast.exec_halts {i : Instr} {s t : State} (h : exec i s = .next t) (hi : FailsFast i s) :
    t.halt = true := by
  obtain ⟨hf, hh, hp, hi⟩ := hi
  obtain ⟨o, v, rfl⟩ := setter_of_illegalSetting hi
  have hnone := (illegalSetting_setter_iff o v).mp hi
  rw [exec_setter, setOption, validate, hnone, if_neg (by simp [hh]), if_neg (by simp [hp])] at h
  cases h
  simp [hf]

/-- While `HALT` is 1 every command word answers `HALTED` and has no other effect (60_exceptions.md R135). -/
theorem exec_command_halted {w : CmdWord} {s t : State} (h : exec (decodeCommand w) s = .next t) (hh : s.halt = true) :
    t = answered .halted 0 s := by
  apply exec_command_elim (P := fun t => t = answered .halted 0 s) h
  case refusal =>
    rintro st _ (rfl | hh')
    · rfl
    · simp [hh] at hh'
  all_goals intros; simp_all

/-- Settles O47: `HALT` as the three things a step can do leave it (`step_cases`). -/
theorem haltIsSticky : Obligations.HaltIsSticky := by
  refine ⟨rfl, fun s t hstep => ?_⟩
  obtain ⟨hr, rfl⟩ | ⟨hr, hb, w, rest, hc, hexec⟩ | ⟨hr, hidle, rfl⟩ := step_cases hstep
  · refine ⟨fun _ => rfl, ?_, ?_, ?_, ?_⟩ <;> simp [hr, resetBlock, State.reset]
  · refine ⟨by simp [hr], fun hh _ => ?_, fun hh _ _ w' rest' hc' => ?_, fun hh ht => ?_,
      fun hh _ _ hp hf w' rest' hc' hi => ?_⟩
    · rw [exec_command_halted hexec hh]; exact hh
    · cases hc.symm.trans hc'
      exact exec_command_halted hexec hh
    · obtain hkeep | ⟨hf, _, hp, hi⟩ := exec_command_halt hexec
      · simp [hkeep, hh] at ht
      · exact ⟨hf, hr, hb, hp, w, rest, hc, hi⟩
    · cases hc.symm.trans hc'
      exact FailsFast.exec_halts hexec ⟨hf, hh, hp, hi⟩
  · have hkeep := advance_halt s
    refine ⟨by simp [hr], fun hh _ => hkeep.trans hh, fun _ _ hb w rest hc => ?_, fun hh ht => ?_,
      fun _ _ hb _ _ w rest hc => ?_⟩
    · simp [hb, hc] at hidle
    · simp [hh] at ht
    · simp [hb, hc] at hidle

end Sys2Proof.Machine
end

section
/-! The invariant (10_state.md R13 to R19) in three parts, each kept for reasons of its own: the parameters and `CFG`, the
counter and the accumulators, and the flags beside the position in the running command. -/

namespace Sys2Proof.Machine

/-! ### The parameters and `CFG` -/

/-- `CFG` holds legal codes only (10_state.md R13). -/
def Cfg.Legal (c : Cfg) : Prop := c.mode.toNat ≤ 1 ∧ c.rng.toNat ≤ 1

theorem Cfg.default_legal : Cfg.default.Legal := ⟨by decide, by decide⟩

/-- The tables of mode and range hold the codes 0 and 1 only, so a legal setting leaves a legal `CFG`. -/
theorem Cfg.Legal.setField {c : Cfg} {o : Opt} {v : Half} {code : BitVec 2} (h : c.Legal)
    (hcode : codeIn (optTable o) v = some code) : (c.setField o code).Legal := by
  have hmem := codeIn_mem hcode
  obtain ⟨hmode, hrng⟩ := h
  cases o with
  | odr => exact ⟨hmode, hrng⟩
  | osr => exact ⟨hmode, hrng⟩
  | rng =>
    have : code.toNat ≤ 1 := by
      obtain ⟨-, rfl⟩ | ⟨-, rfl⟩ := by simpa [optTable] using hmem
      all_goals decide
    exact ⟨hmode, this⟩
  | mode =>
    have : code.toNat ≤ 1 := by
      obtain ⟨-, rfl⟩ | ⟨-, rfl⟩ := by simpa [optTable] using hmem
      all_goals decide
    exact ⟨this, hrng⟩

theorem step_cfg_legal {s t : State} (h : s.cfg.Legal) (hstep : step s = .next t) : t.cfg.Legal := by
  obtain ⟨_, rfl⟩ | ⟨_, _, w, rest, _, hexec⟩ | ⟨_, _, rfl⟩ := step_cases hstep
  · exact Cfg.default_legal
  · obtain hkeep | ⟨_, _, o, v, c, _, hcode, hcfg⟩ := exec_command_cfg hexec
    · rw [hkeep]; exact h
    · rw [hcfg]; exact h.setField hcode
  · rw [advance_cfg]; exact h

theorem Params.accW_of_wf {p : Params} (h : p.wf = true) : 20 ≤ p.accW := by
  simp only [Params.wf, Bool.and_eq_true, decide_eq_true_iff] at h
  omega

/-! ### The counter and the accumulators -/

/-- The part of the invariant about `CNT` and the accumulators (42_acquisition.md R105, R112). -/
structure State.SumsBounded (s : State) : Prop where
  cnt_sample : ∀ w, s.job = .sample w → s.cnt.toNat < nSamples
  cnt_gap : ∀ w, s.job = .gap w → 1 ≤ s.cnt.toNat ∧ s.cnt.toNat ≤ nSamples
  acc_sum : s.job.filteredFor ≠ none →
    SumOf s.cnt.toNat s.accX ∧ SumOf s.cnt.toNat s.accY ∧ SumOf s.cnt.toNat s.accZ
  acc_fits : FitsTc s.params.accW s.accX ∧ FitsTc s.params.accW s.accY ∧ FitsTc s.params.accW s.accZ

theorem State.Inv.sumsBounded {s : State} (h : s.Inv) : s.SumsBounded :=
  ⟨h.cnt_sample, h.cnt_gap, h.acc_sum, h.acc_fits⟩

/-- Outside `FilteredAcc()` only the widths are bound. -/
theorem sumsBounded_of_not_filtered {s : State} (hj : s.job.filteredFor = none)
    (hfits : FitsTc s.params.accW s.accX ∧ FitsTc s.params.accW s.accY ∧ FitsTc s.params.accW s.accZ) :
    s.SumsBounded where
  cnt_sample w hw := by simp [hw, Job.filteredFor] at hj
  cnt_gap w hw := by simp [hw, Job.filteredFor] at hj
  acc_sum hw := absurd hj hw
  acc_fits := hfits

theorem fitsTc_zero (w : Nat) : FitsTc w 0 := by simp [FitsTc]

/-- `FilteredAcc()` starts with no sample and zero sums (42_acquisition.md R105). -/
theorem sumsBounded_beginFiltered (want : Want) (s : State) : (beginFiltered want s).SumsBounded where
  cnt_sample _ _ := by simp [nSamples]
  cnt_gap _ hw := by simp at hw
  acc_sum _ := by simp [SumOf]
  acc_fits := ⟨fitsTc_zero _, fitsTc_zero _, fitsTc_zero _⟩

/-- One more sample while fewer than ten are in: no sum wraps, so each is one sample longer (42_acquisition.md R112). -/
theorem sumsBounded_after_sample {s : State} {want : Want} (h : s.SumsBounded) (hw : 20 ≤ s.params.accW)
    (hj : s.job = .sample want) (ms : Nat) : (beginDelay ms (.gap want) (addSample s)).SumsBounded := by
  have hc : s.cnt.toNat < 10 := h.cnt_sample want hj
  have hcnt : (s.cnt + 1#4).toNat = s.cnt.toNat + 1 := by
    rw [BitVec.toNat_add]; simp; omega
  have hsum : ∀ {acc : Int} (raw : Half), SumOf s.cnt.toNat acc →
      SumOf (s.cnt + 1#4).toNat (accumulate s.params.accW acc raw) := by
    intro acc raw hacc
    obtain ⟨heq, hnext⟩ := accumulate_sum hacc hc hw raw
    rw [hcnt, heq]
    exact hnext
  obtain ⟨hx, hy, hz⟩ := h.acc_sum (by simp [hj, Job.filteredFor])
  have hfits : ∀ i, FitsTc s.params.accW (wrapTc s.params.accW i) := fits_wrapTc (by omega)
  exact {
    cnt_sample := fun _ hw => by simp at hw
    cnt_gap := fun _ _ => by simp only [beginDelay_cnt, addSample_cnt, hcnt, nSamples]; omega
    acc_sum := fun _ => ⟨hsum _ hx, hsum _ hy, hsum _ hz⟩
    acc_fits := ⟨hfits _, hfits _, hfits _⟩ }

theorem advance_sumsBounded {s : State} (hw : 20 ≤ s.params.accW) (h : s.SumsBounded) : (advance s).SumsBounded := by
  apply advance_elim (P := State.SumsBounded) s h
  case sampleOk =>
    intro want d rest hj _
    apply sumsBounded_after_sample
    · exact ⟨h.cnt_sample, h.cnt_gap, h.acc_sum, h.acc_fits⟩
    · exact hw
    · exact hj
  case again =>
    intro want n hj _ hc
    exact {
      cnt_sample := fun _ _ => hc
      cnt_gap := fun _ hg => by simp at hg
      acc_sum := fun _ => h.acc_sum (by simp [hj, Job.filteredFor])
      acc_fits := h.acc_fits }
  case finish =>
    intro want n _ _ _
    cases want <;> exact sumsBounded_of_not_filtered rfl h.acc_fits
  all_goals
    intros
    exact sumsBounded_of_not_filtered rfl h.acc_fits

theorem runCommand_sumsBounded {s : State} (hw : 20 ≤ s.params.accW) (h : s.SumsBounded) :
    (runCommand s).SumsBounded := by
  have hstep : ∀ u : State, 20 ≤ u.params.accW ∧ u.SumsBounded → 20 ≤ (advance u).params.accW ∧ (advance u).SumsBounded :=
    fun u ⟨hwu, hu⟩ => ⟨(advance_params u).symm ▸ hwu, advance_sumsBounded hwu hu⟩
  exact (run_induct hstep ⟨hw, h⟩ maxEvents).2

theorem exec_command_sumsBounded {w : CmdWord} {s t : State} (hexec : exec (decodeCommand w) s = .next t)
    (hw : 20 ≤ s.params.accW) (h : s.SumsBounded) : t.SumsBounded := by
  apply exec_command_elim (P := State.SumsBounded) hexec
  case init =>
    intros
    exact runCommand_sumsBounded hw (sumsBounded_of_not_filtered rfl h.acc_fits)
  case raw =>
    intros
    exact runCommand_sumsBounded hw (sumsBounded_of_not_filtered rfl h.acc_fits)
  case gauss => intros; exact runCommand_sumsBounded hw (sumsBounded_beginFiltered _ _)
  case heading => intros; exact runCommand_sumsBounded hw (sumsBounded_beginFiltered _ _)
  all_goals
    intros
    exact sumsBounded_of_not_filtered rfl h.acc_fits

theorem step_sumsBounded {s t : State} (hw : 20 ≤ s.params.accW) (h : s.SumsBounded) (hstep : step s = .next t) :
    t.SumsBounded := by
  obtain ⟨_, rfl⟩ | ⟨_, _, w, rest, _, hexec⟩ | ⟨_, _, rfl⟩ := step_cases hstep
  · exact sumsBounded_of_not_filtered rfl ⟨fitsTc_zero _, fitsTc_zero _, fitsTc_zero _⟩
  · exact exec_command_sumsBounded hexec hw ⟨h.cnt_sample, h.cnt_gap, h.acc_sum, h.acc_fits⟩
  · exact advance_sumsBounded hw h

/-! ### The flags and the position -/

/-- The part of the invariant about `BUSY`, `HALT`, `PHASE` and the position in the running command. -/
structure State.FlagsFitPosition (s : State) : Prop where
  busy_iff : s.busy = true ↔ s.job ≠ .idle
  halt_idle : s.halt = true → s.busy = false
  phase_init : s.phase = .initializing ↔ s.job.isInit = true
  control1_image : ∀ b, s.job = .initControl1 b → b = ctrl1Image s.cfg
  guarded : s.job.isAcquire = true → s.params.guardNotReady = true → s.phase = .ready
  engine : s.job.filteredFor = some .heading → s.params.hasHeading = true

theorem State.Inv.flagsFit {s : State} (h : s.Inv) : s.FlagsFitPosition :=
  ⟨h.busy_iff, h.halt_idle, h.phase_init, h.control1_image, h.guarded, h.engine⟩

/-- In an idle block only `PHASE` is bound. -/
theorem flagsFit_of_idle {s : State} (hj : s.job = .idle) (hb : s.busy = false) (hp : s.phase ≠ .initializing) :
    s.FlagsFitPosition where
  busy_iff := by simp [hj, hb]
  halt_idle _ := hb
  phase_init := by simp [hj, hp, Job.isInit]
  control1_image := by simp [hj]
  guarded := by simp [hj, Job.isAcquire]
  engine := by simp [hj, Job.filteredFor]

/-- `BUSY` 1, `HALT` 0 and `PHASE` `Initializing`: the flags inside `INIT`. -/
theorem flagsFit_of_init {s : State} (hj : s.job.isInit = true) (hb : s.busy = true) (hh : s.halt = false)
    (hp : s.phase = .initializing) (himage : ∀ b, s.job = .initControl1 b → b = ctrl1Image s.cfg) :
    s.FlagsFitPosition where
  busy_iff := by simpa [hb] using fun e : s.job = .idle => by simp [e, Job.isInit] at hj
  halt_idle := by simp [hh]
  phase_init := by simp [hj, hp]
  control1_image := himage
  guarded := by cases hk : s.job <;> simp [hk, Job.isInit, Job.isAcquire] at hj ⊢
  engine := by cases hk : s.job <;> simp [hk, Job.isInit, Job.filteredFor] at hj ⊢

/-- The flags inside `RDRAW`, `READ` and `HEAD`. -/
theorem flagsFit_of_acquire {s : State} (hj : s.job.isAcquire = true) (hb : s.busy = true) (hh : s.halt = false)
    (hp : s.phase ≠ .initializing) (hguard : s.params.guardNotReady = true → s.phase = .ready)
    (hengine : s.job.filteredFor = some .heading → s.params.hasHeading = true) : s.FlagsFitPosition where
  busy_iff := by simpa [hb] using fun e : s.job = .idle => by simp [e, Job.isAcquire] at hj
  halt_idle := by simp [hh]
  phase_init := by cases hk : s.job <;> simp [hk, hp, Job.isInit, Job.isAcquire] at hj ⊢
  control1_image b hb := by simp [hb, Job.isAcquire] at hj
  guarded _ := hguard
  engine := hengine

/-- While a command runs, `BUSY` is 1 and `HALT` is 0. -/
theorem State.FlagsFitPosition.running {s : State} (h : s.FlagsFitPosition) (hj : s.job ≠ .idle) :
    s.busy = true ∧ s.halt = false := by
  have hb := h.busy_iff.mpr hj
  refine ⟨hb, Bool.eq_false_iff.mpr fun hh => ?_⟩
  simp [h.halt_idle hh] at hb

/-- `INIT` goes on from one position to another. -/
theorem State.FlagsFitPosition.init_goes_on {s t : State} (h : s.FlagsFitPosition) (hs : s.job.isInit = true)
    (ht : t.job.isInit = true) (hflags : t.busy = s.busy ∧ t.halt = s.halt ∧ t.phase = s.phase)
    (himage : ∀ b, t.job = .initControl1 b → b = ctrl1Image t.cfg) : t.FlagsFitPosition := by
  obtain ⟨hb, hh⟩ := h.running (fun e => by simp [e, Job.isInit] at hs)
  obtain ⟨eb, eh, ep⟩ := hflags
  exact flagsFit_of_init ht (eb.trans hb) (eh.trans hh) (ep.trans (h.phase_init.mpr hs)) himage

/-- The positions inside `FilteredAcc()` are acquisition's. -/
theorem Job.isAcquire_of_filteredFor {j : Job} {want : Want} (h : j.filteredFor = some want) : j.isAcquire = true := by
  cases j <;> simp [Job.filteredFor, Job.isAcquire] at h ⊢

theorem Job.not_isInit_of_isAcquire {j : Job} (h : j.isAcquire = true) : j.isInit = false := by
  cases j <;> simp [Job.isAcquire, Job.isInit] at h ⊢

/-- `FilteredAcc()` goes on from one position to another, for the same command. -/
theorem State.FlagsFitPosition.filtered_goes_on {s t : State} {want : Want} (h : s.FlagsFitPosition)
    (hs : s.job.filteredFor = some want) (ht : t.job.filteredFor = some want)
    (hflags : t.busy = s.busy ∧ t.halt = s.halt ∧ t.phase = s.phase ∧ t.params = s.params) : t.FlagsFitPosition := by
  have hacq := Job.isAcquire_of_filteredFor hs
  obtain ⟨hb, hh⟩ := h.running (fun e => by simp [e, Job.filteredFor] at hs)
  obtain ⟨eb, eh, ep, eparams⟩ := hflags
  have hp : s.phase ≠ .initializing := by simp [h.phase_init, Job.not_isInit_of_isAcquire hacq]
  apply flagsFit_of_acquire (Job.isAcquire_of_filteredFor ht) (eb.trans hb) (eh.trans hh) (ep ▸ hp)
  · rw [eparams, ep]; exact h.guarded hacq
  · rw [eparams, ht, ← hs]; exact h.engine

theorem advance_flagsFit {s : State} (h : s.FlagsFitPosition) : (advance s).FlagsFitPosition := by
  have hacq : s.job.isAcquire = true → s.phase ≠ .initializing := fun hj => by
    simp [h.phase_init, Job.not_isInit_of_isAcquire hj]
  apply advance_elim (P := State.FlagsFitPosition) s h
  case softResetOk =>
    intro d rest hj _
    exact h.init_goes_on (by rw [hj]; rfl) rfl ⟨rfl, rfl, rfl⟩ (fun b hb => by simp at hb)
  case settled =>
    intro n hj _
    exact h.init_goes_on (by rw [hj]; rfl) rfl ⟨rfl, rfl, rfl⟩ (fun b hb => by cases hb; rfl)
  case control1Ok =>
    intro b d rest hj _
    exact h.init_goes_on (by rw [hj]; rfl) rfl ⟨rfl, rfl, rfl⟩ (fun b hb => by simp at hb)
  case sampleOk =>
    intro want d rest hj _
    exact h.filtered_goes_on (want := want) (by rw [hj]; rfl) rfl ⟨rfl, rfl, rfl, rfl⟩
  case again =>
    intro want n hj _ _
    exact h.filtered_goes_on (want := want) (by rw [hj]; rfl) rfl ⟨rfl, rfl, rfl, rfl⟩
  case finish =>
    intro want n hj _ _
    cases want <;> exact flagsFit_of_idle rfl rfl (hacq (by rw [hj]; rfl))
  case rawOk => exact fun _ _ hj _ => flagsFit_of_idle rfl rfl (hacq (by rw [hj]; rfl))
  case rawErr => exact fun _ hj _ => flagsFit_of_idle rfl rfl (hacq (by rw [hj]; rfl))
  case sampleErr => exact fun _ _ hj _ => flagsFit_of_idle rfl rfl (hacq (by rw [hj]; rfl))
  all_goals
    intros
    exact flagsFit_of_idle rfl rfl (by simp)

theorem runCommand_flagsFit {s : State} (h : s.FlagsFitPosition) : (runCommand s).FlagsFitPosition :=
  run_induct (P := State.FlagsFitPosition) (fun _ => advance_flagsFit) h maxEvents

/-- A command starts in an idle block, so `PHASE` is not `Initializing`. -/
theorem exec_command_flagsFit {w : CmdWord} {s t : State} (hexec : exec (decodeCommand w) s = .next t)
    (hp : s.phase ≠ .initializing) : t.FlagsFitPosition := by
  have hguard : notReady s = false → s.params.guardNotReady = true → s.phase = .ready := by simp [notReady]
  apply exec_command_elim (P := State.FlagsFitPosition) hexec
  case init =>
    intro _ hh _
    exact runCommand_flagsFit (flagsFit_of_init rfl rfl hh rfl (fun b hb => by simp at hb))
  case raw =>
    intro _ hh hn
    exact runCommand_flagsFit (flagsFit_of_acquire rfl rfl hh hp (hguard hn) (fun hw => by simp [Job.filteredFor] at hw))
  case gauss =>
    intro _ hh hn
    exact runCommand_flagsFit (flagsFit_of_acquire rfl rfl hh hp (hguard hn) (fun hw => by simp [Job.filteredFor] at hw))
  case heading =>
    intro _ hh hn hengine
    exact runCommand_flagsFit (flagsFit_of_acquire rfl rfl hh hp (hguard hn) (fun _ => hengine))
  all_goals
    intros
    exact flagsFit_of_idle rfl rfl hp

theorem State.FlagsFitPosition.idle {s : State} (h : s.FlagsFitPosition) (hb : s.busy = false) :
    s.job = .idle ∧ s.phase ≠ .initializing := by
  have hj : s.job = .idle := by simpa [hb] using h.busy_iff
  exact ⟨hj, by simp [h.phase_init, hj, Job.isInit]⟩

theorem step_flagsFit {s t : State} (h : s.FlagsFitPosition) (hstep : step s = .next t) : t.FlagsFitPosition := by
  obtain ⟨_, rfl⟩ | ⟨_, hb, w, rest, _, hexec⟩ | ⟨_, _, rfl⟩ := step_cases hstep
  · exact flagsFit_of_idle rfl rfl (by simp [resetBlock, State.reset])
  · exact exec_command_flagsFit hexec (h.idle hb).2
  · exact advance_flagsFit h

/-! ### The whole invariant -/

/-- Settles O45: each of the invariant's three parts is kept by every step. -/
theorem everyStepKeepsTheInvariant : Obligations.EveryStepKeepsTheInvariant := by
  intro s t h hstep
  have hwf : t.params.wf = true := by rw [step_params hstep]; exact h.params_wf
  obtain ⟨hmode, hrng⟩ := step_cfg_legal ⟨h.mode_legal, h.rng_legal⟩ hstep
  have hsums := step_sumsBounded (Params.accW_of_wf h.params_wf) h.sumsBounded hstep
  have hflags := step_flagsFit h.flagsFit hstep
  exact { hsums, hflags with params_wf := hwf, mode_legal := hmode, rng_legal := hrng }

end Sys2Proof.Machine
end

section
/-! Widening the accumulators (10_state.md R19, 42_acquisition.md R112): no sum of ten samples wraps in 20 bits or more, and
nothing else reads `ACC_W`. -/

namespace Sys2Proof.Machine

/-- `s` with accumulators of `w` bits. -/
def State.withAccW (w : Nat) (s : State) : State := { s with params := { s.params with accW := w } }

/-! ### What commutes with the width -/

theorem memWrite_withAccW (w : Nat) {reg val : Byte} {f g : State → State}
    (hf : ∀ u, f (u.withAccW w) = (f u).withAccW w) (hg : ∀ u, g (u.withAccW w) = (g u).withAccW w) (s : State) :
    memWrite reg val f g (s.withAccW w) = (memWrite reg val f g s).withAccW w := by
  rcases h : s.answers with _ | ⟨_ | _, rest⟩
  · rw [memWrite_unanswered h]; exact memWrite_unanswered h
  · rw [memWrite_ok h, ← hf]; exact memWrite_ok h
  · rw [memWrite_err h, ← hg]; exact memWrite_err h

/-- The continuations need to commute only where the read leaves the scratch registers and the parameters as they were. -/
theorem memRead_withAccW (w : Nat) {f : BitVec 48 → State → State} {g : State → State} (s : State)
    (hf : ∀ d u, u.params = s.params ∧ u.cnt = s.cnt ∧ u.accX = s.accX ∧ u.accY = s.accY ∧ u.accZ = s.accZ →
      f d (u.withAccW w) = (f d u).withAccW w)
    (hg : ∀ u, g (u.withAccW w) = (g u).withAccW w) :
    memRead f g (s.withAccW w) = (memRead f g s).withAccW w := by
  rcases h : s.answers with _ | ⟨_ | _, rest⟩
  · rw [memRead_unanswered h]; exact memRead_unanswered h
  · rw [memRead_ok h, ← hf]
    · exact memRead_ok h
    · exact ⟨rfl, rfl, rfl, rfl, rfl⟩
  · rw [memRead_err h, ← hg]; exact memRead_err h

theorem endDelay_withAccW (w : Nat) {f : State → State} (hf : ∀ u, f (u.withAccW w) = (f u).withAccW w) (s : State) :
    endDelay f (s.withAccW w) = (endDelay f s).withAccW w := by
  rcases h : s.timerEnds with _ | n
  · rw [endDelay_running h]; exact endDelay_running h
  · rw [endDelay_over h, ← hf]; exact endDelay_over h

/-- The mean, the scaler and the heading do not read `ACC_W`. -/
theorem nextSample_withAccW (w : Nat) (want : Want) (s : State) :
    nextSample want (s.withAccW w) = (nextSample want s).withAccW w := by
  by_cases hc : s.cnt.toNat < nSamples
  · rw [nextSample, nextSample, if_pos hc]; exact if_pos hc
  · rw [nextSample, nextSample, if_neg hc]
    cases want <;> exact if_neg hc

/-! ### The running command -/

/-- The sum of a sample and at most nine others is the same in every width of 20 or more. -/
theorem addSample_withAccW {w : Nat} {s : State} (hs : 20 ≤ s.params.accW) (hw : 20 ≤ w) (hc : s.cnt.toNat < nSamples)
    (hsum : SumOf s.cnt.toNat s.accX ∧ SumOf s.cnt.toNat s.accY ∧ SumOf s.cnt.toNat s.accZ) :
    addSample (s.withAccW w) = (addSample s).withAccW w := by
  have hacc : ∀ {acc : Int} (raw : Half), SumOf s.cnt.toNat acc →
      accumulate w acc raw = accumulate s.params.accW acc raw := fun raw h =>
    (accumulate_sum h hc hw raw).1.trans (accumulate_sum h hc hs raw).1.symm
  obtain ⟨hx, hy, hz⟩ := hsum
  simp only [addSample, State.withAccW, hacc _ hx, hacc _ hy, hacc _ hz]

theorem advance_withAccW {w : Nat} {s : State} (hs : 20 ≤ s.params.accW) (hw : 20 ≤ w) (h : s.SumsBounded) :
    advance (s.withAccW w) = (advance s).withAccW w := by
  cases hj : s.job with
  | idle => rw [advance_idle hj]; exact advance_idle hj
  | initReset =>
    rw [advance_initReset hj, advance_initReset (s := s.withAccW w) hj]
    apply memWrite_withAccW w <;> exact fun _ => rfl
  | initSettle =>
    rw [advance_initSettle hj, advance_initSettle (s := s.withAccW w) hj]
    apply endDelay_withAccW w; exact fun _ => rfl
  | initControl1 b =>
    rw [advance_initControl1 hj, advance_initControl1 (s := s.withAccW w) hj]
    apply memWrite_withAccW w <;> exact fun _ => rfl
  | initRollOver =>
    rw [advance_initRollOver hj, advance_initRollOver (s := s.withAccW w) hj]
    apply memWrite_withAccW w <;> exact fun _ => rfl
  | rawRead =>
    rw [advance_rawRead hj, advance_rawRead (s := s.withAccW w) hj]
    exact memRead_withAccW w s (fun _ _ _ => rfl) (fun _ => rfl)
  | sample want =>
    rw [advance_sample hj, advance_sample (s := s.withAccW w) hj]
    refine memRead_withAccW w s (fun d u hu => ?_) (fun _ => rfl)
    obtain ⟨hp, hc, hx, hy, hz⟩ := hu
    have hadd : addSample ((latchRaw d u).withAccW w) = (addSample (latchRaw d u)).withAccW w := by
      apply addSample_withAccW (by simpa [hp] using hs) hw
      · simpa [hc] using h.cnt_sample want hj
      · simpa [hc, hx, hy, hz] using h.acc_sum (by simp [hj, Job.filteredFor])
    exact congrArg (beginDelay tGap (.gap want)) hadd
  | gap want =>
    rw [advance_gap hj, advance_gap (s := s.withAccW w) hj]
    exact endDelay_withAccW w (nextSample_withAccW w want) s

theorem run_withAccW {w : Nat} (hw : 20 ≤ w) (n : Nat) {s : State} (hs : 20 ≤ s.params.accW) (h : s.SumsBounded) :
    run n (s.withAccW w) = (run n s).withAccW w := by
  induction n generalizing s with
  | zero => rfl
  | succ n ih =>
    rw [run, run, advance_withAccW hs hw h]
    exact ih (by rw [advance_params]; exact hs) (advance_sumsBounded hs h)

/-! ### `READ` and `HEAD` -/

/-- The checks of an acquisition do not read `ACC_W`, and a filtered read starts from zero sums. -/
theorem acquire_filtered_withAccW {w : Nat} (hw : 20 ≤ w) (illegal : Bool) (want : Want) {s : State}
    (hs : 20 ≤ s.params.accW) : acquire illegal (beginFiltered want) (s.withAccW w) =
      (acquire illegal (beginFiltered want) s).withAccW w := by
  have hrun : runCommand (beginFiltered want (s.withAccW w)) = (runCommand (beginFiltered want s)).withAccW w :=
    run_withAccW hw maxEvents (s := beginFiltered want s) hs (sumsBounded_beginFiltered want s)
  have hhalt : (s.withAccW w).halt = s.halt := rfl
  have hguard : notReady (s.withAccW w) = notReady s := rfl
  rw [acquire, acquire, hhalt, hguard, hrun]
  split_ifs <;> rfl

/-- Settles O32: the run of a filtered read commutes with the width (`run_withAccW`), since no sum of ten samples wraps. -/
theorem accumulatorWidthDoesNotMatter : Obligations.AccumulatorWidthDoesNotMatter := by
  rintro s t i arg w hi hs hw hexec
  have hs' : 20 ≤ (accept s).params.accW := hs.ge
  obtain rfl | rfl := hi <;> cases hexec
  · exact congrArg _ (acquire_filtered_withAccW hw (arg != 0#16) .gauss hs')
  · exact congrArg _ (acquire_filtered_withAccW hw (arg != 0#16 || !s.params.hasHeading) .heading hs')

end Sys2Proof.Machine
end

section
/-! How `PHASE` moves (10_state.md R14, 41_init.md R90, R93): the events `INIT` has appended so far tell where it is, and every
other command appends no write. -/

namespace Sys2Proof.Machine

open Sys2Proof.Claims

/-! ### Events that end `INIT` -/

/-- The third write of `INIT`, successful (41_init.md R90). -/
def rollOverOk (addr : Byte) : Event := .write addr 0x0A#8 0x40#8 .ok

/-- No event of `es` ends `INIT`: no failed write and no successful third write. -/
def EndsNoInit (addr : Byte) (es : List Event) : Prop := ∀ e ∈ es, e ≠ rollOverOk addr ∧ ¬ IsFailedWrite e

theorem endsNoInit_nil (addr : Byte) : EndsNoInit addr [] := fun _ he => by cases he

theorem EndsNoInit.append {addr : Byte} {es fs : List Event} (hes : EndsNoInit addr es) (hfs : EndsNoInit addr fs) :
    EndsNoInit addr (es ++ fs) := fun e he => (List.mem_append.mp he).elim (hes e) (hfs e)

theorem endsNoInit_read (addr a reg : Byte) (len : Nat) (res : ReadResult) : EndsNoInit addr [.read a reg len res] := by
  simp [EndsNoInit, rollOverOk, IsFailedWrite]

theorem endsNoInit_delay (addr : Byte) (ms : Nat) : EndsNoInit addr [.delay ms] := by
  simp [EndsNoInit, rollOverOk, IsFailedWrite]

/-- The first and the second write of `INIT`, successful. -/
theorem endsNoInit_write {reg val : Byte} (h : val ≠ 0x40#8 ∨ reg ≠ 0x0A#8) (addr a : Byte) :
    EndsNoInit addr [.write a reg val .ok] := by
  simp [EndsNoInit, rollOverOk, IsFailedWrite]
  tauto

theorem not_isFailedWrite_rollOverOk (addr : Byte) : ¬ IsFailedWrite (rollOverOk addr) := by
  simp [rollOverOk, IsFailedWrite]

/-! ### How far `INIT` has come -/

/-- How far an `INIT` has come that found the history `h` before it: still running, completed by its third write, or ended by
a write that failed. -/
inductive InitProgress (h : List Event) (addr : Byte) (u : State) : Prop
  | running (es : List Event) (hist : u.history = h ++ es) (quiet : EndsNoInit addr es)
      (phase : u.phase = .initializing) (position : u.job.isInit = true) (busy : u.busy = true)
  | completed (es : List Event) (hist : u.history = h ++ (es ++ [rollOverOk addr])) (quiet : EndsNoInit addr es)
      (phase : u.phase = .ready) (position : u.job = .idle) (busy : u.busy = false)
  | failed (es : List Event) (e : Event) (hist : u.history = h ++ (es ++ [e])) (quiet : EndsNoInit addr es)
      (fails : IsFailedWrite e) (phase : u.phase = .uninitialized) (position : u.job = .idle) (busy : u.busy = false)

theorem initProgress_failedWrite {h es : List Event} {addr : Byte} {u : State} (hist : u.history = h ++ es)
    (quiet : EndsNoInit addr es) (a reg val : Byte) :
    InitProgress h addr (initFail (logEvent (.write a reg val .err) u)) :=
  .failed es (.write a reg val .err) (by simp [hist]) quiet rfl rfl rfl rfl

/-- Each event of `INIT` but a failed write and the successful third write leaves it running. -/
theorem InitProgress.advance {h : List Event} {u : State} (hu : InitProgress h u.params.busAddr u) :
    InitProgress h u.params.busAddr (advance u) := by
  obtain ⟨es, hist, quiet, phase, position, busy⟩ | ⟨_, _, _, _, position, _⟩ | ⟨_, _, _, _, _, _, position, _⟩ := id hu
  case completed => rw [advance_idle position]; exact hu
  case failed => rw [advance_idle position]; exact hu
  apply advance_elim (P := InitProgress h u.params.busAddr) u hu
  case softResetOk =>
    intro d rest _ _
    have hwrite := endsNoInit_write (reg := regControl2) (val := softResetByte) (by decide)
    have hevents := (hwrite u.params.busAddr u.params.busAddr).append (endsNoInit_delay u.params.busAddr tSettle)
    exact .running _ (by simp [hist]) (quiet.append hevents) phase rfl busy
  case settled => exact fun n _ _ => .running es hist quiet phase rfl busy
  case control1Ok =>
    intro b d rest _ _
    have hwrite := endsNoInit_write (reg := regControl1) (val := b) (.inr (by decide))
    exact .running _ (by simp [hist]) (quiet.append (hwrite u.params.busAddr u.params.busAddr)) phase rfl busy
  case rollOverOk => exact fun d rest _ _ => .completed es (by simp [hist]; rfl) quiet rfl rfl rfl
  case softResetErr => exact fun rest _ _ => initProgress_failedWrite (by exact hist) quiet _ _ _
  case control1Err => exact fun b rest _ _ => initProgress_failedWrite (by exact hist) quiet _ _ _
  case rollOverErr => exact fun rest _ _ => initProgress_failedWrite (by exact hist) quiet _ _ _
  all_goals intros; simp_all [Job.isInit]

theorem InitProgress.runCommand {h : List Event} {u : State} (hu : InitProgress h u.params.busAddr u) :
    InitProgress h u.params.busAddr (runCommand u) := by
  have hstep : ∀ v : State, v.params = u.params ∧ InitProgress h u.params.busAddr v →
      (Machine.advance v).params = u.params ∧ InitProgress h u.params.busAddr (Machine.advance v) := by
    rintro v ⟨hp, hv⟩
    rw [← hp] at hv ⊢
    exact ⟨advance_params v, hv.advance⟩
  exact (run_induct hstep ⟨rfl, hu⟩ maxEvents).2

/-- The events of an `INIT` tell how it ended. -/
theorem InitProgress.event_tells_phase {h es : List Event} {addr : Byte} {u : State} {e : Event}
    (hu : InitProgress h addr u) (hist : u.history = h ++ es) (he : e ∈ es) :
    (e = rollOverOk addr → u.phase = .ready) ∧ (IsFailedWrite e → u.phase = .uninitialized) := by
  obtain ⟨fs, hist', quiet, _, _, _⟩ | ⟨fs, hist', quiet, phase, _, _⟩ | ⟨fs, f, hist', quiet, fails, phase, _, _⟩ := hu
    <;> cases List.append_cancel_left (hist.symm.trans hist')
  case running => exact ⟨fun h => absurd h (quiet e he).1, fun h => absurd h (quiet e he).2⟩
  case completed =>
    refine ⟨fun _ => phase, fun hf => ?_⟩
    obtain he | he := List.mem_append.mp he
    · exact absurd hf (quiet e he).2
    · rw [List.mem_singleton.mp he] at hf
      exact absurd hf (not_isFailedWrite_rollOverOk addr)
  case failed =>
    refine ⟨fun hr => ?_, fun _ => phase⟩
    obtain he | he := List.mem_append.mp he
    · exact absurd hr (quiet e he).1
    · rw [← List.mem_singleton.mp he, hr] at fails
      exact absurd fails (not_isFailedWrite_rollOverOk addr)

/-! ### What is no `INIT` -/

/-- What is no `INIT` leaves `PHASE` alone and appends no event that ends one. -/
structure LeavesPhase (s u : State) : Prop where
  phase : u.phase = s.phase
  quiet : ∃ es, u.history = s.history ++ es ∧ EndsNoInit s.params.busAddr es
  position : u.job.isInit = false

/-- A further move that appends the events `fs`. -/
theorem LeavesPhase.extend {s u t : State} (hu : LeavesPhase s u) {fs : List Event} (hist : t.history = u.history ++ fs)
    (quiet : EndsNoInit s.params.busAddr fs) (phase : t.phase = u.phase) (position : t.job.isInit = false) :
    LeavesPhase s t := by
  obtain ⟨phase', ⟨es, hist', quiet'⟩, _⟩ := hu
  exact ⟨phase.trans phase', ⟨es ++ fs, by rw [hist, hist', List.append_assoc], quiet'.append quiet⟩, position⟩

theorem LeavesPhase.refl {s : State} (h : s.job.isInit = false) : LeavesPhase s s :=
  ⟨rfl, ⟨[], by simp, endsNoInit_nil _⟩, h⟩

/-- Block reads and the delays between them end no `INIT`. -/
theorem LeavesPhase.advance {s u : State} (hu : LeavesPhase s u) : LeavesPhase s (advance u) := by
  have position := hu.position
  apply advance_elim (P := LeavesPhase s) u hu
  case rawOk => exact fun _ _ _ _ => hu.extend rfl (endsNoInit_read _ _ _ _ _) rfl rfl
  case rawErr => exact fun _ _ _ => hu.extend rfl (endsNoInit_read _ _ _ _ _) rfl rfl
  case sampleErr => exact fun _ _ _ _ => hu.extend rfl (endsNoInit_read _ _ _ _ _) rfl rfl
  case sampleOk =>
    intro want d rest _ _
    have hread := endsNoInit_read s.params.busAddr u.params.busAddr regXOut blockLen (.ok (blockBytes d))
    exact hu.extend (by simp) (hread.append (endsNoInit_delay s.params.busAddr tGap)) rfl rfl
  case again => exact fun _ _ _ _ _ => hu.extend (List.append_nil _).symm (endsNoInit_nil _) rfl rfl
  case finish =>
    intro want n _ _ _
    cases want <;> exact hu.extend (List.append_nil _).symm (endsNoInit_nil _) rfl rfl
  all_goals intros; simp_all [Job.isInit]

theorem LeavesPhase.runCommand {s u : State} (hu : LeavesPhase s u) : LeavesPhase s (runCommand u) :=
  run_induct (P := LeavesPhase s) (fun _ => LeavesPhase.advance) hu maxEvents

/-! ### Commands and steps -/

/-- Executing `i` in `s` starts an `INIT`, which comes as far as `t`. -/
def StartsInit (i : Instr) (s t : State) : Prop :=
  i = .init 0#16 ∧ s.halt = false ∧ s.phase = .uninitialized ∧ InitProgress s.history s.params.busAddr t

theorem exec_command_phase {w : CmdWord} {s t : State} (h : exec (decodeCommand w) s = .next t) :
    LeavesPhase s t ∨ StartsInit (decodeCommand w) s t := by
  have unmoved : ∀ {u : State}, u.history = s.history → u.phase = s.phase → u.job.isInit = false → LeavesPhase s u :=
    fun hist phase position => ⟨phase, ⟨[], by simp [hist], endsNoInit_nil _⟩, position⟩
  have runs : ∀ {u : State}, u.history = s.history → u.phase = s.phase → u.job.isInit = false →
      LeavesPhase s (runCommand u) :=
    fun hist phase position => (unmoved hist phase position).runCommand
  apply exec_command_elim (P := fun t => LeavesPhase s t ∨ StartsInit (decodeCommand w) s t) h
  case init =>
    intro hi hh hp
    have hstart : InitProgress s.history s.params.busAddr (enterInit .initReset (accept s)) :=
      .running [] (by simp) (endsNoInit_nil _) rfl rfl rfl
    have hrun := InitProgress.runCommand (u := enterInit .initReset (accept s)) hstart
    exact .inr ⟨hi, hh, hp, hrun⟩
  case raw => exact fun _ _ _ => .inl (runs rfl rfl rfl)
  case gauss => exact fun _ _ _ => .inl (runs rfl rfl rfl)
  case heading => exact fun _ _ _ _ => .inl (runs rfl rfl rfl)
  all_goals
    intros
    exact .inl (unmoved rfl rfl rfl)

theorem step_phase {s t : State} (h : s.Inv) (hr : s.rst = false) (hstep : step s = .next t) :
    LeavesPhase s t ∨
    (s.phase = .initializing ∧ s.busy = true ∧ InitProgress s.history s.params.busAddr t) ∨
    (s.busy = false ∧ ∃ w rest, s.cmds = w :: rest ∧ StartsInit (decodeCommand w) s t) := by
  obtain ⟨hr', _⟩ | ⟨_, hb, w, rest, hc, hexec⟩ | ⟨_, _, rfl⟩ := step_cases hstep
  · simp [hr] at hr'
  · obtain ⟨phase, quiet, position⟩ | hinit := exec_command_phase hexec
    · exact .inl ⟨phase, quiet, position⟩
    · exact .inr (.inr ⟨hb, w, rest, hc, hinit⟩)
  · cases hj : s.job.isInit
    · exact .inl (LeavesPhase.refl hj).advance
    · have hp := h.phase_init.mpr hj
      have hb := h.busy_iff.mpr (fun e => by simp [e, Job.isInit] at hj)
      have hstart : InitProgress s.history s.params.busAddr s := .running [] (by simp) (endsNoInit_nil _) hp hj hb
      exact .inr (.inl ⟨hp, hb, hstart.advance⟩)

/-- `PHASE` tells how far an `INIT` has come: `BUSY`, and the last event where it is over. -/
theorem InitProgress.phase_tells_history {h : List Event} {addr : Byte} {u : State} (hu : InitProgress h addr u) :
    (u.phase = .initializing → u.busy = true) ∧
    (u.phase = .ready → u.busy = false ∧ ∃ es, u.history = h ++ es ++ [rollOverOk addr]) ∧
    (u.phase = .uninitialized → u.busy = false ∧ ∃ es e, u.history = h ++ es ++ [e] ∧ IsFailedWrite e) := by
  obtain ⟨es, hist, _, phase, _, busy⟩ | ⟨es, hist, _, phase, _, busy⟩ | ⟨es, e, hist, _, fails, phase, _, busy⟩ := hu
  case running => simp [phase, busy]
  case completed => simp [phase, busy, hist]
  case failed => simpa [phase, busy, hist] using fails

/-- An `INIT` that is not running any more has left `Initializing` for one of its two ends. -/
theorem InitProgress.over {h : List Event} {addr : Byte} {u : State} (hu : InitProgress h addr u)
    (hne : u.phase ≠ .initializing) : u.busy = false ∧ (u.phase = .ready ∨ u.phase = .uninitialized) := by
  obtain ⟨_, _, _, phase, _, _⟩ | ⟨_, _, _, phase, _, busy⟩ | ⟨_, _, _, _, _, phase, _, busy⟩ := hu
  case running => exact absurd phase hne
  case completed => exact ⟨busy, .inl phase⟩
  case failed => exact ⟨busy, .inr phase⟩

/-- Settles O48: a step leaves `PHASE` alone, lets a running `INIT` go on, or starts one (`step_phase`), and how far an
`INIT` has come (`InitProgress`) ties `PHASE` to the events. -/
theorem phaseMovesOnlyAsDrawn : Obligations.PhaseMovesOnlyAsDrawn := by
  intro s t h hr hstep
  obtain ⟨phase, ⟨fs, hist, quiet⟩, _⟩ | ⟨hs, hb, hprog⟩ | ⟨hb, w, rest, hc, hi, hh, hs, hprog⟩ := step_phase h hr hstep
  · refine ⟨fun hne => absurd phase hne, fun es e hes he => ?_⟩
    cases List.append_cancel_left (hes.symm.trans hist)
    exact ⟨fun e' => absurd e' (quiet e he).1, fun hf => absurd hf (quiet e he).2⟩
  · obtain ⟨-, hready, hun⟩ := hprog.phase_tells_history
    refine ⟨fun hne => ⟨by simp [hs], by simp [hs], fun _ => ⟨hb, hprog.over (hs ▸ hne)⟩, fun ht => ?_,
      fun ht => (hready ht).2, fun ht => (hun ht).2⟩, fun es e => hprog.event_tells_phase⟩
    exact absurd (ht.trans hs.symm) hne
  · obtain ⟨hrun, hready, hun⟩ := hprog.phase_tells_history
    exact ⟨fun hne => ⟨by simp [hs], fun _ => ⟨hb, hh, w, rest, hc, hi⟩, by simp [hs], fun ht => ⟨hs, hrun ht⟩,
      fun ht => (hready ht).2, fun ht => (hun ht).2⟩, fun es e => hprog.event_tells_phase⟩

end Sys2Proof.Machine
end

section
/-! The numbers the host sees (10_state.md R14, R23; 30_encoding.md R58, R61). -/

namespace Sys2Proof.Machine

theorem phase_codes : [Phase.uninitialized, .initializing, .ready].map Phase.code = [0#2, 1#2, 2#2] := rfl

theorem status_codes : [Status.ok, .invalidConfiguration, .busError, .notReady, .seqError, .illegalCmd, .halted,
    .reservedEncoding].map Status.code = [0#4, 1#4, 2#4, 3#4, 4#4, 5#4, 6#4, 7#4] := rfl

/-- Settles O4: the two code tables, and the outputs as they are defined. -/
theorem outputsShowTheSpecifiedNumbers : Obligations.OutputsShowTheSpecifiedNumbers :=
  ⟨phase_codes, status_codes, fun _ => ⟨rfl, rfl, rfl, rfl⟩⟩

end Sys2Proof.Machine
end

section
/-! What the bus sees (20_memory.md R36, 60_exceptions.md R152): each event the running command appends is one of the four
listed accesses or of the two delays, and so is the event a transaction leaves that reset abandons. -/

namespace Sys2Proof.Machine

open Sys2Proof.Claims

/-! ### The listed accesses -/

@[simp] theorem listed_softReset (p : Params) (res : WriteResult) :
    Listed p (.write p.busAddr regControl2 softResetByte res) := ⟨rfl, .inl ⟨rfl, rfl⟩⟩

@[simp] theorem listed_control1 {b : Byte} (h : b &&& 0x22#8 = 0#8) (p : Params) (res : WriteResult) :
    Listed p (.write p.busAddr regControl1 b res) := ⟨rfl, .inr (.inl ⟨rfl, h⟩)⟩

@[simp] theorem listed_rollOver (p : Params) (res : WriteResult) :
    Listed p (.write p.busAddr regControl2 rollOverByte res) := ⟨rfl, .inr (.inr ⟨rfl, rfl⟩)⟩

@[simp] theorem listed_blockRead (p : Params) (res : ReadResult) :
    Listed p (.read p.busAddr regXOut blockLen res) := ⟨rfl, rfl, rfl⟩

@[simp] theorem listed_settle (p : Params) : Listed p (.delay tSettle) := .inl rfl

@[simp] theorem listed_gap (p : Params) : Listed p (.delay tGap) := .inr rfl

/-- A legal `CFG` has a Control-1 image with both reserved bits 0 (40_codec.md R73). -/
theorem Cfg.Legal.image_reserved_bits {c : Cfg} (h : c.Legal) : ctrl1Image c &&& 0x22#8 = 0#8 := by
  obtain ⟨mode, odr, rng, osr⟩ := c
  obtain ⟨hmode, hrng⟩ := h
  have himage : ∀ osr rng odr mode : BitVec 2, mode.toNat ≤ 1 → rng.toNat ≤ 1 →
      packControl1 osr rng odr mode &&& 0x22#8 = 0#8 := by decide
  exact himage osr rng odr mode hmode hrng

/-! ### The running command -/

/-- The history of `u` is `h` and listed events after it. -/
def AppendsListed (p : Params) (h : List Event) (u : State) : Prop :=
  ∃ es : List Event, u.history = h ++ es ∧ ∀ e ∈ es, Listed p e

theorem appendsListed_of_unchanged {p : Params} {h : List Event} {u : State} (hist : u.history = h) :
    AppendsListed p h u := ⟨[], by simp [hist], by simp⟩

theorem AppendsListed.trans {p : Params} {h : List Event} {u t : State} (hu : AppendsListed p h u)
    (ht : AppendsListed p u.history t) : AppendsListed p h t := by
  obtain ⟨es, hist, listed⟩ := hu
  obtain ⟨fs, hist', listed'⟩ := ht
  exact ⟨es ++ fs, by rw [hist', hist, List.append_assoc], List.forall_mem_append.mpr ⟨listed, listed'⟩⟩

/-- The Control-1 byte in flight, and the one `INIT` would take from `CFG`, are legal (30_encoding.md R64). -/
structure State.WritesLegal (s : State) : Prop where
  cfg : s.cfg.Legal
  in_flight : ∀ b, s.job = .initControl1 b → b &&& 0x22#8 = 0#8

theorem State.Inv.writesLegal {s : State} (h : s.Inv) : s.WritesLegal where
  cfg := ⟨h.mode_legal, h.rng_legal⟩
  in_flight b hb := by
    rw [h.control1_image b hb]
    exact Cfg.Legal.image_reserved_bits ⟨h.mode_legal, h.rng_legal⟩

/-- The byte `INIT` puts in flight after the settle delay is the image of `CFG` (41_init.md R91). -/
theorem State.WritesLegal.advance {s : State} (h : s.WritesLegal) : (advance s).WritesLegal where
  cfg := by rw [advance_cfg]; exact h.cfg
  in_flight := by
    apply advance_elim (P := fun t => ∀ b, t.job = .initControl1 b → b &&& 0x22#8 = 0#8) s h.in_flight
    case settled =>
      intro n _ _ b hb
      cases hb
      exact h.cfg.image_reserved_bits
    case finish => intro want n _ _ _; cases want <;> simp [finishFiltered]
    all_goals simp

/-- Each event of the running command is listed: `INIT`'s three writes and its delay, a block read and the delay after it. -/
theorem advance_appendsListed {s : State} (h : s.WritesLegal) : AppendsListed s.params s.history (advance s) := by
  apply advance_elim (P := AppendsListed s.params s.history) s (appendsListed_of_unchanged rfl)
  case control1Ok => exact fun b d rest hj _ => ⟨_, rfl, by simp [h.in_flight b hj]⟩
  case control1Err => exact fun b rest hj _ => ⟨_, rfl, by simp [h.in_flight b hj]⟩
  case softResetOk => exact fun d rest _ _ => ⟨_, List.append_assoc _ _ _, by simp⟩
  case sampleOk => exact fun want d rest _ _ => ⟨_, List.append_assoc _ _ _, by simp⟩
  case settled => exact fun n _ _ => appendsListed_of_unchanged rfl
  case again => exact fun want n _ _ _ => appendsListed_of_unchanged rfl
  case finish => exact fun want n _ _ _ => by cases want <;> exact appendsListed_of_unchanged rfl
  all_goals
    intros
    exact ⟨_, rfl, by simp⟩

theorem runCommand_appendsListed {s : State} (h : s.WritesLegal) : AppendsListed s.params s.history (runCommand s) := by
  have hstep : ∀ u : State, u.params = s.params ∧ u.WritesLegal ∧ AppendsListed s.params s.history u →
      (advance u).params = s.params ∧ (advance u).WritesLegal ∧ AppendsListed s.params s.history (advance u) :=
    fun u ⟨hp, hw, hu⟩ => ⟨(advance_params u).trans hp, hw.advance, hu.trans (hp ▸ advance_appendsListed hw)⟩
  obtain ⟨-, -, hrun⟩ := run_induct hstep ⟨rfl, h, appendsListed_of_unchanged rfl⟩ maxEvents
  exact hrun

/-! ### Commands, reset and the step -/

/-- A command starts its run on the bus with no Control-1 byte in flight. -/
theorem exec_command_appendsListed {w : CmdWord} {s t : State} (hexec : exec (decodeCommand w) s = .next t)
    (hc : s.cfg.Legal) : AppendsListed s.params s.history t := by
  have runs : ∀ {u : State}, u.params = s.params → u.history = s.history → u.cfg = s.cfg →
      (∀ b, u.job ≠ .initControl1 b) → AppendsListed s.params s.history (runCommand u) := by
    intro u hparams hist hcfg hjob
    rw [← hparams, ← hist]
    exact runCommand_appendsListed ⟨hcfg ▸ hc, fun b hb => absurd hb (hjob b)⟩
  apply exec_command_elim (P := AppendsListed s.params s.history) hexec
  case init => exact fun _ _ _ => runs rfl rfl rfl (by simp)
  case raw => exact fun _ _ _ => runs rfl rfl rfl (by simp)
  case gauss => exact fun _ _ _ => runs rfl rfl rfl (by simp)
  case heading => exact fun _ _ _ _ => runs rfl rfl rfl (by simp)
  all_goals
    intros
    exact appendsListed_of_unchanged rfl

/-- A transaction in flight is a listed access, however it ends (70_reset_and_hazards.md R163). -/
theorem listed_abandoned {s : State} {req : BusReq} (h : s.WritesLegal) (hreq : s.busRequest = some req) :
    Listed s.params req.abandoned := by
  cases hj : s.job <;> simp only [State.busRequest, hj, Option.some.injEq, reduceCtorEq] at hreq <;> subst hreq
  case initReset => exact listed_softReset _ _
  case initControl1 b => exact listed_control1 (h.in_flight b hj) _ _
  case initRollOver => exact listed_rollOver _ _
  case rawRead => exact listed_blockRead _ _
  case sample => exact listed_blockRead _ _

theorem resetBlock_appendsListed {s : State} (h : s.WritesLegal) : AppendsListed s.params s.history (resetBlock s) := by
  cases hreq : s.busRequest with
  | none => exact appendsListed_of_unchanged (by simp [resetBlock, hreq])
  | some req => exact ⟨[req.abandoned], by simp [resetBlock, hreq], by simpa using listed_abandoned h hreq⟩

/-- Settles O50: each of the three things a step can do (`step_cases`) appends listed events only, since the invariant
makes the Control-1 bytes legal (`State.Inv.writesLegal`). -/
theorem busSeesOnlyTheListedAccesses : Obligations.BusSeesOnlyTheListedAccesses := by
  intro s t h hstep
  have hw := h.writesLegal
  obtain ⟨_, rfl⟩ | ⟨_, _, w, rest, _, hexec⟩ | ⟨_, _, rfl⟩ := step_cases hstep
  · exact resetBlock_appendsListed hw
  · have hcommand := exec_command_appendsListed hexec hw.cfg
    exact hcommand
  · exact advance_appendsListed hw

end Sys2Proof.Machine
end

section
/-! The encodings (30_encoding.md R50, R56, R58, R59, R63, R64): a command word is its two fields, or the fixed and the free
bits of a reserved opcode, a Control-1 byte is its four codes; so decoding and encoding undo each other. -/

namespace Sys2Proof

/-! ### The fields of a command word -/

theorem packCommand_fields (w : CmdWord) : packCommand (opOf w) (argOf w) = w :=
  (BitVec.extractLsb'_append_extractLsb'_eq_extractLsb' rfl).trans BitVec.extractLsb'_eq_self

theorem packCommand_of_op {w : CmdWord} {op : BitVec 4} (h : (opOf w).toNat = op.toNat) :
    packCommand op (argOf w) = w := by
  rw [← BitVec.eq_of_toNat_eq h]
  exact packCommand_fields w

/-- The fixed bits 101 of a word are the opcodes 0xA and 0xB. -/
theorem fixedBits_reservedAB_iff (w : CmdWord) :
    w.extractLsb' 17 3 = 0b101#3 ↔ (opOf w).toNat = 10 ∨ (opOf w).toNat = 11 := by
  rw [← BitVec.toNat_inj]
  simp only [opOf, BitVec.extractLsb'_toNat, Nat.shiftRight_eq_div_pow, BitVec.toNat_ofNat]
  omega

/-- The fixed bits 11 of a word are the opcodes 0xC to 0xF. -/
theorem fixedBits_reservedCF_iff (w : CmdWord) : w.extractLsb' 18 2 = 0b11#2 ↔ 12 ≤ (opOf w).toNat := by
  rw [← BitVec.toNat_inj]
  simp only [opOf, BitVec.extractLsb'_toNat, Nat.shiftRight_eq_div_pow, BitVec.toNat_ofNat]
  omega

theorem append_reservedAB {w : CmdWord} (h : (opOf w).toNat = 10 ∨ (opOf w).toNat = 11) :
    (0b101#3 ++ w.extractLsb' 0 17 : BitVec (3 + 17)) = w := by
  rw [← (fixedBits_reservedAB_iff w).mpr h]
  exact (BitVec.extractLsb'_append_extractLsb'_eq_extractLsb' rfl).trans BitVec.extractLsb'_eq_self

theorem append_reservedCF {w : CmdWord} (h : 12 ≤ (opOf w).toNat) :
    (0b11#2 ++ w.extractLsb' 0 18 : BitVec (2 + 18)) = w := by
  rw [← (fixedBits_reservedCF_iff w).mpr h]
  exact (BitVec.extractLsb'_append_extractLsb'_eq_extractLsb' rfl).trans BitVec.extractLsb'_eq_self

/-! ### Command words -/

theorem decodeCommand_of_reservedAB {w : CmdWord} (h : (opOf w).toNat = 10 ∨ (opOf w).toNat = 11) :
    decodeCommand w = .reservedAB (w.extractLsb' 0 17) := by
  obtain h | h := h <;> simp only [decodeCommand, h]

theorem decodeCommand_of_reservedCF {w : CmdWord} (h : 12 ≤ (opOf w).toNat) :
    decodeCommand w = .reservedCF (w.extractLsb' 0 18) := by
  unfold decodeCommand
  split
  case h_13 => rfl
  all_goals omega

theorem decodeCommand_append_reservedAB (low : BitVec 17) :
    decodeCommand (0b101#3 ++ low : BitVec (3 + 17)) = .reservedAB low := by
  have hop := (fixedBits_reservedAB_iff (0b101#3 ++ low : BitVec (3 + 17))).mp BitVec.extractLsb'_append_eq_left
  exact (decodeCommand_of_reservedAB hop).trans (congrArg _ BitVec.extractLsb'_append_eq_right)

theorem decodeCommand_append_reservedCF (low : BitVec 18) :
    decodeCommand (0b11#2 ++ low : BitVec (2 + 18)) = .reservedCF low := by
  have hop := (fixedBits_reservedCF_iff (0b11#2 ++ low : BitVec (2 + 18))).mp BitVec.extractLsb'_append_eq_left
  exact (decodeCommand_of_reservedCF hop).trans (congrArg _ BitVec.extractLsb'_append_eq_right)

theorem encode_decodeCommand (w : CmdWord) : encode (decodeCommand w) = .command w := by
  unfold decodeCommand
  split
  case h_11 h => exact congrArg Wire.command (append_reservedAB (.inl h))
  case h_12 h => exact congrArg Wire.command (append_reservedAB (.inr h))
  case h_13 =>
    simp only [imp_false] at *
    exact congrArg Wire.command (append_reservedCF (by omega))
  all_goals
    next h => exact congrArg Wire.command (packCommand_of_op h)

/-! ### Control bytes -/

/-- What the control bytes decode to (30_encoding.md R50, R56, R64). -/
theorem decodeControl_eq_ok_iff {reg val : Byte} {i : Instr} : decodeControl reg val = .ok i ↔
    (reg = 0x09#8 ∧ val &&& 0x22#8 = 0#8 ∧
      i = .ctrl1Byte (val.extractLsb' 6 2) (val.extractLsb' 4 2) (val.extractLsb' 2 2) (val.extractLsb' 0 2)) ∨
    (reg = 0x0A#8 ∧ val = 0x80#8 ∧ i = .ctrl2SoftReset) ∨ (reg = 0x0A#8 ∧ val = 0x40#8 ∧ i = .ctrl2RollOver) := by
  unfold decodeControl
  split_ifs <;> simp_all [eq_comm]

/-- Legal codes leave both reserved bits of the Control-1 byte 0, and each code stands in its field. -/
theorem packControl1_legal (osr rng odr mode : BitVec 2) (hr : rng.toNat ≤ 1) (hm : mode.toNat ≤ 1) :
    packControl1 osr rng odr mode &&& 0x22#8 = 0#8 ∧ (packControl1 osr rng odr mode).extractLsb' 6 2 = osr ∧
      (packControl1 osr rng odr mode).extractLsb' 4 2 = rng ∧ (packControl1 osr rng odr mode).extractLsb' 2 2 = odr ∧
      (packControl1 osr rng odr mode).extractLsb' 0 2 = mode := by
  revert osr rng odr mode
  decide

theorem decodeControl_packControl1 {osr rng odr mode : BitVec 2} (hr : rng.toNat ≤ 1) (hm : mode.toNat ≤ 1) :
    decodeControl 0x09#8 (packControl1 osr rng odr mode) = .ok (.ctrl1Byte osr rng odr mode) := by
  obtain ⟨hlegal, hosr, hrng, hodr, hmode⟩ := packControl1_legal osr rng odr mode hr hm
  exact decodeControl_eq_ok_iff.mpr (.inl ⟨rfl, hlegal, by rw [hosr, hrng, hodr, hmode]⟩)

/-! ### Both directions -/

/-- Settles O11: the fields of a packed word read back, the fixed bits of a reserved opcode leave its free bits, and legal
codes stand in their fields of the Control-1 byte. -/
theorem decodeOfEncodeIsTheInstruction : Obligations.DecodeOfEncodeIsTheInstruction := by
  intro i hwf
  cases i
  case reservedAB low => exact congrArg Except.ok (decodeCommand_append_reservedAB low)
  case reservedCF low => exact congrArg Except.ok (decodeCommand_append_reservedCF low)
  case ctrl1Byte osr rng odr mode =>
    obtain ⟨hr, hm⟩ : rng.toNat ≤ 1 ∧ mode.toNat ≤ 1 := by simpa [Instr.wellFormed] using hwf
    exact decodeControl_packControl1 hr hm
  case ctrl2SoftReset => rfl
  case ctrl2RollOver => rfl
  all_goals simp [encode, decode, decodeCommand]

/-- Settles O12: a command word is put together from what its row keeps of it (`encode_decodeCommand`), a control byte from
its fields. -/
theorem encodeOfDecodeIsTheBits : Obligations.EncodeOfDecodeIsTheBits := by
  refine ⟨fun x i h => ?_, fun w => ⟨decodeCommand w, rfl⟩⟩
  cases x with
  | command w =>
    cases h
    exact encode_decodeCommand w
  | control reg val =>
    obtain ⟨rfl, -, rfl⟩ | ⟨rfl, rfl, rfl⟩ | ⟨rfl, rfl, rfl⟩ := decodeControl_eq_ok_iff.mp h
    · exact congrArg _ (packControl1_fields val)
    · rfl
    · rfl

/-- Settles O13: the cases of `decodeControl_eq_ok_iff`. -/
theorem reservedControlBytesAreRefused : Obligations.ReservedControlBytesAreRefused := by
  refine ⟨fun v => ?_, fun v hv => ?_, fun v => ?_⟩
  · simp [decode, decodeControl_eq_ok_iff]
  · simp [decode, decodeControl, hv]
  · simp [decode, decodeControl_eq_ok_iff, exists_or]

/-- Settles O10: each word's opcode and operand, computed. -/
theorem wordsOfEveryFamilyDecode : Obligations.WordsOfEveryFamilyDecode := by
  unfold Obligations.WordsOfEveryFamilyDecode
  decide

end Sys2Proof
end

section
/-! The step's entry points (30_encoding.md R58, 41_init.md R90, 60_exceptions.md R150): the word at the port of an idle
block, and the control byte of the write `INIT` has in flight. -/

namespace Sys2Proof.Machine

/-! ### What a step does with each input -/

theorem step_presented {s : State} {w : CmdWord} {rest : List CmdWord} (hr : s.rst = false) (hb : s.busy = false)
    (hc : s.cmds = w :: rest) : step s = exec (decodeCommand w) { s with cmds := rest } := by
  simp [step, acceptable, hr, hb, hc]

theorem step_busy {s : State} (hr : s.rst = false) (hb : s.busy = true) : step s = .next (advance s) := by
  simp [step, acceptable, hr, hb]

/-! ### Table words -/

/-- A table word that decodes stands on a wire that decodes to the same instruction. -/
theorem wire_of_decodeTableWord {nbits w : Nat} {i : Instr} (h : decodeTableWord nbits w = some i) :
    ∃ wire, wireOfTable nbits w = some wire ∧ decode wire = .ok i := by
  unfold decodeTableWord at h
  split at h
  · cases h
  · next wire hwire =>
    split at h
    · next hdec => cases h; exact ⟨wire, hwire, hdec⟩
    · cases h

/-- A table word of more than 8 bits is a command word. -/
theorem command_of_wide_table {nbits w : Nat} {wire : Wire} (hn : 8 < nbits) (h : wireOfTable nbits w = some wire) :
    ∃ c, wire = .command c := by
  rw [wireOfTable, if_neg (by omega)] at h
  split at h
  · cases h
  · cases h; exact ⟨_, rfl⟩

/-- A table word of up to 8 bits is a control byte. -/
theorem control_of_narrow_table {nbits w : Nat} {wire : Wire} (hn : nbits ≤ 8) (h : wireOfTable nbits w = some wire) :
    ∃ reg val, wire = .control reg val := by
  rw [wireOfTable, if_pos hn] at h
  split at h
  · cases h
  · split at h <;> cases h <;> exact ⟨_, _, rfl⟩

/-- Settles O5: an idle block accepts the word (`step_presented`); the word of a well-formed instruction, or of a table word,
decodes to that instruction. -/
theorem stepExecutesThePresentedCommand : Obligations.StepExecutesThePresentedCommand := by
  refine ⟨fun s w rest => step_presented, fun s i w rest hwf henc hr hb hc => ?_, fun s i nbits w hn hdec => ?_⟩
  · have hi : decode (.command w) = .ok i := henc ▸ decodeOfEncodeIsTheInstruction i hwf
    cases hi
    exact step_presented hr hb hc
  · obtain ⟨wire, hwire, hi⟩ := wire_of_decodeTableWord hdec
    obtain ⟨c, rfl⟩ := command_of_wide_table hn hwire
    cases hi
    rw [State.withFetchWord, hwire]
    exact step_presented rfl rfl rfl

/-! ### Control bytes -/

/-- Each control byte's meaning is the next event of `INIT` at the write that carries it (log 9). -/
theorem exec_ctrl2SoftReset (s : State) : exec .ctrl2SoftReset s = .next (advance (enterInit .initReset s)) := rfl

theorem exec_ctrl1Byte (osr rng odr mode : BitVec 2) (s : State) : exec (.ctrl1Byte osr rng odr mode) s =
    .next (advance (enterInit (.initControl1 (packControl1 osr rng odr mode)) s)) := rfl

theorem exec_ctrl2RollOver (s : State) : exec .ctrl2RollOver s = .next (advance (enterInit .initRollOver s)) := rfl

/-- The four fields of a Control-1 byte, as an instruction, are the write of that byte. -/
theorem exec_ctrl1Byte_fields (b : Byte) (s : State) :
    exec (.ctrl1Byte (b.extractLsb' 6 2) (b.extractLsb' 4 2) (b.extractLsb' 2 2) (b.extractLsb' 0 2)) s =
      .next (advance (enterInit (.initControl1 b) s)) := by
  rw [exec_ctrl1Byte, packControl1_fields]

/-- The entry point puts `INIT` at the write that carries the byte. -/
theorem presentControl_enters {reg val : Byte} {i : Instr} (h : decodeControl reg val = .ok i) (s : State) :
    ∃ j, presentControl reg val s = enterInit j { s with rst := false } ∧
      ∀ u, exec i u = .next (advance (enterInit j u)) := by
  rw [presentControl, h]
  obtain ⟨-, -, rfl⟩ | ⟨-, -, rfl⟩ | ⟨-, -, rfl⟩ := decodeControl_eq_ok_iff.mp h
  · exact ⟨.initControl1 val, rfl, exec_ctrl1Byte_fields val⟩
  · exact ⟨.initReset, rfl, exec_ctrl2SoftReset⟩
  · exact ⟨.initRollOver, rfl, exec_ctrl2RollOver⟩

/-- The byte in flight is the instruction of the position `INIT` is at. -/
theorem sequencerInstr_position {s : State} {i : Instr} (h : sequencerInstr s = some i) :
    s.job.isInit = true ∧ ∀ u, exec i u = .next (advance (enterInit s.job u)) := by
  cases hj : s.job <;> simp only [sequencerInstr, State.busRequest, hj, reduceCtorEq] at h
  case initReset => cases h; exact ⟨rfl, exec_ctrl2SoftReset⟩
  case initRollOver => cases h; exact ⟨rfl, exec_ctrl2RollOver⟩
  case initControl1 b =>
    split at h
    · next hdec =>
      cases h
      obtain ⟨-, -, rfl⟩ | ⟨hreg, -⟩ | ⟨hreg, -⟩ := decodeControl_eq_ok_iff.mp hdec
      · exact ⟨rfl, exec_ctrl1Byte_fields b⟩
      · exact absurd hreg (by decide)
      · exact absurd hreg (by decide)
    · cases h

/-- A running `INIT` is where `enterInit` would put it. -/
theorem State.Inv.enterInit_job {s : State} (h : s.Inv) (hj : s.job.isInit = true) : enterInit s.job s = s := by
  have hp := h.phase_init.mpr hj
  have hb := h.busy_iff.mpr (fun e => by simp [e, Job.isInit] at hj)
  rw [enterInit, ← hp, ← hb]

/-- Settles O6: where `INIT` writes a control byte, its next event is the byte's meaning (`sequencerInstr_position`,
`presentControl_enters`). -/
theorem stepExecutesTheSequencersControlByte : Obligations.StepExecutesTheSequencersControlByte := by
  refine ⟨fun s i hinv hr hi => ?_, fun s i nbits w hn hdec => ?_⟩
  · obtain ⟨hj, hexec⟩ := sequencerInstr_position hi
    have hb := hinv.busy_iff.mpr (fun e => by simp [e, Job.isInit] at hj)
    rw [step_busy hr hb, hexec, hinv.enterInit_job hj]
  · obtain ⟨wire, hwire, hi⟩ := wire_of_decodeTableWord hdec
    obtain ⟨reg, val, rfl⟩ := control_of_narrow_table hn hwire
    obtain ⟨j, hpresent, hexec⟩ := presentControl_enters hi s
    rw [State.withFetchWord, hwire, hexec]
    exact (congrArg step hpresent).trans (step_busy rfl rfl)

/-! ### What each write of `INIT` does -/

theorem packControl1_eq_ofNat (osr rng odr mode : BitVec 2) : packControl1 osr rng odr mode =
    BitVec.ofNat 8 (osr.toNat * 64 + rng.toNat * 16 + odr.toNat * 4 + mode.toNat) := by
  rw [← packControl1_toNat, BitVec.ofNat_toNat, BitVec.setWidth_eq]

/-- Settles O24: each byte's meaning is one write of `INIT`, with a success, a failure and no answer. -/
theorem controlBytesAreTheWritesOfInit : Obligations.ControlBytesAreTheWritesOfInit := by
  intro s osr rng odr mode rest d
  rw [← packControl1_eq_ofNat, exec_ctrl2SoftReset, exec_ctrl1Byte, exec_ctrl2RollOver, advance_initReset rfl,
    advance_initControl1 rfl, advance_initRollOver rfl, writeSoftReset, writeControl1, writeRollOver]
  refine ⟨fun ha => ?_, fun ha => ?_, fun ha => ?_⟩
  · have hok : ∀ j, (enterInit j s).answers = .ok d :: rest := fun _ => ha
    rw [memWrite_ok (hok _), memWrite_ok (hok _), memWrite_ok (hok _)]
    refine ⟨?_, rfl, rfl⟩
    rw [beginDelay, logEvent, logEvent, List.append_assoc]
    rfl
  · have herr : ∀ j, (enterInit j s).answers = .busError :: rest := fun _ => ha
    rw [memWrite_err (herr _), memWrite_err (herr _), memWrite_err (herr _)]
    exact ⟨rfl, rfl, rfl⟩
  · have hnone : ∀ j, (enterInit j s).answers = [] := fun _ => ha
    rw [memWrite_unanswered (hnone _), memWrite_unanswered (hnone _), memWrite_unanswered (hnone _)]
    exact ⟨rfl, rfl, rfl⟩

end Sys2Proof.Machine
end

section
/-! Responses (30_encoding.md R61, R62; 60_exceptions.md R150): a running command goes on without one or ends with one that
fits the port, and after at most twenty events it has ended or an input is missing. -/

namespace Sys2Proof.Machine

open Sys2Proof.Claims

/-! ### What fits the response port -/

/-- The response keeps to the payload table (30_encoding.md R62). -/
structure Response.Fits (p : Params) (r : Response) : Prop where
  refusal_empty : r.status ≠ .ok → r.status ≠ .invalidConfiguration → r.data = 0
  width : p.headW ≤ p.rspW → r.data < 2 ^ p.rspW

theorem two_pow_67_le_rspW (p : Params) : 2 ^ 67 ≤ 2 ^ p.rspW := Nat.pow_le_pow_right (by decide) (le_max_right _ _)

theorem Response.Fits.of_zero (p : Params) (st : Status) : Response.Fits p ⟨st, 0⟩ where
  refusal_empty _ _ := rfl
  width _ := by positivity

theorem Response.Fits.ok {p : Params} {data : Nat} (h : p.headW ≤ p.rspW → data < 2 ^ p.rspW) :
    Response.Fits p ⟨.ok, data⟩ where
  refusal_empty hne := absurd rfl hne
  width := h

/-- Every payload but the Gauss outputs and the heading has at most 67 bits. -/
theorem Response.Fits.ok_of_lt {data : Nat} (h : data < 2 ^ 67) (p : Params) : Response.Fits p ⟨.ok, data⟩ :=
  .ok fun _ => h.trans_le (two_pow_67_le_rspW p)

theorem Response.Fits.legal_list (p : Params) (o : Opt) :
    Response.Fits p ⟨.invalidConfiguration, legalPayload (legalList o)⟩ where
  refusal_empty _ hne := absurd rfl hne
  width _ := by
    have hlist : legalPayload (legalList o) < 2 ^ 67 := by cases o <;> decide
    exact hlist.trans_le (two_pow_67_le_rspW p)

theorem rawPayload_lt (x y z : Half) : rawPayload x y z < 2 ^ 67 := by
  have := x.isLt
  have := y.isLt
  have := z.isLt
  simp only [rawPayload, packHalves]
  omega

/-- Three fields of `OUT_W` bits side by side. -/
theorem gaussPayload_lt (w : Nat) (x y z : Int) : gaussPayload w x y z < 2 ^ (3 * w) := by
  have hlow := Nat.add_mul_lt_mul_of_lt_of_lt (tc_lt w x) (tc_lt w y)
  calc gaussPayload w x y z
      = tc w x + 2 ^ w * tc w y + 2 ^ w * 2 ^ w * tc w z := by rw [gaussPayload, two_mul, pow_add]
    _ < 2 ^ w * 2 ^ w * 2 ^ w := Nat.add_mul_lt_mul_of_lt_of_lt hlow (tc_lt w z)
    _ = 2 ^ (3 * w) := by ring

theorem headingPayload_lt (w h : Nat) : headingPayload w h < 2 ^ w := Nat.mod_lt _ (by positivity)

/-! ### One event of the running command -/

/-- `t` has answered, after the responses `h`, with one that fits. -/
structure HasAnswered (p : Params) (h : List Response) (t : State) : Prop where
  busy : t.busy = false
  job : t.job = .idle
  response : ∃ r, t.responses = h ++ [r] ∧ r.Fits p

/-- From `s` to `t` no response came: a command in progress still is, and `BUSY` is the same. -/
structure GoesOn (s t : State) : Prop where
  responses : t.responses = s.responses
  busy : t.busy = s.busy
  job : t.job = .idle ↔ s.job = .idle

theorem hasAnswered_respond {p : Params} {h : List Response} {st : Status} {data : Nat} {s : State}
    (hr : s.responses = h) (hfits : Response.Fits p ⟨st, data⟩) : HasAnswered p h (respond st data s) :=
  ⟨rfl, rfl, ⟨_, congrArg (· ++ _) hr, hfits⟩⟩

theorem GoesOn.refl (s : State) : GoesOn s s := ⟨rfl, rfl, Iff.rfl⟩

theorem GoesOn.trans {s t u : State} (h : GoesOn s t) (h' : GoesOn t u) : GoesOn s u :=
  ⟨h'.responses.trans h.responses, h'.busy.trans h.busy, h'.job.trans h.job⟩

theorem finishFiltered_hasAnswered (want : Want) (s : State) :
    HasAnswered s.params s.responses (finishFiltered want s) := by
  cases want with
  | gauss =>
    have hfields : 2 ^ (3 * s.params.outW) ≤ 2 ^ s.params.rspW := Nat.pow_le_pow_right (by decide) (le_max_left _ _)
    exact hasAnswered_respond rfl (.ok fun _ => (gaussPayload_lt _ _ _ _).trans_le hfields)
  | heading =>
    refine hasAnswered_respond rfl (.ok fun hw => (headingPayload_lt _ _).trans_le ?_)
    exact Nat.pow_le_pow_right (by decide) hw

theorem advance_goes_on_or_answers (s : State) :
    GoesOn s (advance s) ∨ HasAnswered s.params s.responses (advance s) := by
  apply advance_elim (P := fun t => GoesOn s t ∨ HasAnswered s.params s.responses t) s (.inl (.refl s))
  case softResetOk => exact fun d rest hj _ => .inl ⟨rfl, rfl, by simp [hj]⟩
  case settled => exact fun n hj _ => .inl ⟨rfl, rfl, by simp [hj]⟩
  case control1Ok => exact fun b d rest hj _ => .inl ⟨rfl, rfl, by simp [hj]⟩
  case sampleOk => exact fun want d rest hj _ => .inl ⟨rfl, rfl, by simp [hj]⟩
  case again => exact fun want n hj _ _ => .inl ⟨rfl, rfl, by simp [hj]⟩
  case rawOk => exact fun d rest _ _ => .inr (hasAnswered_respond rfl (.ok_of_lt (rawPayload_lt _ _ _) _))
  case finish => exact fun want n _ _ _ => .inr (finishFiltered_hasAnswered want { s with timerEnds := n })
  all_goals
    intros
    exact .inr (hasAnswered_respond rfl (.of_zero _ _))

theorem run_goes_on_or_answers (n : Nat) (s : State) :
    GoesOn s (run n s) ∨ HasAnswered s.params s.responses (run n s) := by
  induction n generalizing s with
  | zero => exact .inl (.refl s)
  | succ n ih =>
    obtain hgo | hans := advance_goes_on_or_answers s
    · have hrun := ih (advance s)
      rw [advance_params, hgo.responses] at hrun
      exact hrun.imp_left hgo.trans
    · rw [run, run_idle hans.job]
      exact .inr hans

/-! ### How far the inputs carry a command -/

/-- The most answers and ends of delays a command still takes at its position (41_init.md R90, 42_acquisition.md R105). -/
def State.eventsLeft (s : State) : Nat :=
  match s.job with
  | .idle => 0
  | .initReset => 4
  | .initSettle => 3
  | .initControl1 _ => 2
  | .initRollOver => 1
  | .rawRead => 1
  | .sample _ => 2 * (nSamples - (s.cnt + 1#4).toNat) + 2
  | .gap _ => 2 * (nSamples - s.cnt.toNat) + 1

/-- No event comes: no command is in progress, or the one in progress lacks an input. -/
def Stopped (s : State) : Prop := s.job = .idle ∨ Waiting s

theorem Stopped.of_unanswered {s : State} (hreq : s.busRequest ≠ none) (ha : s.answers = []) : Stopped s :=
  .inr (.inl ⟨hreq, ha⟩)

theorem Stopped.of_running_timer {s : State} (htimer : s.timer ≠ none) (he : s.timerEnds = 0) : Stopped s :=
  .inr (.inr ⟨htimer, he⟩)

theorem eventsLeft_of_idle {s : State} (h : s.job = .idle) : s.eventsLeft = 0 := by
  rw [State.eventsLeft, h]

theorem memWrite_stopped_or_closer {s : State} {reg val : Byte} {f g : State → State} (hreq : s.busRequest ≠ none)
    (ok : ∀ u, (f u).eventsLeft < s.eventsLeft) (err : ∀ u, (g u).eventsLeft < s.eventsLeft) :
    Stopped s ∨ (memWrite reg val f g s).eventsLeft < s.eventsLeft :=
  memWrite_elim (P := fun t => Stopped s ∨ t.eventsLeft < s.eventsLeft) (fun ha => .inl (.of_unanswered hreq ha))
    (fun _ _ _ => .inr (ok _)) (fun _ _ => .inr (err _))

theorem memRead_stopped_or_closer {s : State} {f : BitVec 48 → State → State} {g : State → State}
    (hreq : s.busRequest ≠ none) (ok : ∀ d u, u.cnt = s.cnt → (f d u).eventsLeft < s.eventsLeft)
    (err : ∀ u, (g u).eventsLeft < s.eventsLeft) : Stopped s ∨ (memRead f g s).eventsLeft < s.eventsLeft :=
  memRead_elim (P := fun t => Stopped s ∨ t.eventsLeft < s.eventsLeft) (fun ha => .inl (.of_unanswered hreq ha))
    (fun _ _ _ => .inr (ok _ _ rfl)) (fun _ _ => .inr (err _))

theorem endDelay_stopped_or_closer {s : State} {f : State → State} (htimer : s.timer ≠ none)
    (ended : ∀ u, u.cnt = s.cnt → (f u).eventsLeft < s.eventsLeft) :
    Stopped s ∨ (endDelay f s).eventsLeft < s.eventsLeft :=
  endDelay_elim (P := fun t => Stopped s ∨ t.eventsLeft < s.eventsLeft) (fun he => .inl (.of_running_timer htimer he))
    (fun _ _ => .inr (ended _ rfl))

/-- After a delay either the next block read is issued, with one more sample to come, or the command is over. -/
theorem nextSample_eventsLeft (want : Want) (s : State) :
    (nextSample want s).eventsLeft < 2 * (nSamples - s.cnt.toNat) + 1 := by
  by_cases hc : s.cnt.toNat < nSamples
  · rw [nextSample, if_pos hc]
    have hcnt : (s.cnt + 1#4).toNat = s.cnt.toNat + 1 := by
      rw [BitVec.toNat_add]; simp only [nSamples] at hc; simp; omega
    simp only [State.eventsLeft, hcnt]
    omega
  · rw [nextSample, if_neg hc, eventsLeft_of_idle (finishFiltered_hasAnswered want s).job]
    omega

/-- Each event brings the command closer to its end, unless none comes. -/
theorem advance_stopped_or_closer (s : State) : Stopped s ∨ (advance s).eventsLeft < s.eventsLeft := by
  cases hj : s.job with
  | idle => exact .inl (.inl hj)
  | initReset =>
    rw [advance_initReset hj]
    apply memWrite_stopped_or_closer <;> simp [State.busRequest, State.eventsLeft, hj]
  | initSettle =>
    rw [advance_initSettle hj]
    apply endDelay_stopped_or_closer <;> simp [State.timer, State.eventsLeft, hj]
  | initControl1 b =>
    rw [advance_initControl1 hj]
    apply memWrite_stopped_or_closer <;> simp [State.busRequest, State.eventsLeft, hj]
  | initRollOver =>
    rw [advance_initRollOver hj]
    apply memWrite_stopped_or_closer <;> simp [State.busRequest, State.eventsLeft, hj]
  | rawRead =>
    rw [advance_rawRead hj]
    apply memRead_stopped_or_closer <;> simp [State.busRequest, State.eventsLeft, hj]
  | sample want =>
    rw [advance_sample hj]
    apply memRead_stopped_or_closer
    · simp [State.busRequest, hj]
    · intro d u hcnt
      simp [State.eventsLeft, hj, hcnt]
    · simp [State.eventsLeft, hj]
  | gap want =>
    rw [advance_gap hj]
    apply endDelay_stopped_or_closer
    · simp [State.timer, hj]
    · intro u hcnt
      have hnext := nextSample_eventsLeft want u
      simpa only [State.eventsLeft, hj, hcnt] using hnext

/-- Where no event comes the command stays. -/
theorem Stopped.advance_eq {s : State} (h : Stopped s) : advance s = s := by
  obtain hj | ⟨hreq, ha⟩ | ⟨htimer, he⟩ := h
  · exact advance_idle hj
  · cases hj : s.job <;> simp only [State.busRequest, hj, ne_eq, not_true_eq_false] at hreq
    case initReset => rw [advance_initReset hj]; exact memWrite_unanswered ha
    case initControl1 => rw [advance_initControl1 hj]; exact memWrite_unanswered ha
    case initRollOver => rw [advance_initRollOver hj]; exact memWrite_unanswered ha
    case rawRead => rw [advance_rawRead hj]; exact memRead_unanswered ha
    case sample => rw [advance_sample hj]; exact memRead_unanswered ha
  · cases hj : s.job <;> simp only [State.timer, hj, ne_eq, not_true_eq_false] at htimer
    case initSettle => rw [advance_initSettle hj]; exact endDelay_running he
    case gap => rw [advance_gap hj]; exact endDelay_running he

/-- A command with no more events left than it is given goes on until none comes. -/
theorem run_stopped (n : Nat) {s : State} (h : s.eventsLeft ≤ n) : Stopped (run n s) := by
  induction n generalizing s with
  | zero =>
    obtain hs | hlt := advance_stopped_or_closer s
    · exact hs
    · omega
  | succ n ih =>
    obtain hs | hlt := advance_stopped_or_closer s
    · rw [run_fixed hs.advance_eq]; exact hs
    · exact ih (by omega)

/-! ### Commands and steps -/

/-- `t` is in a command that has not answered since the responses `h` and lacks an input (70_reset_and_hazards.md R173). -/
structure WaitsSince (h : List Response) (t : State) : Prop where
  busy : t.busy = true
  responses : t.responses = h
  waiting : Waiting t

/-- A command past its checks, in `u`, on from the state `s` it was accepted in. -/
theorem runCommand_waits_or_answers {s u : State} (hp : u.params = s.params) (hr : u.responses = s.responses)
    (hb : u.busy = true) (hj : u.job ≠ .idle) (hleft : u.eventsLeft ≤ maxEvents) :
    WaitsSince s.responses (runCommand u) ∨ HasAnswered s.params s.responses (runCommand u) := by
  rw [← hp, ← hr]
  obtain hgo | hans := run_goes_on_or_answers maxEvents u
  · obtain hidle | hwait := run_stopped maxEvents hleft
    · exact absurd (hgo.job.mp hidle) hj
    · exact .inl ⟨hgo.busy.trans hb, hgo.responses, hwait⟩
  · exact .inr hans

/-- The first block read of `FilteredAcc()` is twenty events from the end. -/
theorem eventsLeft_beginFiltered (want : Want) (s : State) : (beginFiltered want s).eventsLeft = maxEvents := rfl

/-- An executed command word has answered or waits. -/
theorem exec_command_waits_or_answers {w : CmdWord} {s t : State} (h : exec (decodeCommand w) s = .next t) :
    WaitsSince s.responses t ∨ HasAnswered s.params s.responses t := by
  apply exec_command_elim (P := fun t => WaitsSince s.responses t ∨ HasAnswered s.params s.responses t) h
  case refusal => exact fun st _ _ => .inr (hasAnswered_respond rfl (.of_zero _ st))
  case setting => exact fun o v c _ _ _ _ => .inr (hasAnswered_respond rfl (.of_zero _ _))
  case illegalSetting => exact fun o v _ _ _ _ => .inr (hasAnswered_respond rfl (.legal_list _ o))
  case answer =>
    exact fun data hd _ => .inr (hasAnswered_respond rfl (.ok_of_lt (hd.trans (by decide)) _))
  case init =>
    exact fun _ _ _ => runCommand_waits_or_answers rfl rfl rfl (by simp) (by simp [State.eventsLeft, maxEvents])
  case raw =>
    exact fun _ _ _ => runCommand_waits_or_answers rfl rfl rfl (by simp) (by simp [State.eventsLeft, maxEvents])
  case gauss =>
    exact fun _ _ _ => runCommand_waits_or_answers rfl rfl rfl (by simp) (eventsLeft_beginFiltered _ _).le
  case heading =>
    exact fun _ _ _ _ => runCommand_waits_or_answers rfl rfl rfl (by simp) (eventsLeft_beginFiltered _ _).le

/-- Settles O51: a command past its checks runs until it has answered or an input is missing (`run_stopped`); every other
word answers at once. -/
theorem everyCommandAnswersOnceOrWaits : Obligations.EveryCommandAnswersOnceOrWaits := by
  intro s t w h
  obtain ⟨hb, hr, hwait⟩ | ⟨hb, hj, r, hr, _⟩ := exec_command_waits_or_answers h
  · exact .inr ⟨hb, hr, hwait⟩
  · exact .inl ⟨hb, hj, r, hr⟩

/-- A step delivers nothing, or one response that fits. -/
theorem step_silent_or_answers {s t : State} (h : step s = .next t) :
    t.responses = s.responses ∨ HasAnswered s.params s.responses t := by
  obtain ⟨_, rfl⟩ | ⟨_, _, w, rest, _, hexec⟩ | ⟨_, _, rfl⟩ := step_cases h
  · exact .inl rfl
  · exact (exec_command_waits_or_answers hexec).imp_left WaitsSince.responses
  · exact (advance_goes_on_or_answers s).imp_left GoesOn.responses

theorem step_response_fits {s t : State} {r : Response} (h : step s = .next t) (hr : t.responses = s.responses ++ [r]) :
    r.Fits s.params := by
  obtain hkeep | ⟨_, _, r', hr', hfits⟩ := step_silent_or_answers h
  · simp [hkeep] at hr
  · cases List.append_cancel_left (hr.symm.trans hr')
    exact hfits

/-- Settles O53: a step is silent or answers once (`step_silent_or_answers`). -/
theorem stepDeliversAtMostOneResponse : Obligations.StepDeliversAtMostOneResponse := by
  intro s t h
  obtain hkeep | ⟨hb, _, r, hr, _⟩ := step_silent_or_answers h
  · exact .inl hkeep
  · exact .inr ⟨⟨r, hr⟩, hb⟩

/-- Settles O55: every response keeps to the payload table (`step_response_fits`). -/
theorem refusalsCarryNoPayload : Obligations.RefusalsCarryNoPayload := fun _ _ _ h hr =>
  (step_response_fits h hr).refusal_empty

/-- Settles O56: the premise about the heading's width is all of the invariant that matters. -/
theorem payloadsFitTheResponsePort : Obligations.PayloadsFitTheResponsePort := fun _ _ _ _ hw h hr =>
  (step_response_fits h hr).width hw

end Sys2Proof.Machine
end

section
/-! The codec (40_codec.md): the mapping tables read in both directions, the Control-1 byte and its four fields as inverse
maps, and what the setters, `ENC` and `DEC` answer. -/

namespace Sys2Proof.Machine

open Sys2Proof.Claims

/-! ### The mapping tables, in both directions -/

/-- Each row of a table reads back, by its value and by its code. -/
theorem optTable_reads_back (o : Opt) : ∀ row ∈ optTable o,
    codeIn (optTable o) row.1 = some row.2 ∧ valueIn (optTable o) row.2 = some row.1 := by
  cases o <;> simp [optTable, codeIn, valueIn]

theorem codeIn_of_mem {o : Opt} {v : Half} {c : BitVec 2} (h : (v, c) ∈ optTable o) : codeIn (optTable o) v = some c :=
  (optTable_reads_back o _ h).1

theorem valueIn_of_mem {o : Opt} {v : Half} {c : BitVec 2} (h : (v, c) ∈ optTable o) :
    valueIn (optTable o) c = some v :=
  (optTable_reads_back o _ h).2

theorem valueIn_mem {rows : List (Half × BitVec 2)} {v : Half} {c : BitVec 2} (h : valueIn rows c = some v) :
    (v, c) ∈ rows := by
  induction rows with
  | nil => cases h
  | cons row rows ih =>
    obtain ⟨x, k⟩ := row
    rw [valueIn] at h
    split at h
    · next hc => cases h; simp [hc]
    · exact List.mem_cons_of_mem _ (ih h)

/-- The value of a code has that code. -/
theorem codeIn_of_valueIn {o : Opt} {v : Half} {c : BitVec 2} (h : valueIn (optTable o) c = some v) :
    codeIn (optTable o) v = some c :=
  codeIn_of_mem (valueIn_mem h)

/-- Rate and ratio use all four codes, mode and range the codes 0 and 1 (40_codec.md R70). -/
theorem exists_valueIn_iff (o : Opt) (c : BitVec 2) :
    (∃ v, valueIn (optTable o) c = some v) ↔ (o = .mode ∨ o = .rng → c.toNat ≤ 1) := by
  rw [← Option.isSome_iff_exists]
  revert c
  cases o <;> decide

/-- A row of a table, its code and its value as numbers, gives the value of that code. -/
theorem valueIn_of_mem_numbers {o : Opt} {c : BitVec 2} {k n : Nat} (hc : c.toNat = k)
    (h : (k, n) ∈ (optTable o).map fun row => (row.2.toNat, row.1.toNat)) :
    ∃ v, valueIn (optTable o) c = some v ∧ v.toNat = n := by
  obtain ⟨⟨v, c'⟩, hrow, e⟩ := List.mem_map.mp h
  obtain ⟨hk, hn⟩ := Prod.mk.inj e
  cases BitVec.eq_of_toNat_eq (hc.trans hk.symm)
  exact ⟨v, valueIn_of_mem hrow, hn⟩

/-! ### The Control-1 byte and its fields -/

/-- The four field codes of a Control-1 byte (30_encoding.md R50). -/
def ctrl1Fields (b : Byte) : Cfg where
  mode := b.extractLsb' 0 2
  odr  := b.extractLsb' 2 2
  rng  := b.extractLsb' 4 2
  osr  := b.extractLsb' 6 2

theorem ctrl1Fields_mode_toNat (b : Byte) : (ctrl1Fields b).mode.toNat = b.toNat % 4 := by
  simp [ctrl1Fields, BitVec.extractLsb'_toNat]

theorem ctrl1Fields_odr_toNat (b : Byte) : (ctrl1Fields b).odr.toNat = b.toNat / 4 % 4 := by
  simp [ctrl1Fields, BitVec.extractLsb'_toNat, Nat.shiftRight_eq_div_pow]

theorem ctrl1Fields_rng_toNat (b : Byte) : (ctrl1Fields b).rng.toNat = b.toNat / 16 % 4 := by
  simp [ctrl1Fields, BitVec.extractLsb'_toNat, Nat.shiftRight_eq_div_pow]

theorem ctrl1Fields_osr_toNat (b : Byte) : (ctrl1Fields b).osr.toNat = b.toNat / 64 % 4 := by
  simp [ctrl1Fields, BitVec.extractLsb'_toNat, Nat.shiftRight_eq_div_pow]

theorem ctrl1Image_toNat (c : Cfg) :
    (ctrl1Image c).toNat = c.osr.toNat * 64 + c.rng.toNat * 16 + c.odr.toNat * 4 + c.mode.toNat :=
  packControl1_toNat ..

@[simp] theorem ctrl1Image_ctrl1Fields (b : Byte) : ctrl1Image (ctrl1Fields b) = b := packControl1_fields b

@[simp] theorem ctrl1Fields_ctrl1Image (c : Cfg) : ctrl1Fields (ctrl1Image c) = c := by
  have hfield : (ctrl1Fields (ctrl1Image c)).mode = c.mode ∧ (ctrl1Fields (ctrl1Image c)).odr = c.odr ∧
      (ctrl1Fields (ctrl1Image c)).rng = c.rng ∧ (ctrl1Fields (ctrl1Image c)).osr = c.osr := by
    have := c.mode.isLt
    have := c.odr.isLt
    have := c.rng.isLt
    have := c.osr.isLt
    simp only [← BitVec.toNat_inj, ctrl1Fields_mode_toNat, ctrl1Fields_odr_toNat, ctrl1Fields_rng_toNat,
      ctrl1Fields_osr_toNat, ctrl1Image_toNat]
    omega
  cases c
  exact (Cfg.mk.injEq ..).mpr hfield

/-- The bits 1 and 5 of a Control-1 byte are the high bits of the codes of mode and range (40_codec.md R73). -/
theorem ctrl1Fields_legal_iff (b : Byte) : (ctrl1Fields b).Legal ↔ b &&& 0x22#8 = 0#8 := by
  constructor
  · intro h
    simpa using h.image_reserved_bits
  · have hbits : ∀ b : Byte, b &&& 0x22#8 = 0#8 → (b.extractLsb' 0 2).toNat ≤ 1 ∧ (b.extractLsb' 4 2).toNat ≤ 1 := by
      decide
    exact hbits b

/-- Settles O21: `ctrl1Fields` inverts the image on both sides, and its codes are legal exactly where the bits 1 and 5 are
0. -/
theorem control1ImageIsTheLegalBytes : Obligations.Control1ImageIsTheLegalBytes := by
  refine ⟨fun b => ⟨?_, fun hb => ?_⟩, fun c c' h => Function.LeftInverse.injective ctrl1Fields_ctrl1Image h⟩
  · rintro ⟨c, hmode, hrng, rfl⟩
    exact Cfg.Legal.image_reserved_bits ⟨hmode, hrng⟩
  · obtain ⟨hmode, hrng⟩ := (ctrl1Fields_legal_iff b).mpr hb
    exact ⟨ctrl1Fields b, hmode, hrng, ctrl1Image_ctrl1Fields b⟩

/-! ### The decoded values -/

/-- The four values are those of the byte's four codes (40_codec.md R79). -/
theorem decodeValues_eq_some_iff {b : Byte} {m o r v : Half} : decodeValues b = some (m, o, r, v) ↔
    valueIn (optTable .mode) (ctrl1Fields b).mode = some m ∧ valueIn (optTable .odr) (ctrl1Fields b).odr = some o ∧
      valueIn (optTable .rng) (ctrl1Fields b).rng = some r ∧ valueIn (optTable .osr) (ctrl1Fields b).osr = some v := by
  unfold decodeValues
  split <;> simp_all [ctrl1Fields]

/-- Legal codes have values. -/
theorem Cfg.Legal.has_values {c : Cfg} (h : c.Legal) : ∃ m o r v,
    valueIn (optTable .mode) c.mode = some m ∧ valueIn (optTable .odr) c.odr = some o ∧
      valueIn (optTable .rng) c.rng = some r ∧ valueIn (optTable .osr) c.osr = some v := by
  obtain ⟨hmode, hrng⟩ := h
  obtain ⟨m, hm⟩ := (exists_valueIn_iff .mode c.mode).mpr fun _ => hmode
  obtain ⟨o, ho⟩ := (exists_valueIn_iff .odr c.odr).mpr (by simp)
  obtain ⟨r, hr⟩ := (exists_valueIn_iff .rng c.rng).mpr fun _ => hrng
  obtain ⟨v, hv⟩ := (exists_valueIn_iff .osr c.osr).mpr (by simp)
  exact ⟨m, o, r, v, hm, ho, hr, hv⟩

/-- A byte has values exactly when its codes of mode and range are legal (30_encoding.md R64). -/
theorem decodeValues_ne_none_iff (b : Byte) : decodeValues b ≠ none ↔ (ctrl1Fields b).Legal := by
  rw [Option.ne_none_iff_exists']
  constructor
  · rintro ⟨⟨m, o, r, v⟩, h⟩
    obtain ⟨hm, -, hr, -⟩ := decodeValues_eq_some_iff.mp h
    exact ⟨(exists_valueIn_iff .mode _).mp ⟨m, hm⟩ (.inl rfl), (exists_valueIn_iff .rng _).mp ⟨r, hr⟩ (.inr rfl)⟩
  · intro h
    obtain ⟨m, o, r, v, hvalues⟩ := h.has_values
    exact ⟨(m, o, r, v), decodeValues_eq_some_iff.mpr hvalues⟩

/-- Settles O20: the fields of the image are the configuration and the image of the fields is the byte, and each table is
read in both directions. -/
theorem control1RoundTrips : Obligations.Control1RoundTrips := by
  refine ⟨fun c hmode hrng => ?_, fun b m o r v h => ?_, fun b => ?_⟩
  · obtain ⟨m, o, r, v, hvalues⟩ := Cfg.Legal.has_values ⟨hmode, hrng⟩
    refine ⟨m, o, r, v, decodeValues_eq_some_iff.mpr ?_, hvalues⟩
    rwa [ctrl1Fields_ctrl1Image]
  · obtain ⟨hm, ho, hr, hv⟩ := decodeValues_eq_some_iff.mp h
    exact ⟨ctrl1Fields b, ctrl1Image_ctrl1Fields b, codeIn_of_valueIn hm, codeIn_of_valueIn ho, codeIn_of_valueIn hr,
      codeIn_of_valueIn hv⟩
  · exact (decodeValues_ne_none_iff b).trans (ctrl1Fields_legal_iff b)

/-! ### The setters -/

/-- Answering a command just accepted is answering it, since the response takes `BUSY` back. -/
theorem respond_accept (st : Status) (data : Nat) (s : State) : respond st data (accept s) = answered st data s := rfl

section Setters

variable {o : Opt} {v : Half} {s : State}

theorem exec_setter_halted (hh : s.halt = true) : exec (Opt.setter o v) s = .next (answered .halted 0 s) := by
  simp [exec_setter, setOption, hh, respond_accept]

theorem exec_setter_out_of_sequence (hh : s.halt = false) (hp : s.phase ≠ .uninitialized) :
    exec (Opt.setter o v) s = .next (answered .seqError 0 s) := by
  simp [exec_setter, setOption, hh, hp, respond_accept]

theorem exec_setter_legal {c : BitVec 2} (hh : s.halt = false) (hp : s.phase = .uninitialized)
    (hc : (v, c) ∈ optTable o) :
    exec (Opt.setter o v) s = .next (answered .ok 0 { s with cfg := s.cfg.setField o c }) := by
  have hcode := codeIn_of_mem hc
  simp only [exec_setter, setOption, validate, hcode, accept_halt, hh, accept_phase, hp]
  rfl

theorem exec_setter_illegal (hh : s.halt = false) (hp : s.phase = .uninitialized)
    (hi : IllegalSetting (Opt.setter o v)) : exec (Opt.setter o v) s =
      .next (answered .invalidConfiguration (legalPayload (legalList o)) { s with halt := s.params.failFast }) := by
  have hnone := (illegalSetting_setter_iff o v).mp hi
  have hhalt : failFast (accept s) = accept { s with halt := s.params.failFast } := by simp [failFast, accept, hh]
  simp [exec_setter, setOption, validate, hnone, hh, hp, hhalt, respond_accept]

end Setters

/-- The contract of 40_codec.md section 3: all a setter can answer, for each option, `payload` being its legal list. -/
theorem exec_setter_contract {o : Opt} {payload : Nat} (hlist : legalPayload (legalList o) = payload) (s : State)
    (v : Half) :
    (s.halt = true → exec (Opt.setter o v) s = .next (answered .halted 0 s)) ∧
    (s.halt = false → s.phase ≠ .uninitialized → exec (Opt.setter o v) s = .next (answered .seqError 0 s)) ∧
    (s.halt = false → s.phase = .uninitialized → ∀ c, (v, c) ∈ optTable o →
      exec (Opt.setter o v) s = .next (answered .ok 0 { s with cfg := s.cfg.setField o c })) ∧
    (s.halt = false → s.phase = .uninitialized → IllegalSetting (Opt.setter o v) → exec (Opt.setter o v) s =
      .next (answered .invalidConfiguration payload { s with halt := s.params.failFast })) :=
  hlist ▸ ⟨exec_setter_halted, exec_setter_out_of_sequence, fun hh hp _ hc => exec_setter_legal hh hp hc,
    exec_setter_illegal⟩

/-- Settles O14: the contract with the table and the legal list of the rate. -/
theorem setodrSetsTheDataRate : Obligations.SetodrSetsTheDataRate :=
  exec_setter_contract legalPayload_odr

/-- Settles O15: the contract with the table and the legal list of the range. -/
theorem setrngSetsTheRange : Obligations.SetrngSetsTheRange :=
  exec_setter_contract legalPayload_rng

/-- Settles O16: the contract with the table and the legal list of the ratio. -/
theorem setosrSetsTheOversampling : Obligations.SetosrSetsTheOversampling :=
  exec_setter_contract legalPayload_osr

/-- Settles O17: the contract with the table and the legal list of the mode. -/
theorem setmodeSetsTheMode : Obligations.SetmodeSetsTheMode :=
  exec_setter_contract legalPayload_mode

/-! ### `ENC` and `DEC` -/

theorem exec_enc (arg : Half) (s : State) : exec (.enc arg) s = .next (encodeCfg arg (accept s)) := rfl

/-- Settles O18: the three checks of `ENC` in their order, and the image as a number. -/
theorem encAnswersTheControl1Image : Obligations.EncAnswersTheControl1Image := by
  intro s arg
  rw [exec_enc]
  refine ⟨fun hh => ?_, fun hh ha => ?_, fun hh ha => ?_⟩
  · simp [encodeCfg, hh, respond_accept]
  · simp [encodeCfg, hh, ha, respond_accept]
  · simp [encodeCfg, hh, ha, ctrl1Image_toNat, respond_accept]

section Dec

variable {s : State} {b : Half}

theorem exec_dec (b : Half) (s : State) : exec (.dec b) s = .next (decodeOperand b (accept s)) := rfl

theorem exec_dec_halted (hh : s.halt = true) : exec (.dec b) s = .next (answered .halted 0 s) := by
  simp [exec_dec, decodeOperand, hh, respond_accept]

theorem exec_dec_above_byte (hh : s.halt = false) (hb : 255 < b.toNat) :
    exec (.dec b) s = .next (answered .reservedEncoding 0 s) := by
  simp [exec_dec, decodeOperand, hh, hb, respond_accept]

theorem exec_dec_reserved (hh : s.halt = false) (hd : decodeValues (b.extractLsb' 0 8) = none) :
    exec (.dec b) s = .next (answered .reservedEncoding 0 s) := by
  simp [exec_dec, decodeOperand, hh, hd, respond_accept]

theorem exec_dec_values {m o r v : Half} (hh : s.halt = false) (hb : b.toNat ≤ 255)
    (hd : decodeValues (b.extractLsb' 0 8) = some (m, o, r, v)) :
    exec (.dec b) s = .next (answered .ok (decPayload m o r v) s) := by
  simp [exec_dec, decodeOperand, hh, hb.not_gt, hd, respond_accept]

/-- The low byte of an operand that is a byte. -/
theorem lowByte_toNat (hb : b.toNat ≤ 255) : (b.extractLsb' 0 8).toNat = b.toNat := by
  rw [BitVec.extractLsb'_toNat]
  exact Nat.mod_eq_of_lt (Nat.lt_succ_of_le hb)

end Dec

theorem decPayload_eq (m o r v : Half) :
    decPayload m o r v = m.toNat + 2 ^ 16 * o.toNat + 2 ^ 32 * r.toNat + 2 ^ 48 * v.toNat := by
  simp only [decPayload, packHalves]
  ring

/-- Settles O19: the operand's four codes as numbers decide whether it is reserved, and each code's row of its table gives
its value. -/
theorem decAnswersTheFourValues : Obligations.DecAnswersTheFourValues := by
  intro s b
  have hmode := ctrl1Fields_mode_toNat (b.extractLsb' 0 8)
  have hodr := ctrl1Fields_odr_toNat (b.extractLsb' 0 8)
  have hrng := ctrl1Fields_rng_toNat (b.extractLsb' 0 8)
  have hosr := ctrl1Fields_osr_toNat (b.extractLsb' 0 8)
  refine ⟨exec_dec_halted, exec_dec_above_byte, fun hh hb hreserved => exec_dec_reserved hh ?_,
    fun hh m o r v vo vr vv hfields hm ho hr hv => ?_⟩
  · rw [lowByte_toNat hb] at hmode hrng
    by_contra hne
    obtain ⟨hlegalMode, hlegalRng⟩ := (decodeValues_ne_none_iff _).mp hne
    omega
  · have ho4 : o < 4 := by simp at ho; omega
    have hr4 : r < 4 := by simp at hr; omega
    have hv4 : v < 4 := by simp at hv; omega
    have hb : b.toNat ≤ 255 := by omega
    rw [lowByte_toNat hb] at hmode hodr hrng hosr
    have hmm : (m, m) ∈ [(0, 0), (1, 1)] := by simp; omega
    obtain ⟨xm, hxm, rfl⟩ := valueIn_of_mem_numbers (o := .mode) (hmode.trans (by omega)) hmm
    obtain ⟨xo, hxo, rfl⟩ := valueIn_of_mem_numbers (o := .odr) (hodr.trans (by omega)) ho
    obtain ⟨xr, hxr, rfl⟩ := valueIn_of_mem_numbers (o := .rng) (hrng.trans (by omega)) hr
    obtain ⟨xv, hxv, rfl⟩ := valueIn_of_mem_numbers (o := .osr) (hosr.trans (by omega)) hv
    rw [exec_dec_values hh hb (decodeValues_eq_some_iff.mpr ⟨hxm, hxo, hxr, hxv⟩), decPayload_eq]

end Sys2Proof.Machine
end

section
/-! `INIT` (41_init.md R90 to R93): each wait of an `INIT` begun in `s` is a state of its own (`initAt`), one lemma per event
leads from wait to wait, and `InitFrom` lists all that an `INIT` can come to, however late its inputs come. -/

namespace Sys2Proof.Machine

open Sys2Proof.Claims

/-! ### Where an `INIT` stands -/

/-- `s` with the events `es` appended, and these inputs left. -/
def State.afterEvents (s : State) (es : List Event) (as : List BusAnswer) (n : Nat) : State :=
  { s with answers := as, timerEnds := n, history := s.history ++ es }

/-- The `INIT` begun in `s` waits at position `j`, the events `es` behind it. -/
def initAt (s : State) (j : Job) (es : List Event) (as : List BusAnswer) (n : Nat) : State :=
  enterInit j (s.afterEvents es as n)

/-- The events of a soft reset that succeeded: the write and the settle delay (41_init.md R90, R92). -/
def softResetEvents (s : State) : List Event := [.write s.params.busAddr 0x0A#8 0x80#8 .ok, .delay 5]

/-- The events of an `INIT` whose first two writes succeeded (41_init.md R90, R91). -/
def control1Events (s : State) : List Event :=
  softResetEvents s ++ [.write s.params.busAddr 0x09#8 (ctrl1Image s.cfg) .ok]

/-- All that an `INIT` begun in `s` can come to: a wait, its success, or one of the three failures. -/
inductive InitFrom (s : State) : State → Prop
  | softReset (as : List BusAnswer) (n : Nat) : InitFrom s (initAt s .initReset [] as n)
  | settle (as : List BusAnswer) (n : Nat) : InitFrom s (initAt s .initSettle (softResetEvents s) as n)
  | control1 (as : List BusAnswer) (n : Nat) :
      InitFrom s (initAt s (.initControl1 (ctrl1Image s.cfg)) (softResetEvents s) as n)
  | rollOver (as : List BusAnswer) (n : Nat) : InitFrom s (initAt s .initRollOver (control1Events s) as n)
  | completed (as : List BusAnswer) (n : Nat) : InitFrom s (answered .ok 0
      { s.afterEvents (control1Events s ++ [rollOverOk s.params.busAddr]) as n with phase := .ready })
  | failed (es : List Event) (hes : es ∈ failedInits s) (as : List BusAnswer) (n : Nat) :
      InitFrom s (answered .busError 0 (s.afterEvents es as n))

/-! ### One event of `INIT` -/

section Events

variable {s : State} {j : Job} {es : List Event} {as rest : List BusAnswer} {d : BitVec 48} {n : Nat}

/-- What a write that took its answer leaves. -/
theorem logEvent_initAt (e : Event) :
    logEvent e { initAt s j es as n with answers := rest } = initAt s j (es ++ [e]) rest n := by
  simp [logEvent, initAt, enterInit, State.afterEvents]

/-- A failure ends `INIT` in the `PHASE` it began in. -/
theorem initFail_initAt (hp : s.phase = .uninitialized) :
    initFail (initAt s j es as n) = answered .busError 0 (s.afterEvents es as n) := by
  rw [initFail, ← hp]
  rfl

theorem advance_softReset_ok : advance (initAt s .initReset es (.ok d :: rest) n) =
    initAt s .initSettle (es ++ softResetEvents s) rest n := by
  rw [advance_initReset rfl, writeSoftReset, memWrite_ok rfl, logEvent_initAt, beginDelay]
  exact (logEvent_initAt (j := .initSettle) (.delay tSettle)).trans (by rw [List.append_assoc]; rfl)

theorem advance_settled : advance (initAt s .initSettle es as (n + 1)) =
    initAt s (.initControl1 (ctrl1Image s.cfg)) es as n := by
  rw [advance_initSettle rfl, endDelay_over rfl]
  rfl

theorem advance_control1_ok (b : Byte) : advance (initAt s (.initControl1 b) es (.ok d :: rest) n) =
    initAt s .initRollOver (es ++ [.write s.params.busAddr 0x09#8 b .ok]) rest n := by
  rw [advance_initControl1 rfl, writeControl1, memWrite_ok rfl, logEvent_initAt]
  rfl

theorem advance_rollOver_ok : advance (initAt s .initRollOver es (.ok d :: rest) n) =
    answered .ok 0 { s.afterEvents (es ++ [rollOverOk s.params.busAddr]) rest n with phase := .ready } := by
  rw [advance_initRollOver rfl, writeRollOver, memWrite_ok rfl, logEvent_initAt]
  rfl

/-- A write of `INIT` that fails, whichever of the three it is, ends it. -/
theorem advance_write_err {reg val : Byte}
    (hreq : (initAt s j es (.busError :: rest) n).busRequest = some (.writeByte s.params.busAddr reg val))
    (hp : s.phase = .uninitialized) : advance (initAt s j es (.busError :: rest) n) =
      answered .busError 0 (s.afterEvents (es ++ [.write s.params.busAddr reg val .err]) rest n) := by
  rw [← initFail_initAt hp (j := j)]
  cases j <;> cases hreq
  case initReset => rw [advance_initReset rfl, writeSoftReset, memWrite_err rfl, logEvent_initAt]; rfl
  case initControl1 => rw [advance_initControl1 rfl, writeControl1, memWrite_err rfl, logEvent_initAt]; rfl
  case initRollOver => rw [advance_initRollOver rfl, writeRollOver, memWrite_err rfl, logEvent_initAt]; rfl

end Events

/-! ### The command and its run -/

/-- A run that has ended after `k` events is the command's. -/
theorem runCommand_of_run {u t : State} {k : Nat} (hk : k ≤ maxEvents) (hrun : run k u = t) (hidle : t.job = .idle) :
    runCommand u = t := by
  obtain ⟨m, hm⟩ := Nat.exists_eq_add_of_le hk
  rw [runCommand, hm, run_add, hrun, run_idle hidle]

theorem exec_init (arg : Half) (s : State) : exec (.init arg) s = .next (initialise arg (accept s)) := rfl

section Runs

variable {s : State} {arg : Half} {d1 d2 : BitVec 48} {n : Nat}

theorem exec_init_halted (hh : s.halt = true) : exec (.init arg) s = .next (answered .halted 0 s) := by
  simp [exec_init, initialise, hh, respond_accept]

theorem exec_init_illegal (hh : s.halt = false) (ha : arg ≠ 0#16) :
    exec (.init arg) s = .next (answered .illegalCmd 0 s) := by
  simp [exec_init, initialise, hh, ha, respond_accept]

theorem exec_init_out_of_sequence (hh : s.halt = false) (hp : s.phase ≠ .uninitialized) :
    exec (.init 0#16) s = .next (answered .seqError 0 s) := by
  simp [exec_init, initialise, hh, hp, respond_accept]

/-- An `INIT` past its checks starts at the soft reset, with nothing in its history yet. -/
theorem exec_init_begins (hh : s.halt = false) (hp : s.phase = .uninitialized) :
    exec (.init 0#16) s = .next (runCommand (initAt s .initReset [] s.answers s.timerEnds)) := by
  have hstart : initAt s .initReset [] s.answers s.timerEnds = enterInit .initReset (accept s) := by
    simp [initAt, State.afterEvents, enterInit, accept]
  simp [exec_init, initialise, hh, hp, hstart]

/-- An `INIT` answers at once where its run ends. -/
theorem exec_init_of_run {as : List BusAnswer} {m k : Nat} {t : State} (hh : s.halt = false)
    (hp : s.phase = .uninitialized) (ha : s.answers = as) (ht : s.timerEnds = m) (hk : k ≤ maxEvents)
    (hrun : run k (initAt s .initReset [] as m) = t) (hidle : t.job = .idle) : exec (.init 0#16) s = .next t := by
  rw [exec_init_begins hh hp, ha, ht, runCommand_of_run hk hrun hidle]

/-- The soft reset and the settle delay over, the Control-1 write is issued. -/
theorem run_to_control1 (as : List BusAnswer) : run 2 (initAt s .initReset [] (.ok d1 :: as) (n + 1)) =
    initAt s (.initControl1 (ctrl1Image s.cfg)) (softResetEvents s) as n := by
  rw [run, advance_softReset_ok, run, advance_settled, run, List.nil_append]

/-- The first two writes and the settle delay over, the roll-over write is issued. -/
theorem run_to_rollOver (as : List BusAnswer) : run 3 (initAt s .initReset [] (.ok d1 :: .ok d2 :: as) (n + 1)) =
    initAt s .initRollOver (control1Events s) as n := by
  rw [run_add 2 1, run_to_control1, run, advance_control1_ok, run, control1Events]

end Runs

/-- Settles O22: the checks in their order, and the four events of `INIT` one after the other. -/
theorem initRunsTheFixedSequence : Obligations.InitRunsTheFixedSequence := by
  refine fun s arg => ⟨exec_init_halted, exec_init_illegal, fun hh ha hp => ha ▸ exec_init_out_of_sequence hh hp,
    fun d1 d2 d3 rest n hh harg hp ha ht => ?_⟩
  subst harg
  refine exec_init_of_run (k := 3 + 1) hh hp ha ht (by decide) ?_ rfl
  rw [run_add, run_to_rollOver, run, advance_rollOver_ok, run]
  rfl

/-! ### The failures, and no others -/

/-- Each event leads an `INIT` to its next wait or to an end, and without an input it stays. -/
theorem initFrom_advance {s u : State} (hp : s.phase = .uninitialized) (hu : InitFrom s u) : InitFrom s (advance u) := by
  cases hu with
  | softReset as n =>
    obtain _ | ⟨_ | _, rest⟩ := as
    · exact .softReset [] n
    · rw [advance_softReset_ok]; exact .settle rest n
    · rw [advance_write_err rfl hp]; exact .failed _ List.mem_cons_self rest n
  | settle as n =>
    obtain _ | n := n
    · exact .settle as 0
    · rw [advance_settled]; exact .control1 as n
  | control1 as n =>
    obtain _ | ⟨_ | _, rest⟩ := as
    · exact .control1 [] n
    · rw [advance_control1_ok]; exact .rollOver rest n
    · rw [advance_write_err rfl hp]; exact .failed _ (.tail _ List.mem_cons_self) rest n
  | rollOver as n =>
    obtain _ | ⟨_ | _, rest⟩ := as
    · exact .rollOver [] n
    · rw [advance_rollOver_ok]; exact .completed rest n
    · rw [advance_write_err rfl hp]; exact .failed _ (.tail _ (.tail _ List.mem_cons_self)) rest n
  | completed as n => exact .completed as n
  | failed es hes as n => exact .failed es hes as n

/-- A wait with further inputs is the same wait; an end leaves them alone. -/
theorem initFrom_withInputs {s u : State} (hu : InitFrom s u) (as : List BusAnswer) (k : Nat) :
    InitFrom s (withInputs as k u) := by
  cases hu with
  | softReset => exact .softReset ..
  | settle => exact .settle ..
  | control1 => exact .control1 ..
  | rollOver => exact .rollOver ..
  | completed => exact .completed ..
  | failed es hes => exact .failed es hes ..

theorem initFrom_goesOnTo {s t u : State} (hp : s.phase = .uninitialized) (ht : InitFrom s t) {n : Nat}
    (h : GoesOnTo n t u) : InitFrom s u := by
  induction n generalizing t with
  | zero => cases h; exact ht
  | succ n ih =>
    obtain ⟨as, k, v, hr, hb, hstep, hgo⟩ := h
    rw [step_busy (s := withInputs as k t) hr hb, Host.Outcome.next.injEq] at hstep
    subst hstep
    exact ih (initFrom_advance hp (initFrom_withInputs ht as k)) hgo

theorem initFrom_exec {s t : State} (hh : s.halt = false) (hp : s.phase = .uninitialized)
    (h : exec (.init 0#16) s = .next t) : InitFrom s t := by
  rw [exec_init_begins hh hp, Host.Outcome.next.injEq] at h
  subst h
  exact run_induct (P := InitFrom s) (fun _ => initFrom_advance hp) (.softReset s.answers s.timerEnds) maxEvents

/-- An `INIT` that has answered `BUS_ERROR` is at one of the three failures. -/
theorem InitFrom.busError {s u : State} {r : Response} (hu : InitFrom s u) (hr : u.responses = s.responses ++ [r])
    (hst : r.status = .busError) : ∃ es ∈ failedInits s, ∃ as n, u = answered .busError 0 (s.afterEvents es as n) := by
  have silent : s.responses ≠ s.responses ++ [r] := by simp
  cases hu with
  | softReset => exact absurd hr silent
  | settle => exact absurd hr silent
  | control1 => exact absurd hr silent
  | rollOver => exact absurd hr silent
  | completed =>
    cases List.append_cancel_left hr
    cases hst
  | failed es hes as n => exact ⟨es, hes, as, n, rfl⟩

/-- Settles O23: the run up to each failing write; and whatever `INIT` comes to stays in `InitFrom`, where `BUS_ERROR` means
one of the three failures. -/
theorem initStopsAtTheFirstFailedWrite : Obligations.InitStopsAtTheFirstFailedWrite := by
  refine fun s hh hp => ⟨fun rest ha => ?_, fun d1 rest n ha ht => ?_, fun d1 d2 rest n ha ht => ?_,
    fun t u n r hexec hgo hr hst => ?_⟩
  · refine exec_init_of_run (k := 1) hh hp ha rfl (by decide) ?_ rfl
    rw [run, advance_write_err rfl hp, run]
    rfl
  · refine exec_init_of_run (k := 2 + 1) hh hp ha ht (by decide) ?_ rfl
    rw [run_add, run_to_control1, run, advance_write_err rfl hp, run]
    rfl
  · refine exec_init_of_run (k := 3 + 1) hh hp ha ht (by decide) ?_ rfl
    rw [run_add, run_to_rollOver, run, advance_write_err rfl hp, run]
    rfl
  · have hu := initFrom_goesOnTo hp (initFrom_exec hh hp hexec) hgo
    obtain ⟨es, hes, as, m, rfl⟩ := hu.busError hr hst
    exact ⟨⟨es, hes, rfl⟩, hp, rfl⟩

end Sys2Proof.Machine
end

section
/-! The scaler (42_acquisition.md R106 to R109): its output is `RN` of the exact Gauss value times `2 ^ FRAC_W`, and all
that R109 says follows from what `RN` is. -/

namespace Sys2Proof.Machine

open Sys2Proof.Claims

/-! ### Legal parameters (00_scope.md R4) -/

theorem Params.fracW_of_wf {p : Params} (h : p.wf = true) : 7 ≤ p.fracW := by
  simp only [Params.wf, Bool.and_eq_true, decide_eq_true_eq] at h
  omega

theorem Params.outW_of_wf {p : Params} (h : p.wf = true) : p.fracW + 5 ≤ p.outW := by
  simp only [Params.wf, Bool.and_eq_true, decide_eq_true_eq] at h
  omega

/-! ### `RN` (00_scope.md section 7) -/

theorem isRN_roundNearest (n : Int) {d : Nat} (hd : 0 < d) : IsRN ((n : ℚ) / d) (roundNearest n d) := by
  obtain ⟨hclose, htie⟩ := roundNearest_spec n hd
  have hd' : (0 : ℚ) < d := by exact_mod_cast hd
  have herr : |(n : ℚ) / d - roundNearest n d| = (|n - d * roundNearest n d| : Int) / d := by
    push_cast
    rw [← abs_of_pos hd', ← abs_div, abs_of_pos hd', sub_div, mul_div_cancel_left₀ _ hd'.ne']
  rw [IsRN, herr, div_le_div_iff₀ hd' two_pos, div_eq_div_iff hd'.ne' two_ne_zero]
  refine ⟨?_, fun h => htie ?_⟩
  · rw [one_mul, mul_comm]; exact_mod_cast hclose
  · rw [one_mul, mul_comm] at h; exact_mod_cast h

/-- Two integers are both `RN` of a number only if they are the same: at a tie the even one is. -/
theorem isRN_unique {q : ℚ} {i j : Int} (hi : IsRN q i) (hj : IsRN q j) : i = j := by
  obtain ⟨hci, hti⟩ := hi
  obtain ⟨hcj, htj⟩ := hj
  wlog hij : i ≤ j generalizing i j
  · exact (this hcj htj hci hti (by omega)).symm
  by_contra hne
  have hstep : (i : ℚ) + 1 ≤ j := by exact_mod_cast (by omega : i + 1 ≤ j)
  rw [abs_le] at hci hcj
  have hji : j = i + 1 := by
    have hq : (j : ℚ) ≤ i + 1 := by linarith
    have : j ≤ i + 1 := by exact_mod_cast hq
    omega
  have hqi : |q - i| = 1 / 2 := by rw [abs_of_pos] <;> linarith
  have hqj : |q - j| = 1 / 2 := by rw [abs_of_neg] <;> linarith
  have := hti hqi
  have := htj hqj
  omega

theorem isRN_neg {q : ℚ} {i : Int} (h : IsRN q i) : IsRN (-q) (-i) := by
  have hdist : |-q - (-i : Int)| = |q - i| := by
    rw [← abs_neg]
    push_cast
    ring_nf
  rw [IsRN, hdist, Int.neg_emod_two]
  exact h

theorem isRN_intCast (k : Int) : IsRN k k := by simp [IsRN]

/-! ### The fraction the scaler rounds -/

/-- The numerator (42_acquisition.md R107, R108). -/
def scaleNum (p : Params) (acc : Int) : Int := (meanOf p.meanDiv acc).1 * 2 ^ p.fracW

/-- The denominator (42_acquisition.md R106, R107). -/
def scaleDen (p : Params) (acc : Int) (rng : BitVec 2) : Nat := (meanOf p.meanDiv acc).2 * countsPerGauss rng

theorem scale_eq (p : Params) (acc : Int) (rng : BitVec 2) :
    scale p acc rng = roundNearest (scaleNum p acc) (scaleDen p acc rng) := rfl

/-- A legal range code counts 12000 or 3000 to the Gauss (42_acquisition.md R106). -/
theorem countsPerGauss_of_legal {rng : BitVec 2} (hrng : rng.toNat ≤ 1) :
    countsPerGauss rng = if rng = 0#2 then 12000 else 3000 := by
  have hlegal : ¬ rng = 0#2 → rng = 1#2 := fun hne => by bv_omega
  unfold countsPerGauss
  split_ifs with h0 h1
  · rfl
  · rfl
  · exact absurd (hlegal h0) h1

/-- The denominators that occur. -/
theorem scaleDen_cases (p : Params) (acc : Int) {rng : BitVec 2} (hrng : rng.toNat ≤ 1) :
    scaleDen p acc rng = 120000 ∨ scaleDen p acc rng = 30000 ∨ scaleDen p acc rng = 12000 ∨
      scaleDen p acc rng = 3000 := by
  have hcounts : countsPerGauss rng = 12000 ∨ countsPerGauss rng = 3000 := by
    rw [countsPerGauss_of_legal hrng]
    split_ifs <;> simp
  cases hd : p.meanDiv <;> simp only [scaleDen, meanOf, hd] <;> omega

theorem scaleDen_pos (p : Params) (acc : Int) {rng : BitVec 2} (hrng : rng.toNat ≤ 1) : 0 < scaleDen p acc rng := by
  have hden := scaleDen_cases p acc hrng
  omega

/-- The fraction is the exact Gauss value times `2 ^ FRAC_W`. -/
theorem gauss_mul_pow (p : Params) (acc : Int) {rng : BitVec 2} (hrng : rng.toNat ≤ 1) :
    gauss p.meanDiv rng acc * 2 ^ p.fracW = (scaleNum p acc : ℚ) / scaleDen p acc rng := by
  have hmean : mean p.meanDiv acc = ((meanOf p.meanDiv acc).1 : ℚ) / (meanOf p.meanDiv acc).2 := by
    cases p.meanDiv <;> simp [mean, meanOf]
  rw [gauss, hmean, scaleNum, scaleDen, countsPerGauss_of_legal hrng]
  push_cast
  ring

/-- The scaler's output is `RN(G_a * 2 ^ FRAC_W)` (42_acquisition.md R109). -/
theorem isRN_scale (p : Params) (acc : Int) {rng : BitVec 2} (hrng : rng.toNat ≤ 1) :
    IsRN (gauss p.meanDiv rng acc * 2 ^ p.fracW) (scale p acc rng) := by
  rw [gauss_mul_pow p acc hrng, scale_eq]
  exact isRN_roundNearest _ (scaleDen_pos p acc hrng)

/-- Settles O34: half a unit of `RN`, divided by `2 ^ FRAC_W`. -/
theorem scaleErrsByAtMostHalfAUnit : Obligations.ScaleErrsByAtMostHalfAUnit := by
  intro p acc rng hrng
  have hpow : (0 : ℚ) < 2 ^ p.fracW := by positivity
  calc |(scale p acc rng : ℚ) / 2 ^ p.fracW - gauss p.meanDiv rng acc|
      = |gauss p.meanDiv rng acc * 2 ^ p.fracW - scale p acc rng| / 2 ^ p.fracW := by
        rw [abs_sub_comm, ← abs_of_pos hpow, ← abs_div, abs_of_pos hpow, sub_div, mul_div_cancel_right₀ _ hpow.ne']
    _ ≤ 1 / 2 / 2 ^ p.fracW := by gcongr; exact (isRN_scale p acc hrng).1
    _ = 1 / 2 ^ (p.fracW + 1) := by rw [pow_succ', div_div]

/-! ### No ties -/

/-- The numerator is divisible by 128, and half of a denominator never is a remainder of such a number: 64 is the highest
power of two in any of them. -/
theorem scale_remainder_not_half {p : Params} (acc : Int) {rng : BitVec 2} (hwf : p.wf = true) (hrng : rng.toNat ≤ 1) :
    2 * (scaleNum p acc % (scaleDen p acc rng : Int)) ≠ scaleDen p acc rng := by
  obtain ⟨k, hk⟩ : (128 : Int) ∣ scaleNum p acc :=
    Dvd.dvd.mul_left (pow_dvd_pow (2 : Int) (Params.fracW_of_wf hwf)) _
  obtain hd | hd | hd | hd := scaleDen_cases p acc hrng <;> rw [hk, hd] <;> omega

/-- Without a tie, rounding is to the nearer of the two neighbours. -/
theorem roundNearest_of_no_tie {n : Int} {d : Nat} (h : 2 * (n % (d : Int)) ≠ d) :
    roundNearest n d = if 2 * (n % (d : Int)) < d then n / (d : Int) else n / (d : Int) + 1 := by
  unfold roundNearest
  obtain hlt | hgt := lt_or_gt_of_ne h
  · simp [hlt]
  · simp [hgt, hgt.not_gt]

/-- An odd multiple of one half leaves half of the denominator. -/
theorem two_mul_emod_of_odd_halves {n k : Int} {d : Nat} (hd : 0 < d) (h : 2 * n = (2 * k + 1) * d) :
    2 * (n % (d : Int)) = d := by
  have hd' : (0 : Int) < d := by exact_mod_cast hd
  calc 2 * (n % (d : Int)) = (2 * n) % (2 * d) := (Int.mul_emod_mul_of_pos n d two_pos).symm
    _ = (d + 2 * d * k) % (2 * d) := by rw [h]; ring_nf
    _ = d := by rw [Int.add_mul_emod_self_left, Int.emod_eq_of_lt] <;> omega

/-- Settles O35: no remainder is half of the denominator (`scale_remainder_not_half`), as a tie would make it. -/
theorem scaleNeverMeetsATie : Obligations.ScaleNeverMeetsATie := by
  intro p acc rng hwf hrng
  have hpos := scaleDen_pos p acc hrng
  have hno := scale_remainder_not_half acc hwf hrng
  refine ⟨hpos, hno, roundNearest_of_no_tie hno, fun k hk => hno (two_mul_emod_of_odd_halves hpos (k := k) ?_)⟩
  have hpos' : (0 : ℚ) < scaleDen p acc rng := by exact_mod_cast hpos
  rw [gauss_mul_pow p acc hrng, ← mul_div_assoc, div_eq_iff hpos'.ne'] at hk
  exact_mod_cast hk

/-! ### The range of the output -/

/-- The mean of ten samples is in the range of one. -/
theorem abs_mean_le (d : MeanDiv) {acc : Int} (h : SumOf 10 acc) : |mean d acc| ≤ 32768 := by
  obtain ⟨hlow, hhigh⟩ := h
  cases d with
  | exact =>
    have hle : |acc| ≤ 327680 := abs_le.mpr (by omega)
    have hle' : |(acc : ℚ)| ≤ 327680 := by exact_mod_cast hle
    rw [mean, abs_div, div_le_iff₀ (by simp)]
    norm_num [hle']
  | truncZero =>
    have hle : |acc.tdiv 10| ≤ 32768 := by
      rw [Int.tdiv_eq_ediv, abs_le, Int.sign_eq_one_of_pos (by decide)]
      split_ifs <;> omega
    rw [mean]
    exact_mod_cast hle
  | floor =>
    have hle : |acc.fdiv 10| ≤ 32768 := by
      rw [Int.fdiv_eq_ediv_of_nonneg _ (by decide), abs_le]
      omega
    rw [mean]
    exact_mod_cast hle

/-- The exact output of ten samples is below 11 Gauss. -/
theorem abs_gauss_le (d : MeanDiv) (rng : BitVec 2) {acc : Int} (h : SumOf 10 acc) : |gauss d rng acc| ≤ 11 := by
  have hmean := abs_mean_le d h
  have hcounts : (3000 : ℚ) ≤ if rng = 0#2 then 12000 else 3000 := by split_ifs <;> norm_num
  rw [gauss, abs_div]
  refine div_le_of_le_mul₀ (abs_nonneg _) (by norm_num) (hmean.trans ?_)
  linarith [hcounts.trans (le_abs_self _)]

theorem scale_fits {p : Params} {acc : Int} {rng : BitVec 2} (hwf : p.wf = true) (hrng : rng.toNat ≤ 1)
    (hsum : SumOf 10 acc) : |scale p acc rng| < 2 ^ (p.outW - 1) := by
  have hone : (1 : ℚ) ≤ 2 ^ p.fracW := one_le_pow₀ one_le_two
  have hgauss : |gauss p.meanDiv rng acc * 2 ^ p.fracW| ≤ 11 * 2 ^ p.fracW := by
    rw [abs_mul, abs_of_pos (zero_lt_one.trans_le hone)]
    gcongr
    exact abs_gauss_le p.meanDiv rng hsum
  have hwidth : (2 : ℚ) ^ (p.fracW + 4) ≤ 2 ^ (p.outW - 1) := by
    have := Params.outW_of_wf hwf
    exact pow_le_pow_right₀ one_le_two (by omega)
  obtain ⟨hclose, -⟩ := isRN_scale p acc hrng
  have hlt : |(scale p acc rng : ℚ)| < 2 ^ (p.outW - 1) := by
    rw [pow_add] at hwidth
    rw [abs_le] at hgauss hclose
    rw [abs_lt]
    constructor <;> linarith
  exact_mod_cast hlt

/-- Settles O36: at most 11 of the 16 Gauss that `OUT_W` has room for. -/
theorem scaleFitsTheOutputWidth : Obligations.ScaleFitsTheOutputWidth := by
  intro p acc rng hwf hrng hsum
  obtain ⟨hlow, hhigh⟩ := abs_lt.mp (scale_fits hwf hrng hsum)
  exact ⟨hlow.le, hhigh⟩

/-! ### Oddness, zero and integers -/

theorem gauss_neg {d : MeanDiv} (hd : d ≠ .floor) (rng : BitVec 2) (acc : Int) :
    gauss d rng (-acc) = -gauss d rng acc := by
  cases d with
  | exact => simp only [gauss, mean]; push_cast; ring
  | truncZero => simp only [gauss, mean, Int.neg_tdiv]; push_cast; ring
  | floor => exact absurd rfl hd

theorem gauss_zero (d : MeanDiv) (rng : BitVec 2) : gauss d rng 0 = 0 := by
  cases d <;> simp [gauss, mean]

/-- Where the exact output is an integer, the scaler gives it. -/
theorem scale_eq_of_gauss_eq {p : Params} {acc k : Int} {rng : BitVec 2} (hrng : rng.toNat ≤ 1)
    (hk : gauss p.meanDiv rng acc * 2 ^ p.fracW = k) : scale p acc rng = k :=
  isRN_unique (hk ▸ isRN_scale p acc hrng) (isRN_intCast k)

/-- Settles O37: `RN` is odd, and it is the identity on integers. -/
theorem scaleIsOddAndExactOnIntegers : Obligations.ScaleIsOddAndExactOnIntegers := by
  refine fun p acc rng _ hrng => ⟨fun hd => ?_, ?_, fun k => scale_eq_of_gauss_eq hrng⟩
  · refine isRN_unique (isRN_scale p (-acc) hrng) ?_
    rw [gauss_neg hd, neg_mul]
    exact isRN_neg (isRN_scale p acc hrng)
  · exact scale_eq_of_gauss_eq hrng (by simp [gauss_zero])

end Sys2Proof.Machine
end

section
/-! Acquisition (42_acquisition.md R101 to R105, R110, R114): a sample is the signed number its two bytes spell, `RDRAW` is
one block read, and a filtered read is up to ten reads with their delays. The run up to its outputs is the same for `READ`
and `HEAD`. -/

namespace Sys2Proof.Machine

open Sys2Proof.Claims

/-! ### Samples -/

theorem blockByte_toNat (d : BitVec 48) (k : Nat) : (blockByte d k).toNat = byteOf d k := by
  rw [blockByte, BitVec.extractLsb'_toNat, Nat.shiftRight_eq_div_pow]
  rfl

theorem blockByte_eq_ofNat (d : BitVec 48) (k : Nat) : blockByte d k = BitVec.ofNat 8 (byteOf d k) := by
  rw [← blockByte_toNat, BitVec.ofNat_toNat, BitVec.setWidth_eq]

/-- Two bytes side by side, the high one first, read as two's complement (log 17). -/
theorem toInt_append_bytes (h l : Byte) : BitVec.toInt (h ++ l : Half) = s16 (h.toNat * 256 + l.toNat) := by
  have happend : BitVec.toNat (h ++ l : Half) = h.toNat * 256 + l.toNat := by
    rw [BitVec.toNat_append, ← Nat.shiftLeft_add_eq_or_of_lt l.isLt, Nat.shiftLeft_eq]
  rw [BitVec.toInt_eq_toNat_cond, happend, s16]
  split_ifs <;> omega

theorem axisPattern_toInt (order : ByteOrder) (d : BitVec 48) (axis : Nat) :
    (axisPattern order d axis).toInt = axisValue order d axis := by
  cases order <;> simp only [axisPattern, axisValue, toInt_append_bytes, blockByte_toNat]

/-- Settles O25: the pattern is the high byte before the low one, in either order of the two in the block. -/
theorem samplesAreReassembledAsSigned16 : Obligations.SamplesAreReassembledAsSigned16 :=
  fun order d axis _ => axisPattern_toInt order d axis

/-! ### The event of a block read -/

theorem blockBytes_eq (d : BitVec 48) : blockBytes d = (List.range 6).map fun k => BitVec.ofNat 8 (byteOf d k) :=
  List.map_congr_left fun k _ => blockByte_eq_ofNat d k

theorem flatMap_sampleEvents (p : Params) (ds : List (BitVec 48)) : ds.flatMap (sampleEvents p) = readPairs p ds := by
  refine List.flatMap_congr fun d _ => ?_
  rw [sampleEvents, blockBytes_eq]
  rfl

/-! ### The checks (60_exceptions.md R131) -/

section Checks

variable {s : State} {illegal : Bool} {begin_ : State → State}

theorem acquire_halted (hh : s.halt = true) : acquire illegal begin_ (accept s) = answered .halted 0 s := by
  simp [acquire, hh, respond_accept]

theorem acquire_illegal (hh : s.halt = false) : acquire true begin_ (accept s) = answered .illegalCmd 0 s := by
  simp [acquire, hh, respond_accept]

theorem acquire_not_ready (hh : s.halt = false) (hg : s.params.guardNotReady = true) (hp : s.phase ≠ .ready) :
    acquire false begin_ (accept s) = answered .notReady 0 s := by
  simp [acquire, hh, notReady, hg, hp, respond_accept]

theorem acquire_begins (h : MayAcquire s) : acquire false begin_ (accept s) = runCommand (begin_ (accept s)) := by
  obtain ⟨hh, hready⟩ := h
  have hguard : notReady (accept s) = false := Bool.and_eq_false_imp.mpr fun hg => by simp [hready hg]
  simp [acquire, hh, hguard]

end Checks

/-! ### `RDRAW` -/

theorem exec_rdraw (arg : Half) (s : State) :
    exec (.rdraw arg) s = .next (acquire (arg != 0#16) (fun s => { s with job := .rawRead }) (accept s)) := rfl

/-- An `RDRAW` past its checks ends with its one block read. -/
theorem exec_rdraw_of_advance {s t : State} (h : MayAcquire s)
    (hread : readRawSample { accept s with job := .rawRead } = t) (hidle : t.job = .idle) :
    exec (.rdraw 0#16) s = .next t := by
  rw [exec_rdraw, bne_self_eq_false, acquire_begins h]
  exact congrArg _ (runCommand_of_run (k := 1) (by decide) hread hidle)

theorem exec_rdraw_err {s : State} {rest : List BusAnswer} (h : MayAcquire s) (ha : s.answers = .busError :: rest) :
    exec (.rdraw 0#16) s = .next (answered .busError 0 { s with
      answers := rest
      history := s.history ++ [.read s.params.busAddr 0x00#8 6 .err] }) :=
  exec_rdraw_of_advance h (memRead_err ha) rfl

theorem rawPayload_eq (x y z : Half) : rawPayload x y z = x.toNat + 2 ^ 16 * y.toNat + 2 ^ 32 * z.toNat := by
  simp only [rawPayload, packHalves]
  ring

theorem readRawSample_ok {u : State} {d : BitVec 48} {rest : List BusAnswer} (ha : u.answers = .ok d :: rest) :
    readRawSample u = answered .ok
      (rawPayload (axisPattern u.params.sampleByteOrder d 0) (axisPattern u.params.sampleByteOrder d 1)
        (axisPattern u.params.sampleByteOrder d 2))
      (latchRaw d { u with answers := rest, history := u.history ++ [readOk u.params d] }) := by
  rw [readRawSample, memRead_ok ha, blockBytes_eq]
  rfl

theorem exec_rdraw_ok {s : State} {d : BitVec 48} {rest : List BusAnswer} (h : MayAcquire s)
    (ha : s.answers = .ok d :: rest) : exec (.rdraw 0#16) s = .next (answered .ok
      (rawPayload (axisPattern s.params.sampleByteOrder d 0) (axisPattern s.params.sampleByteOrder d 1)
        (axisPattern s.params.sampleByteOrder d 2))
      (latchRaw d { s with answers := rest, history := s.history ++ [readOk s.params d] })) :=
  exec_rdraw_of_advance h (readRawSample_ok ha) rfl

/-- Settles O26: the three checks in their order, then the two ends of the block read. -/
theorem rdrawAnswersOneSample : Obligations.RdrawAnswersOneSample := by
  refine fun s arg => ⟨fun hh => ?_, fun hh ha => ?_, fun hh ha hg hp => ?_, fun h harg rest ha => ?_,
    fun h harg d rest ha => ?_⟩
  · rw [exec_rdraw, acquire_halted hh]
  · rw [exec_rdraw, bne_iff_ne.mpr ha, acquire_illegal hh]
  · rw [exec_rdraw, ha, bne_self_eq_false, acquire_not_ready hh hg hp]
  · rw [harg, exec_rdraw_err h ha]
  · refine ⟨_, _, _, axisPattern_toInt .., axisPattern_toInt .., axisPattern_toInt .., ?_⟩
    rw [harg, exec_rdraw_ok h ha, rawPayload_eq]
    rfl

/-! ### The sums of `FilteredAcc()` -/

/-- No sum of ten samples wraps (42_acquisition.md R112). -/
theorem accAfter_eq_sum {p : Params} (hw : 20 ≤ p.accW) (axis : Nat) {n : Nat} {acc : Int} {ds : List (BitVec 48)}
    (h : SumOf n acc) (hn : n + ds.length ≤ 10) :
    accAfter p axis acc ds = acc + sumOf p.sampleByteOrder ds axis ∧
      SumOf (n + ds.length) (acc + sumOf p.sampleByteOrder ds axis) := by
  induction ds generalizing n acc with
  | nil => simpa [accAfter, sumOf] using h
  | cons d ds ih =>
    rw [List.length_cons] at hn
    obtain ⟨hadd, hnext⟩ := accumulate_sum h (by omega) hw (axisPattern p.sampleByteOrder d axis)
    rw [axisPattern_toInt] at hadd hnext
    have hsum : sumOf p.sampleByteOrder (d :: ds) axis =
        axisValue p.sampleByteOrder d axis + sumOf p.sampleByteOrder ds axis := List.sum_cons
    have hfold : accAfter p axis acc (d :: ds) = accAfter p axis (acc + axisValue p.sampleByteOrder d axis) ds :=
      congrArg (accAfter p axis · ds) hadd
    rw [hfold, hsum, List.length_cons, ← add_assoc, ← Nat.add_assoc, Nat.add_right_comm]
    exact ih hnext (by omega)

/-- From zero sums, the accumulator of an axis is the sum of its ten samples. -/
theorem accAfter_ten {p : Params} (hw : 20 ≤ p.accW) {ds : List (BitVec 48)} (hlen : ds.length = 10) (axis : Nat) :
    accAfter p axis 0 ds = sumOf p.sampleByteOrder ds axis ∧ SumOf 10 (sumOf p.sampleByteOrder ds axis) := by
  have hsum := accAfter_eq_sum hw axis (n := 0) (acc := 0) (ds := ds) (by simp [SumOf]) (by omega)
  simpa [hlen] using hsum

/-- The sum of an axis depends on that axis's values only (42_acquisition.md R114). -/
theorem sumOf_congr {order : ByteOrder} {ds es : List (BitVec 48)} {axis : Nat} (hlen : ds.length = es.length)
    (h : ∀ k, k < ds.length → axisValue order (ds.getD k 0#48) axis = axisValue order (es.getD k 0#48) axis) :
    sumOf order ds axis = sumOf order es axis := by
  refine congrArg List.sum (List.ext_getElem (by simpa using hlen) fun k hk hk' => ?_)
  rw [List.length_map] at hk hk'
  simpa [hk, hk'] using h k hk

/-! ### The run of a filtered read -/

/-- `s` with ten blocks read: their sums, their events, and these inputs left (42_acquisition.md R105). -/
def State.afterTenReads (s : State) (ds : List (BitVec 48)) (rx ry rz : Half) (as : List BusAnswer) (n : Nat) : State :=
  { s with
    cnt := 10#4
    accX := sumOf s.params.sampleByteOrder ds 0
    accY := sumOf s.params.sampleByteOrder ds 1
    accZ := sumOf s.params.sampleByteOrder ds 2
    rawX := rx
    rawY := ry
    rawZ := rz
    answers := as
    timerEnds := n
    history := s.history ++ readPairs s.params ds }

/-- With ten samples in, the outputs follow (42_acquisition.md R105). -/
theorem nextSample_of_ten (want : Want) {u : State} (h : u.cnt = 10#4) : nextSample want u = finishFiltered want u := by
  rw [nextSample, h]
  rfl

/-- Ten reads and ten delays lead to the outputs. -/
theorem run_ten_reads (want : Want) {s : State} {ds : List (BitVec 48)} {rest : List BusAnswer} {n : Nat}
    (hw : 20 ≤ s.params.accW) (hlen : ds.length = 10) (ha : s.answers = ds.map .ok ++ rest)
    (ht : s.timerEnds = n + 10) : ∃ rx ry rz, runCommand (beginFiltered want s) =
      finishFiltered want { s.afterTenReads ds rx ry rz rest n with job := .gap want } := by
  obtain ⟨es, d, rfl⟩ : ∃ es d, ds = es ++ [d] :=
    ⟨_, _, (List.dropLast_append_getLast (List.ne_nil_of_length_eq_add_one hlen)).symm⟩
  have hes : es.length = 9 := by simpa using hlen
  obtain ⟨rx, ry, rz, hrun⟩ := run_samples want (.ok d :: rest) (n + 1) es (beginFiltered want s) rfl
    (by simpa using ha) (by rw [hes]; exact ht) (by simp [hes])
  rw [hes] at hrun
  have hacc : ∀ axis, accumulate s.params.accW (accAfter s.params axis 0 es)
      (axisPattern s.params.sampleByteOrder d axis) = sumOf s.params.sampleByteOrder (es ++ [d]) axis := fun axis => by
    rw [← (accAfter_ten hw hlen axis).1, accAfter, accAfter, List.foldl_concat]
  have hist : s.history ++ es.flatMap (sampleEvents s.params) ++ sampleEvents s.params d =
      s.history ++ readPairs s.params (es ++ [d]) := by
    simp [← flatMap_sampleEvents]
  refine ⟨axisPattern s.params.sampleByteOrder d 0, axisPattern s.params.sampleByteOrder d 1,
    axisPattern s.params.sampleByteOrder d 2, ?_⟩
  rw [runCommand, maxEvents, run_add 18 2, hrun, run_pair (n := n) rfl rfl rfl, nextSample_of_ten want rfl]
  simp [State.afterTenReads, hacc, hist]

theorem exec_read (arg : Half) (s : State) :
    exec (.read arg) s = .next (acquire (arg != 0#16) (beginFiltered .gauss) (accept s)) := rfl

theorem exec_head (arg : Half) (s : State) : exec (.head arg) s =
    .next (acquire (arg != 0#16 || !s.params.hasHeading) (beginFiltered .heading) (accept s)) := rfl

/-- A filtered read past its checks starts from zero sums. -/
theorem exec_filtered_begins {s : State} {i : Instr} {want : Want} (hi : FilteredRead s.params i want)
    (h : MayAcquire s) : exec i s = .next (runCommand (beginFiltered want (accept s))) := by
  obtain ⟨rfl, rfl⟩ | ⟨rfl, rfl, hhead⟩ := hi
  · rw [exec_read, bne_self_eq_false, acquire_begins h]
  · rw [exec_head, bne_self_eq_false, hhead, Bool.not_true, Bool.or_false, acquire_begins h]

/-- What `READ` outputs for an axis after the blocks `ds` (42_acquisition.md R104, R108). -/
def State.gaussOutput (s : State) (ds : List (BitVec 48)) (axis : Nat) : Int :=
  scale s.params (sumOf s.params.sampleByteOrder ds axis) s.cfg.rng

/-- `READ` answers with the scaled sums of its ten blocks. -/
theorem exec_read_ok {s : State} {ds : List (BitVec 48)} {rest : List BusAnswer} {n : Nat} (hw : 20 ≤ s.params.accW)
    (h : MayAcquire s) (hlen : ds.length = 10) (ha : s.answers = ds.map .ok ++ rest) (ht : s.timerEnds = n + 10) :
    ∃ rx ry rz, exec (.read 0#16) s = .next (answered .ok
      (gaussPayload s.params.outW (s.gaussOutput ds 0) (s.gaussOutput ds 1) (s.gaussOutput ds 2))
      (s.afterTenReads ds rx ry rz rest n)) := by
  obtain ⟨rx, ry, rz, hrun⟩ := run_ten_reads .gauss (s := accept s) hw hlen ha ht
  exact ⟨rx, ry, rz, (exec_filtered_begins (.inl ⟨rfl, rfl⟩) h).trans (congrArg _ hrun)⟩

/-- A read that fails ends the command at once (42_acquisition.md R110). -/
theorem run_sample_err {u : State} {want : Want} {rest : List BusAnswer} (hj : u.job = .sample want)
    (ha : u.answers = .busError :: rest) : run 1 u = answered .busError 0 { u with
      answers := rest
      history := u.history ++ [.read u.params.busAddr 0x00#8 6 .err] } :=
  (advance_sample hj).trans (memRead_err ha)

/-- Settles O29: the reads before the failing one and their delays, then the failure. -/
theorem filteredReadAbortsAtTheFirstFailure : Obligations.FilteredReadAbortsAtTheFirstFailure := by
  intro s i ds rest n hi h hlen ha ht
  obtain ⟨want, hi⟩ : ∃ want, FilteredRead s.params i want :=
    hi.elim (fun hread => ⟨.gauss, .inl ⟨hread, rfl⟩⟩) fun ⟨hhead, hengine⟩ => ⟨.heading, .inr ⟨hhead, rfl, hengine⟩⟩
  obtain ⟨rx, ry, rz, hrun⟩ := run_samples want (.busError :: rest) n ds (beginFiltered want (accept s)) rfl ha ht
    (by simpa using hlen)
  have hend := (run_add (2 * ds.length) 1 _).trans ((congrArg (run 1) hrun).trans (run_sample_err rfl rfl))
  rw [exec_filtered_begins hi h, runCommand_of_run (by rw [maxEvents]; omega) hend rfl, flatMap_sampleEvents]
  exact ⟨_, _, _, _, _, _, _, rfl⟩

/-! ### The fields of the payload (30_encoding.md R62) -/

/-- The pattern of a number that fits is the number, or the number plus `2 ^ w` when negative. -/
theorem tc_eq_tcPattern {w : Nat} {i : Int} (h : |i| < 2 ^ w) : (tc w i : Int) = tcPattern w i := by
  obtain ⟨hlow, hhigh⟩ := abs_lt.mp h
  have hpos : (0 : Int) < 2 ^ w := by positivity
  rw [tc, Int.toNat_of_nonneg (Int.emod_nonneg _ (by positivity)), tcPattern]
  push_cast
  split_ifs with hi
  · exact Int.emod_eq_of_lt hi hhigh
  · rw [← Int.add_emod_right, Int.emod_eq_of_lt] <;> omega

theorem tc_scale_ten {p : Params} {rng : BitVec 2} {acc : Int} (hwf : p.wf = true) (hrng : rng.toNat ≤ 1)
    (hsum : SumOf 10 acc) : (tc p.outW (scale p acc rng) : Int) = tcPattern p.outW (scale p acc rng) :=
  tc_eq_tcPattern ((scale_fits hwf hrng hsum).trans_le (pow_le_pow_right₀ one_le_two (Nat.sub_le _ _)))

/-- Settles O27: the run of `READ`, and in each field `RN` of the exact value, which fits it. -/
theorem readAnswersTheScaledMeans : Obligations.ReadAnswersTheScaledMeans := by
  intro s ds rest n hwf hrng h hlen ha ht
  obtain ⟨rx, ry, rz, hexec⟩ := exec_read_ok (Params.accW_of_wf hwf) h hlen ha ht
  refine ⟨_, _, _, rx, ry, rz, _, isRN_scale _ _ hrng, isRN_scale _ _ hrng, isRN_scale _ _ hrng, ?_, hexec⟩
  have hfield : ∀ axis, (tc s.params.outW (s.gaussOutput ds axis) : Int) =
      tcPattern s.params.outW (s.gaussOutput ds axis) := fun axis =>
    tc_scale_ten hwf hrng (accAfter_ten (Params.accW_of_wf hwf) hlen axis).2
  rw [gaussPayload]
  push_cast
  rw [hfield, hfield, hfield]
  rfl

/-- The field of each axis holds its pattern. -/
theorem gaussPayload_field (w : Nat) (out : Nat → Int) {axis : Nat} (haxis : axis < 3) :
    gaussPayload w (out 0) (out 1) (out 2) / 2 ^ (axis * w) % 2 ^ w = tc w (out axis) := by
  have hx := tc_lt w (out 0)
  have hy := tc_lt w (out 1)
  have hz := tc_lt w (out 2)
  have hpos : 0 < 2 ^ w := by positivity
  have hsplit : gaussPayload w (out 0) (out 1) (out 2) =
      tc w (out 0) + 2 ^ w * (tc w (out 1) + 2 ^ w * tc w (out 2)) := by
    rw [gaussPayload]; ring
  have hhigh : ∀ {a b : Nat}, a < 2 ^ w → (a + 2 ^ w * b) / 2 ^ w = b := fun ha => by
    rw [Nat.add_mul_div_left _ _ hpos, Nat.div_eq_of_lt ha, Nat.zero_add]
  have hlow : ∀ {a b : Nat}, a < 2 ^ w → (a + 2 ^ w * b) % 2 ^ w = a := fun ha => by
    rw [Nat.add_mul_mod_self_left, Nat.mod_eq_of_lt ha]
  rw [hsplit]
  match axis, haxis with
  | 0, _ => rw [Nat.zero_mul, pow_zero, Nat.div_one, hlow hx]
  | 1, _ => rw [Nat.one_mul, hhigh hx, hlow hy]
  | 2, _ => rw [two_mul, pow_add, ← Nat.div_div_eq_div_mul, hhigh hx, hhigh hy, Nat.mod_eq_of_lt hz]

/-- Settles O31: the field of an axis is a function of the sum of that axis. -/
theorem axesDoNotInteract : Obligations.AxesDoNotInteract := by
  intro s t t' ds es rest n axis hwf _ h hds hes ht haxis hagree hexec hexec'
  have hread := fun (bs : List (BitVec 48)) (hlen : bs.length = 10) =>
    exec_read_ok (s := { s with answers := bs.map .ok ++ rest }) (Params.accW_of_wf hwf) h hlen rfl ht
  obtain ⟨_, _, _, hds'⟩ := hread ds hds
  obtain ⟨_, _, _, hes'⟩ := hread es hes
  cases hds'.symm.trans hexec
  cases hes'.symm.trans hexec'
  refine ⟨_, _, rfl, rfl, rfl, rfl, ?_⟩
  have hsum : s.gaussOutput ds axis = s.gaussOutput es axis :=
    congrArg (scale s.params · s.cfg.rng) (sumOf_congr (hds.trans hes.symm) (hds ▸ hagree))
  calc _ = tc s.params.outW (s.gaussOutput ds axis) := gaussPayload_field _ (s.gaussOutput ds) haxis
    _ = tc s.params.outW (s.gaussOutput es axis) := by rw [hsum]
    _ = _ := (gaussPayload_field _ (s.gaussOutput es) haxis).symm

end Sys2Proof.Machine
end

section
/-! The heading (43_heading.md R120 to R125): off the origin `HeadExact` is one angle, that of a complex number in degrees;
the counted half turns of the reference engine are the whole part of a multiple of it; and every code of `headingFn` is
exact, kept by the test of HP3, or the nearest code. -/

namespace Sys2Proof.Machine

open Sys2Proof.Claims

/-! ### Codes (R123, R124 HP1, HP4, HP5) -/

theorem Params.headM_of_wf {p : Params} (h : p.wf = true) : p.headM < 2 ^ p.headW := by
  simp only [Params.wf, Bool.and_eq_true, decide_eq_true_iff] at h
  obtain ⟨⟨⟨⟨⟨⟨-, hwidth⟩, -⟩, -⟩, -⟩, -⟩, -⟩ := h
  exact hwidth

/-- `HEAD_EPS` of a legal instance is at least half a code (00_scope.md R4). -/
theorem Params.headEps_of_wf {p : Params} (h : p.wf = true) :
    1 / 2 / 2 ^ p.headFrac ≤ (p.headEpsNum : ℝ) / p.headEpsDen := by
  simp only [Params.wf, Bool.and_eq_true, decide_eq_true_iff] at h
  obtain ⟨⟨⟨⟨-, hden⟩, heps⟩, -⟩, -⟩ := h
  have heps' : (p.headEpsDen : ℝ) ≤ p.headEpsNum * 2 ^ (p.headFrac + 1) := by exact_mod_cast heps
  rw [div_div, div_le_div_iff₀ (by positivity) (by exact_mod_cast hden), ← pow_succ', one_mul]
  exact heps'

theorem Params.headM_pos (p : Params) : 0 < p.headM := by
  rw [Params.headM]
  positivity

theorem headOffAxis_lt (p : Params) (y x : Int) : headOffAxis p y x < p.headM := by
  simp only [headOffAxis, headNearest]
  split <;> exact Nat.mod_lt _ (Params.headM_pos p)

theorem headingFn_lt (p : Params) (y x : Int) : headingFn p y x < p.headM := by
  have hpow : 0 < 2 ^ p.headFrac := by positivity
  have hoff := headOffAxis_lt p y x
  rw [Params.headM] at hoff ⊢
  unfold headingFn
  split_ifs <;> omega

/-- Settles O40: the axes' codes are fractions of a turn, and every engine's code is reduced modulo `M`. -/
theorem headingStaysBelowAFullTurn : Obligations.HeadingStaysBelowAFullTurn :=
  fun p y x => ⟨headingFn_lt p y x, fun hwf => (headingFn_lt p y x).trans (Params.headM_of_wf hwf)⟩

/-- Settles O39: the four half axes and the origin are the cases of `headingFn` in which no engine is asked. -/
theorem headingIsExactOnTheAxes : Obligations.HeadingIsExactOnTheAxes := by
  refine fun p => ⟨?origin, fun k hk => ⟨?east, ?north, ?west, ?south⟩⟩
  case origin => simp [headingFn]
  case east => simp [headingFn, hk.le]
  case north => simp [headingFn, hk.ne', hk]
  case west => simp [headingFn, hk]
  case south => simp [headingFn, hk.ne', hk.le]

/-! ### The command (R120, R121) -/

theorem headingInput_eq (d : MeanDiv) (acc : Int) : headingInput d acc = headIn d acc := by
  cases d <;> rfl

/-- A heading of a legal instance fits its field. -/
theorem headingPayload_headingFn {p : Params} (hwf : p.wf = true) (y x : Int) :
    headingPayload p.headW (headingFn p y x) = headingFn p y x :=
  Nat.mod_eq_of_lt ((headingFn_lt p y x).trans (Params.headM_of_wf hwf))

/-- Settles O28: the run of a filtered read, then the heading of its sums, which fits the field. -/
theorem headAnswersTheHeading : Obligations.HeadAnswersTheHeading := by
  intro s ds rest n hwf hhead h hlen ha ht
  obtain ⟨rx, ry, rz, hrun⟩ := run_ten_reads .heading (s := accept s) (Params.accW_of_wf hwf) hlen ha ht
  refine ⟨rx, ry, rz, (exec_filtered_begins (.inr ⟨rfl, rfl, hhead⟩) h).trans (congrArg _ (hrun.trans ?_))⟩
  rw [← headingPayload_headingFn hwf, ← headingInput_eq, ← headingInput_eq]
  rfl

/-! ### The exact angle (R122) -/

/-- The angle of the point (`x`, `y`) in degrees, from 0 to 360. -/
noncomputable def headDegrees (y x : Int) : ℝ :=
  if 0 ≤ Complex.arg ⟨x, y⟩ then Complex.arg ⟨x, y⟩ * 180 / Real.pi else Complex.arg ⟨x, y⟩ * 180 / Real.pi + 360

theorem isHeadExact_headDegrees {y x : Int} (h : y ≠ 0 ∨ x ≠ 0) : IsHeadExact y x (headDegrees y x) := by
  have hne : (⟨x, y⟩ : ℂ) ≠ 0 := by
    rw [Ne, Complex.ext_iff, not_and_or]
    exact h.symm.imp Int.cast_ne_zero.mpr Int.cast_ne_zero.mpr
  obtain ⟨hlow, hhigh⟩ := Complex.arg_mem_Ioc ⟨x, y⟩
  refine ⟨_, _, hlow, hhigh, norm_pos_iff.mpr hne, (Complex.norm_mul_cos_arg ⟨x, y⟩).symm,
    (Complex.norm_mul_sin_arg ⟨x, y⟩).symm, ?_⟩
  rw [headDegrees]
  split_ifs with hA
  · exact .inl ⟨hA, rfl⟩
  · exact .inr ⟨not_le.mp hA, rfl⟩

/-- `A` of R122 is the argument of `x + iy`. -/
theorem IsHeadExact.eq_headDegrees {y x : Int} {t : ℝ} (h : IsHeadExact y x t) : t = headDegrees y x := by
  obtain ⟨A, r, hlow, hhigh, hr, hx, hy, ht⟩ := h
  have harg : Complex.arg ⟨x, y⟩ = A := by
    rw [← Complex.arg_mul_cos_add_sin_mul_I hr ⟨hlow, hhigh⟩]
    congr 1
    apply Complex.ext <;> simp [hx, hy, ← Complex.ofReal_cos, ← Complex.ofReal_sin]
  rw [headDegrees, harg]
  obtain ⟨hA, rfl⟩ | ⟨hA, rfl⟩ := ht
  · rw [if_pos hA]
  · rw [if_neg (not_le.mpr hA)]

theorem isHeadExact_iff {y x : Int} (h : y ≠ 0 ∨ x ≠ 0) (t : ℝ) : IsHeadExact y x t ↔ t = headDegrees y x :=
  ⟨IsHeadExact.eq_headDegrees, fun ht => ht ▸ isHeadExact_headDegrees h⟩

theorem IsHeadExact.mem_turn {y x : Int} {t : ℝ} (h : IsHeadExact y x t) : 0 ≤ t ∧ t < 360 := by
  obtain ⟨A, -, hlow, hhigh, -, -, -, ht⟩ := h
  have hpi := Real.pi_pos
  obtain ⟨hA, rfl⟩ | ⟨hA, rfl⟩ := ht
  · exact ⟨by positivity, by rw [div_lt_iff₀ hpi]; linarith⟩
  · have hlow' : -180 < A * 180 / Real.pi := by rw [lt_div_iff₀ hpi]; linarith
    have hneg : A * 180 / Real.pi < 0 := div_neg_of_neg_of_pos (by linarith) hpi
    constructor <;> linarith

/-- Settles O41: the angle is the argument of a complex number, which exists and is unique. -/
theorem headExactIsOneAngle : Obligations.HeadExactIsOneAngle := by
  intro y x h
  obtain ⟨h0, h360⟩ := (isHeadExact_headDegrees h).mem_turn
  exact ⟨headDegrees y x, isHeadExact_headDegrees h, h0, h360, fun _ => IsHeadExact.eq_headDegrees⟩

/-- Scaling by a positive number does not turn a point. -/
theorem headDegrees_scale (y x : Int) {k : Int} (hk : 0 < k) : headDegrees (k * y) (k * x) = headDegrees y x := by
  have harg : Complex.arg ⟨(k * x : Int), (k * y : Int)⟩ = Complex.arg ⟨x, y⟩ := by
    rw [← Complex.arg_real_mul ⟨x, y⟩ (r := k) (by exact_mod_cast hk)]
    congr 1
    apply Complex.ext <;> simp
  rw [headDegrees, headDegrees, harg]

theorem scale_off_origin {y x k : Int} (h : y ≠ 0 ∨ x ≠ 0) (hk : 0 < k) : k * y ≠ 0 ∨ k * x ≠ 0 :=
  h.imp (mul_ne_zero hk.ne') (mul_ne_zero hk.ne')

/-! ### The correctly rounded engine (R124) -/

/-- The reference engine counts the half units that fit in the angle. -/
theorem headNearest_eq (p : Params) {y x : Int} {t : ℝ} (h : IsHeadExact y x t) :
    headNearest p y x = (⌊2 ^ (p.headFrac + 1) * t⌋₊ + 1) / 2 % p.headM := by
  obtain ⟨hlow, hhigh, -⟩ := headTimes_degrees h (2 ^ (p.headFrac + 1))
  push_cast at hlow hhigh
  rw [headNearest, (Nat.floor_eq_iff (by have := h.mem_turn.1; positivity)).mpr ⟨hlow, hhigh⟩]

/-- Half of the whole number of halves, rounded up, is a nearest integer. -/
theorem abs_sub_half_floor_le {u : ℝ} (hu : 0 ≤ u) : |u - ((⌊2 * u⌋₊ + 1) / 2 : Nat)| ≤ 1 / 2 := by
  have hlow : (⌊2 * u⌋₊ : ℝ) ≤ 2 * u := Nat.floor_le (by positivity)
  have hhigh := Nat.lt_floor_add_one (2 * u)
  generalize ⌊2 * u⌋₊ = m at *
  obtain ⟨j, rfl | rfl⟩ := Nat.even_or_odd' m
  · rw [show (2 * j + 1) / 2 = j by omega, abs_le]
    push_cast at *
    constructor <;> linarith
  · rw [show (2 * j + 1 + 1) / 2 = j + 1 by omega, abs_le]
    push_cast at *
    constructor <;> linarith

/-- The reference engine's code is a nearest integer to the angle in codes, modulo `M`. -/
theorem headNearest_nearest (p : Params) {y x : Int} {t : ℝ} (h : IsHeadExact y x t) :
    ∃ n : Nat, |t * 2 ^ p.headFrac - n| ≤ 1 / 2 ∧ headNearest p y x = n % p.headM := by
  have hdouble : 2 ^ (p.headFrac + 1) * t = 2 * (t * 2 ^ p.headFrac) := by ring
  refine ⟨_, abs_sub_half_floor_le (by have := h.mem_turn.1; positivity), ?_⟩
  rw [headNearest_eq p h, hdouble]

/-- Settles O44: the half units that fit in the angle, halved and rounded up. -/
theorem headNearestIsTheNearestCode : Obligations.HeadNearestIsTheNearestCode :=
  fun p _ _ _ _ => headNearest_nearest p

/-! ### Circular distance (R124 HP3) -/

theorem CDistLe.mono {u v e e' : ℝ} (h : CDistLe u v e) (he : e ≤ e') : CDistLe u v e' :=
  h.imp he.trans' he.trans'

/-- Near after some number of whole turns is near circularly. -/
theorem cdistLe_of_turns {u v e : ℝ} (n : ℤ) (h : |u - v + 360 * n| ≤ e) : CDistLe u v e := by
  obtain rfl | hn := eq_or_ne n 0
  · exact .inl (by simpa using h)
  · have hone : (1 : ℝ) ≤ |(n : ℝ)| := by exact_mod_cast Int.one_le_abs hn
    have htri : |360 * (n : ℝ)| - |u - v| ≤ |u - v + 360 * n| := by
      rw [add_comm, ← abs_neg (u - v), ← sub_neg_eq_add]
      exact abs_sub_abs_le_abs_sub _ _
    rw [abs_mul, abs_of_pos (by norm_num)] at htri
    exact .inr (by linarith)

/-- Within one turn, the way round passes 0 at most once. -/
theorem CDistLe.turns {u v e : ℝ} (h : CDistLe u v e) (hturn : |u - v| ≤ 360) : ∃ n : ℤ, |u - v + 360 * n| ≤ e := by
  obtain h | h := h
  · exact ⟨0, by simpa using h⟩
  · obtain hsign | hsign := le_total 0 (u - v)
    · rw [abs_of_nonneg hsign] at h hturn
      refine ⟨-1, ?_⟩
      push_cast
      rw [abs_of_nonpos] <;> linarith
    · rw [abs_of_nonpos hsign] at h hturn
      refine ⟨1, ?_⟩
      push_cast
      rw [abs_of_nonneg] <;> linarith

/-- Two angles that are near a third are near each other: the whole turns on the two ways add up. -/
theorem CDistLe.trans {u v t e : ℝ} (hut : CDistLe u t e) (hvt : CDistLe v t e) (hu : |u - t| ≤ 360)
    (hv : |v - t| ≤ 360) : CDistLe u v (2 * e) := by
  obtain ⟨m, hm⟩ := hut.turns hu
  obtain ⟨n, hn⟩ := hvt.turns hv
  refine cdistLe_of_turns (m - n) ?_
  calc |u - v + 360 * ((m - n : ℤ) : ℝ)| = |(u - t + 360 * m) - (v - t + 360 * n)| := by push_cast; ring_nf
    _ ≤ |u - t + 360 * m| + |v - t + 360 * n| := abs_sub _ _
    _ ≤ 2 * e := by linarith

/-- The nearest code is within half a code of the angle, up to the whole turns that `mod M` takes off. -/
theorem headNearest_cdist (p : Params) {y x : Int} {t : ℝ} (h : IsHeadExact y x t) :
    CDistLe ((headNearest p y x : ℝ) / 2 ^ p.headFrac) t (1 / 2 / 2 ^ p.headFrac) := by
  obtain ⟨n, hn, hcode⟩ := headNearest_nearest p h
  have hpow : (0 : ℝ) < 2 ^ p.headFrac := by positivity
  have hmod : (n : ℝ) = (n % p.headM : Nat) + 360 * 2 ^ p.headFrac * (n / p.headM : Nat) := by
    exact_mod_cast (Nat.mod_add_div n p.headM).symm
  refine cdistLe_of_turns (n / p.headM : Nat) ?_
  rw [hcode]
  have hcodes : ((n % p.headM : Nat) : ℝ) / 2 ^ p.headFrac - t + 360 * ((n / p.headM : Nat) : ℤ) =
      (n - t * 2 ^ p.headFrac) / 2 ^ p.headFrac := by
    rw [hmod, Int.cast_natCast]
    field_simp
    ring
  rw [hcodes, abs_div, abs_of_pos hpow, abs_sub_comm]
  gcongr

/-! ### Every heading (R124 HP3, R125) -/

/-- The axes' codes are the exact angles. -/
theorem isHeadExact_headingFn_of_axis (p : Params) {y x : Int} (h : y ≠ 0 ∨ x ≠ 0) (haxis : y = 0 ∨ x = 0) :
    IsHeadExact y x (headingFn p y x / 2 ^ p.headFrac) := by
  have hpi := Real.pi_pos
  obtain ⟨-, haxes⟩ := headingIsExactOnTheAxes p
  obtain rfl | rfl := haxis
  · obtain hx | hx := lt_or_gt_of_ne (h.resolve_left (· rfl))
    · obtain ⟨-, -, hwest, -⟩ := haxes (-x) (by omega)
      rw [neg_neg] at hwest
      exact ⟨Real.pi, -x, by linarith, le_rfl, by simpa using hx, by simp, by simp,
        .inl ⟨hpi.le, by rw [hwest]; push_cast; field_simp⟩⟩
    · obtain ⟨heast, -⟩ := haxes x hx
      exact ⟨0, x, by linarith, hpi.le, by simpa using hx, by simp, by simp, .inl ⟨le_rfl, by simp [heast]⟩⟩
  · obtain hy | hy := lt_or_gt_of_ne (h.resolve_right (· rfl))
    · obtain ⟨-, -, -, hsouth⟩ := haxes (-y) (by omega)
      rw [neg_neg] at hsouth
      exact ⟨-(Real.pi / 2), -y, by linarith, by linarith, by simpa using hy, by simp, by simp,
        .inr ⟨by linarith, by rw [hsouth]; push_cast; field_simp; norm_num⟩⟩
    · obtain ⟨-, hnorth, -⟩ := haxes y hy
      exact ⟨Real.pi / 2, y, by linarith, by linarith, by simpa using hy, by simp, by simp,
        .inl ⟨by linarith, by rw [hnorth]; push_cast; field_simp; norm_num⟩⟩

/-- A code stands for an angle of one turn, so it is at most a turn away from another. -/
theorem headingFn_turn (p : Params) (y x : Int) {t : ℝ} (ht : 0 ≤ t ∧ t < 360) :
    |(headingFn p y x : ℝ) / 2 ^ p.headFrac - t| ≤ 360 := by
  obtain ⟨h0, h360⟩ := ht
  have hcode : (headingFn p y x : ℝ) ≤ 360 * 2 ^ p.headFrac := by exact_mod_cast (headingFn_lt p y x).le
  have hcode0 : 0 ≤ (headingFn p y x : ℝ) / 2 ^ p.headFrac := by positivity
  rw [← div_le_iff₀ (by positivity)] at hcode
  exact abs_le.mpr ⟨by linarith, by linarith⟩

theorem headingFn_cdist {p : Params} (hwf : p.wf = true) {y x : Int} {t : ℝ} (h : y ≠ 0 ∨ x ≠ 0)
    (ht : IsHeadExact y x t) :
    CDistLe ((headingFn p y x : ℝ) / 2 ^ p.headFrac) t ((p.headEpsNum : ℝ) / p.headEpsDen) := by
  by_cases haxis : y = 0 ∨ x = 0
  · have hexact := (isHeadExact_headingFn_of_axis p h haxis).eq_headDegrees.trans ht.eq_headDegrees.symm
    left
    rw [hexact, sub_self, abs_zero]
    positivity
  · push Not at haxis
    rw [headingFn, if_neg haxis.1, if_neg haxis.2, headOffAxis]
    split_ifs with heps
    · exact (meetsHeadEps_iff p ht _).mp heps
    · exact (headNearest_cdist p ht).mono (Params.headEps_of_wf hwf)

/-- Settles O42: an axis's code is exact, any other has passed the test of HP3 or is the nearest one. -/
theorem headingIsWithinHeadEps : Obligations.HeadingIsWithinHeadEps :=
  fun _ _ _ _ hwf => headingFn_cdist hwf

/-- Settles O43: both headings are near the one exact angle, which alone the nearest code depends on. -/
theorem headingIsNearlyScaleInvariant : Obligations.HeadingIsNearlyScaleInvariant := by
  intro p y x k hwf h hk
  have hoff := scale_off_origin h hk
  have hscale (t : ℝ) : IsHeadExact (k * y) (k * x) t ↔ IsHeadExact y x t := by
    rw [isHeadExact_iff hoff, isHeadExact_iff h, headDegrees_scale y x hk]
  have ht := isHeadExact_headDegrees h
  have ht' := (hscale _).mpr ht
  refine ⟨hscale, ?_, ?_⟩
  · exact (headingFn_cdist hwf hoff ht').trans (headingFn_cdist hwf h ht) (headingFn_turn p _ _ ht.mem_turn)
      (headingFn_turn p _ _ ht.mem_turn)
  · rw [headNearest_eq p ht', headNearest_eq p ht]

end Sys2Proof.Machine
end

section
/-! Refusals (60_exceptions.md R131, R135 to R137, R150): a halted block refuses every word, an illegal word is refused
next, an acquisition outside `Ready` under the guard after that; and a busy block accepts nothing. -/

namespace Sys2Proof.Machine

open Sys2Proof.Claims

/-! ### `HALTED` (R135) -/

theorem exec_word_halted (w : CmdWord) {s : State} (hh : s.halt = true) :
    exec (decodeCommand w) s = .next (answered .halted 0 s) := by
  obtain ⟨t, ht⟩ := exec_next (decodeCommand w) s
  rw [ht, exec_command_halted ht hh]

/-- Settles O46: the word at the port is refused (`exec_word_halted`), and `HALT` is sticky (`haltIsSticky`). -/
theorem haltedBlockAnswersHalted : Obligations.HaltedBlockAnswersHalted := by
  refine ⟨fun s w rest hr hh hb hc => ?_, fun s t hh hstep => ?_⟩
  · rw [step_presented hr hb hc]
    exact exec_word_halted w hh
  · obtain ⟨hreset, hsticky, -⟩ := haltIsSticky.2 s t hstep
    refine ⟨fun hr ⟨hclear, _⟩ => ?_, hreset⟩
    exact Bool.false_ne_true (hclear.symm.trans (hsticky hh hr))

/-! ### `ILLEGAL_CMD` (R137) -/

/-- The instructions of the illegal command words (30_encoding.md R63) under the parameters `p`. -/
inductive IllegalInstr (p : Params) : Instr → Prop
  | reservedAB (low : BitVec 17) : IllegalInstr p (.reservedAB low)
  | reservedCF (low : BitVec 18) : IllegalInstr p (.reservedCF low)
  | init {arg : Half} (h : arg ≠ 0#16) : IllegalInstr p (.init arg)
  | rdraw {arg : Half} (h : arg ≠ 0#16) : IllegalInstr p (.rdraw arg)
  | read {arg : Half} (h : arg ≠ 0#16) : IllegalInstr p (.read arg)
  | head {arg : Half} (h : arg ≠ 0#16 ∨ p.hasHeading = false) : IllegalInstr p (.head arg)
  | enc {arg : Half} (h : arg ≠ 0#16) : IllegalInstr p (.enc arg)

theorem opOf_toNat (w : CmdWord) : (opOf w).toNat = w.toNat / 65536 := by
  have := w.isLt
  simp only [opOf, BitVec.extractLsb'_toNat, Nat.shiftRight_eq_div_pow]
  omega

theorem argOf_toNat (w : CmdWord) : (argOf w).toNat = w.toNat % 65536 := by
  simp [argOf, BitVec.extractLsb'_toNat]

/-- A word illegal by its two fields decodes to an illegal instruction. -/
theorem illegalInstr_of_illegalWord {p : Params} {w : CmdWord} (h : IllegalWord p w) :
    IllegalInstr p (decodeCommand w) := by
  rw [IllegalWord, ← opOf_toNat, ← argOf_toNat] at h
  obtain hop | ⟨hlow, hhigh, harg⟩ | ⟨hop, hengine⟩ := h
  · obtain hop | hop : ((opOf w).toNat = 10 ∨ (opOf w).toNat = 11) ∨ 12 ≤ (opOf w).toNat := by omega
    · rw [decodeCommand_of_reservedAB hop]; exact .reservedAB _
    · rw [decodeCommand_of_reservedCF hop]; exact .reservedCF _
  · have harg : argOf w ≠ 0#16 := fun h => harg (by rw [h]; rfl)
    obtain hop | hop | hop | hop | hop : (opOf w).toNat = 4 ∨ (opOf w).toNat = 5 ∨ (opOf w).toNat = 6 ∨
      (opOf w).toNat = 7 ∨ (opOf w).toNat = 8 := by omega
    all_goals rw [decodeCommand, hop]
    · exact .init harg
    · exact .rdraw harg
    · exact .read harg
    · exact .head (.inl harg)
    · exact .enc harg
  · rw [decodeCommand, hop]
    exact .head (.inr hengine)

theorem exec_enc_illegal {s : State} {arg : Half} (hh : s.halt = false) (ha : arg ≠ 0#16) :
    exec (.enc arg) s = .next (answered .illegalCmd 0 s) := by
  simp [exec_enc, encodeCfg, hh, ha, respond_accept]

theorem illegalWord_accept {s : State} (hh : s.halt = false) :
    illegalWord (accept s) = answered .illegalCmd 0 s := by
  simp [illegalWord, hh, respond_accept]

theorem IllegalInstr.exec_eq {s : State} {i : Instr} (hi : IllegalInstr s.params i) (hh : s.halt = false) :
    exec i s = .next (answered .illegalCmd 0 s) := by
  cases hi with
  | reservedAB | reservedCF => exact congrArg _ (illegalWord_accept hh)
  | init ha => exact exec_init_illegal hh ha
  | rdraw ha => rw [exec_rdraw, bne_iff_ne.mpr ha, acquire_illegal hh]
  | read ha => rw [exec_read, bne_iff_ne.mpr ha, acquire_illegal hh]
  | @head arg h =>
    have hill : (arg != 0#16 || !s.params.hasHeading) = true := by simpa using h
    rw [exec_head, hill, acquire_illegal hh]
  | enc ha => exact exec_enc_illegal hh ha

/-- Settles O57: an illegal word decodes to an illegal instruction, and a reserved opcode with any other bits is one. -/
theorem illegalWordsAnswerIllegalCmd : Obligations.IllegalWordsAnswerIllegalCmd := by
  refine ⟨fun s w hw => ⟨(illegalInstr_of_illegalWord hw).exec_eq, exec_word_halted w⟩, fun s a c =>
    ⟨fun hh => ⟨(IllegalInstr.reservedAB a).exec_eq hh, (IllegalInstr.reservedCF c).exec_eq hh⟩, fun hh => ?_⟩⟩
  rw [← decodeCommand_append_reservedAB a, ← decodeCommand_append_reservedCF c]
  exact ⟨exec_word_halted _ hh, exec_word_halted _ hh⟩

/-! ### `NOT_READY` (R136) -/

/-- `RDRAW`, `READ` and `HEAD` as words that are not illegal (30_encoding.md R63). -/
def IsAcquisition (p : Params) (i : Instr) : Prop :=
  i = .rdraw 0#16 ∨ i = .read 0#16 ∨ (i = .head 0#16 ∧ p.hasHeading = true)

theorem IsAcquisition.exec_not_ready {s : State} {i : Instr} (hi : IsAcquisition s.params i) (hh : s.halt = false)
    (hg : s.params.guardNotReady = true) (hp : s.phase ≠ .ready) : exec i s = .next (answered .notReady 0 s) := by
  obtain rfl | rfl | ⟨rfl, hengine⟩ := hi
  · rw [exec_rdraw, bne_self_eq_false, acquire_not_ready hh hg hp]
  · rw [exec_read, bne_self_eq_false, acquire_not_ready hh hg hp]
  · rw [exec_head, bne_self_eq_false, hengine, Bool.not_true, Bool.or_false, acquire_not_ready hh hg hp]

/-- Settles O30: the three refusals, each after the checks before it. -/
theorem filteredReadRefusalsChangeNothing : Obligations.FilteredReadRefusalsChangeNothing := by
  refine fun s arg => ⟨fun hh => ?_, fun hh ha => (IllegalInstr.read ha).exec_eq hh,
    fun hh hill => (IllegalInstr.head hill).exec_eq hh, fun hh harg hg hp => ?_⟩
  · rw [exec_read, exec_head, acquire_halted hh, acquire_halted hh]
    exact ⟨rfl, rfl⟩
  · subst harg
    exact ⟨IsAcquisition.exec_not_ready (.inr (.inl rfl)) hh hg hp,
      fun hengine => IsAcquisition.exec_not_ready (.inr (.inr ⟨rfl, hengine⟩)) hh hg hp⟩

/-! ### A busy block (R150) -/

/-- Settles O8: a busy block's step is one event of the running command, which takes no word from the port. -/
theorem busyBlockHoldsTheNextCommand : Obligations.BusyBlockHoldsTheNextCommand := by
  intro s t hr hb hstep
  rw [step_busy hr hb] at hstep
  cases hstep
  obtain ⟨-, -, -, hcmds, -⟩ := advance_frame s
  exact hcmds

end Sys2Proof.Machine
end

section
/-! Acquisition without the guard (60_exceptions.md R136): nothing in `RDRAW`, `READ` or `HEAD` past the guard reads or
writes `PHASE`. -/

namespace Sys2Proof.Machine

/-- `s` in another `PHASE`. -/
def State.withPhase (p : Phase) (s : State) : State := { s with phase := p }

/-! ### What commutes with `PHASE` -/

theorem memRead_withPhase (p : Phase) {f : BitVec 48 → State → State} {g : State → State}
    (hf : ∀ d u, f d (u.withPhase p) = (f d u).withPhase p) (hg : ∀ u, g (u.withPhase p) = (g u).withPhase p)
    (s : State) : memRead f g (s.withPhase p) = (memRead f g s).withPhase p := by
  rcases h : s.answers with _ | ⟨_ | _, rest⟩
  · rw [memRead_unanswered h]; exact memRead_unanswered h
  · rw [memRead_ok h, ← hf]; exact memRead_ok h
  · rw [memRead_err h, ← hg]; exact memRead_err h

theorem nextSample_withPhase (p : Phase) (want : Want) (s : State) :
    nextSample want (s.withPhase p) = (nextSample want s).withPhase p := by
  by_cases hc : s.cnt.toNat < nSamples
  · rw [nextSample, nextSample, if_pos hc]; exact if_pos hc
  · rw [nextSample, nextSample, if_neg hc]
    cases want <;> exact if_neg hc

theorem endDelay_nextSample_withPhase (p : Phase) (want : Want) (s : State) :
    endDelay (nextSample want) (s.withPhase p) = (endDelay (nextSample want) s).withPhase p := by
  rcases h : s.timerEnds with _ | n
  · rw [endDelay_running h]; exact endDelay_running h
  · rw [endDelay_over h, ← nextSample_withPhase]; exact endDelay_over h

/-! ### The running command -/

theorem advance_withPhase (p : Phase) {s : State} (h : s.job.isInit = false) :
    advance (s.withPhase p) = (advance s).withPhase p := by
  cases hj : s.job <;> rw [hj] at h
  case idle => rw [advance_idle hj]; exact advance_idle hj
  case rawRead =>
    rw [advance_rawRead hj, advance_rawRead (s := s.withPhase p) hj]
    apply memRead_withPhase p <;> intros <;> rfl
  case sample want =>
    rw [advance_sample hj, advance_sample (s := s.withPhase p) hj]
    apply memRead_withPhase p <;> intros <;> rfl
  case gap want =>
    rw [advance_gap hj, advance_gap (s := s.withPhase p) hj]
    exact endDelay_nextSample_withPhase p want s
  all_goals cases h

theorem run_withPhase (p : Phase) (n : Nat) {s : State} (h : s.job.isInit = false) :
    run n (s.withPhase p) = (run n s).withPhase p := by
  induction n generalizing s with
  | zero => rfl
  | succ n ih =>
    rw [run, run, advance_withPhase p h]
    exact ih (LeavesPhase.refl h).advance.position

/-! ### The commands -/

theorem notReady_unguarded {s : State} (hg : s.params.guardNotReady = false) : notReady s = false := by
  rw [notReady, hg, Bool.false_and]

/-- Without the guard the checks do not read `PHASE` either. -/
theorem acquire_withPhase (p : Phase) (illegal : Bool) (begin_ : State → State) {s : State}
    (hg : s.params.guardNotReady = false) (hj : (begin_ s).job.isInit = false)
    (hbegin : begin_ (s.withPhase p) = (begin_ s).withPhase p) :
    acquire illegal begin_ (s.withPhase p) = (acquire illegal begin_ s).withPhase p := by
  have hrun : runCommand (begin_ (s.withPhase p)) = (runCommand (begin_ s)).withPhase p := by
    rw [hbegin]; exact run_withPhase p maxEvents hj
  have hhalt : (s.withPhase p).halt = s.halt := rfl
  rw [acquire, acquire, hhalt, hrun, notReady_unguarded hg, notReady_unguarded (s := s.withPhase p) hg]
  split_ifs <;> rfl

theorem IsAcquisition.exec_withPhase {s t : State} {i : Instr} (p : Phase) (hi : IsAcquisition s.params i)
    (hg : s.params.guardNotReady = false) (h : exec i s = .next t) :
    exec i (s.withPhase p) = .next (t.withPhase p) := by
  obtain rfl | rfl | ⟨rfl, -⟩ := hi <;> cases h
  · exact congrArg _ (acquire_withPhase (s := accept s) p _ (fun u => { u with job := .rawRead }) hg rfl rfl)
  · exact congrArg _ (acquire_withPhase (s := accept s) p _ (beginFiltered .gauss) hg rfl rfl)
  · exact congrArg _ (acquire_withPhase (s := accept s) p _ (beginFiltered .heading) hg rfl rfl)

/-- Settles O58: the guard refuses, and without it going from `Ready` to the block's own `PHASE` changes nothing else
(`IsAcquisition.exec_withPhase`). -/
theorem acquisitionIsGuarded : Obligations.AcquisitionIsGuarded := fun s _ hi hh =>
  ⟨IsAcquisition.exec_not_ready hi hh,
    fun hg _ h => IsAcquisition.exec_withPhase (s := { s with phase := .ready }) s.phase hi hg h⟩

end Sys2Proof.Machine
end

section
/-! The statuses of each command (60_exceptions.md R140): a running command answers what its position allows, at most `OK`
or `BUS_ERROR`, and the checks before it answer the rest. -/

namespace Sys2Proof.Machine

open Sys2Proof.Claims

/-- If `t` has given one response after `h`, its status is in the list `l`. -/
def AnswersWithin (h : List Response) (l : List Status) (t : State) : Prop :=
  ∀ r, t.responses = h ++ [r] → r.status ∈ l

theorem answersWithin_silent {h : List Response} {t : State} (l : List Status) (ht : t.responses = h) :
    AnswersWithin h l t := fun r hr => by simp [ht] at hr

theorem answersWithin_respond {l : List Status} {st : Status} (hst : st ∈ l) {h : List Response} (data : Nat)
    {s : State} (hs : s.responses = h) : AnswersWithin h l (respond st data s) := by
  intro r hr
  rw [respond_responses, hs] at hr
  cases List.append_cancel_left hr
  exact hst

theorem AnswersWithin.mono {h : List Response} {l l' : List Status} {t : State} (ht : AnswersWithin h l t)
    (hl : l ⊆ l') : AnswersWithin h l' t := fun r hr => hl (ht r hr)

/-! ### The running command -/

theorem finishFiltered_answersWithin (want : Want) (s : State) :
    AnswersWithin s.responses [.ok] (finishFiltered want s) := by
  cases want <;> exact answersWithin_respond List.mem_cons_self _ rfl

/-- One event answers what its position allows. -/
theorem advance_answersWithin (s : State) : AnswersWithin s.responses (mayFinish s.job) (advance s) := by
  apply advance_elim (P := AnswersWithin s.responses (mayFinish s.job)) s (answersWithin_silent _ rfl)
  case softResetOk => exact fun _ _ _ _ => answersWithin_silent _ rfl
  case settled => exact fun _ _ _ => answersWithin_silent _ rfl
  case control1Ok => exact fun _ _ _ _ _ => answersWithin_silent _ rfl
  case sampleOk => exact fun _ _ _ _ _ => answersWithin_silent _ rfl
  case again => exact fun _ _ _ _ _ => answersWithin_silent _ rfl
  case finish => exact fun want n hj _ _ => hj ▸ finishFiltered_answersWithin want { s with timerEnds := n }
  all_goals
    intros
    refine answersWithin_respond ?_ _ rfl
    simp [*, mayFinish]

theorem mayFinish_subset (j : Job) : mayFinish j ⊆ [.ok, .busError] := by
  cases j <;> simp [mayFinish]

theorem run_answersWithin (n : Nat) (s : State) : AnswersWithin s.responses [.ok, .busError] (run n s) := by
  induction n generalizing s with
  | zero => exact answersWithin_silent _ rfl
  | succ n ih =>
    rw [run]
    obtain hgo | hans := advance_goes_on_or_answers s
    · exact hgo.responses ▸ ih (advance s)
    · rw [run_idle hans.job]
      exact (advance_answersWithin s).mono (mayFinish_subset s.job)

/-- A command past its checks, in `u`, answers with a status of its list if `OK` and `BUS_ERROR` are there. -/
theorem runCommand_answersWithin {h : List Response} {l : List Status} (hl : [.ok, .busError] ⊆ l) {u : State}
    (hu : u.responses = h) : AnswersWithin h l (runCommand u) :=
  hu ▸ (run_answersWithin maxEvents u).mono hl

/-! ### Each command's own checks -/

theorem setOption_answersWithin (o : Opt) (v : Half) (s : State) :
    AnswersWithin s.responses [.ok, .invalidConfiguration, .seqError, .halted] (setOption o v s) := by
  obtain ⟨_, e⟩ | ⟨_, _, e⟩ | ⟨_, _, _, _, e⟩ | ⟨_, _, _, e⟩ := setOption_cases o v s <;> rw [e] <;>
    exact answersWithin_respond (by decide) _ rfl

theorem initialise_answersWithin (arg : Half) (s : State) :
    AnswersWithin s.responses [.ok, .busError, .seqError, .illegalCmd, .halted] (initialise arg s) := by
  obtain ⟨_, e⟩ | ⟨_, _, e⟩ | ⟨_, _, _, e⟩ | ⟨_, _, _, e⟩ := initialise_cases arg s <;> rw [e]
  case inr.inr.inr => exact runCommand_answersWithin (by decide) rfl
  all_goals exact answersWithin_respond (by decide) _ rfl

theorem acquire_answersWithin (illegal : Bool) {begin_ : State → State} {s : State}
    (hbegin : (begin_ s).responses = s.responses) :
    AnswersWithin s.responses [.ok, .busError, .notReady, .illegalCmd, .halted] (acquire illegal begin_ s) := by
  obtain ⟨_, e⟩ | ⟨_, _, e⟩ | ⟨_, _, _, e⟩ | ⟨_, _, _, e⟩ := acquire_cases illegal begin_ s <;> rw [e]
  case inr.inr.inr => exact runCommand_answersWithin (by decide) hbegin
  all_goals exact answersWithin_respond (by decide) _ rfl

theorem encodeCfg_answersWithin (arg : Half) (s : State) :
    AnswersWithin s.responses [.ok, .illegalCmd, .halted] (encodeCfg arg s) := by
  obtain ⟨_, e⟩ | ⟨_, _, e⟩ | ⟨_, _, e⟩ := encodeCfg_cases arg s <;> rw [e] <;>
    exact answersWithin_respond (by decide) _ rfl

theorem decodeOperand_answersWithin (b : Half) (s : State) :
    AnswersWithin s.responses [.ok, .halted, .reservedEncoding] (decodeOperand b s) := by
  obtain ⟨st, data, hst, e⟩ := decodeOperand_responds b s
  rw [e]
  obtain rfl | rfl | rfl := hst <;> exact answersWithin_respond (by decide) _ rfl

theorem illegalWord_answersWithin (s : State) : AnswersWithin s.responses [.illegalCmd, .halted] (illegalWord s) := by
  obtain ⟨st, hst, e⟩ := illegalWord_responds s
  rw [e]
  obtain rfl | rfl := hst <;> exact answersWithin_respond (by decide) _ rfl

/-! ### Every instruction -/

theorem exec_answersWithin {i : Instr} {s t : State} (h : exec i s = .next t) :
    AnswersWithin s.responses (mayAnswer i) t := by
  cases i <;> cases h
  case setodr v => exact setOption_answersWithin .odr v (accept s)
  case setrng v => exact setOption_answersWithin .rng v (accept s)
  case setosr v => exact setOption_answersWithin .osr v (accept s)
  case setmode v => exact setOption_answersWithin .mode v (accept s)
  case init arg => exact initialise_answersWithin arg (accept s)
  case rdraw => exact acquire_answersWithin (s := accept s) _ rfl
  case read => exact acquire_answersWithin (s := accept s) _ rfl
  case head => exact acquire_answersWithin (s := accept s) _ rfl
  case enc arg => exact encodeCfg_answersWithin arg (accept s)
  case dec b => exact decodeOperand_answersWithin b (accept s)
  case reservedAB => exact illegalWord_answersWithin (accept s)
  case reservedCF => exact illegalWord_answersWithin (accept s)
  case ctrl1Byte osr rng odr mode =>
    exact advance_answersWithin (enterInit (.initControl1 (packControl1 osr rng odr mode)) s)
  case ctrl2SoftReset => exact advance_answersWithin (enterInit .initReset s)
  case ctrl2RollOver => exact advance_answersWithin (enterInit .initRollOver s)

/-- Settles O54: the table by instruction (`exec_answersWithin`), and by position for a step of a busy block, which is one
event of the running command (`advance_answersWithin`). -/
theorem eachCommandAnswersItsOwnStatuses : Obligations.EachCommandAnswersItsOwnStatuses := by
  refine ⟨fun i s t r hexec hr => exec_answersWithin hexec r hr, fun s t r hrst hb hstep hr => ?_⟩
  rw [step_busy hrst hb] at hstep
  cases hstep
  exact advance_answersWithin s r hr

end Sys2Proof.Machine
end

section
/-! Reset (70_reset_and_hazards.md R160 to R163) and a block whose inputs are missing or come late (R170, R173): a command
either stays where it is, or its next event is the same however many inputs come after it. -/

namespace Sys2Proof.Machine

open Sys2Proof.Claims

/-! ### Reset -/

theorem step_reset {s : State} (hr : s.rst = true) : step s = .next (resetBlock s) := if_pos hr

theorem resetBlock_without_request {s : State} (h : s.busRequest = none) :
    (resetBlock s).history = s.history ∧ (resetBlock s).answers = s.answers := by
  simp [resetBlock, h]

theorem resetBlock_of_request {s : State} {req : BusReq} (h : s.busRequest = some req) :
    (resetBlock s).history = s.history ++ [req.abandoned] ∧ (resetBlock s).answers = s.answers.tail := by
  simp [resetBlock, h]

/-- Settles O2: every register takes its value from `State.reset`, and the request in flight decides the history and the
answers (`resetBlock_without_request`, `resetBlock_of_request`). -/
theorem assertedResetAbandonsTheCommand : Obligations.AssertedResetAbandonsTheCommand := fun s hr =>
  ⟨resetBlock s, step_reset hr, rfl, rfl, rfl, rfl, rfl, rfl, rfl, rfl, resetBlock_without_request,
    fun _ _ _ => resetBlock_of_request, fun _ _ _ => resetBlock_of_request⟩

/-- Settles O1: each value as `State.reset` states it, and no job, so neither delay nor request. -/
theorem resetHoldsTheSpecifiedValues : Obligations.ResetHoldsTheSpecifiedValues :=
  ⟨rfl, rfl, rfl, rfl, rfl, rfl, rfl, rfl, rfl, rfl, rfl, rfl⟩

/-! ### Missing inputs -/

theorem step_without_command {s : State} (hr : s.rst = false) (hb : s.busy = false) (hc : s.cmds = []) :
    step s = .next (advance s) := by
  simp [step, acceptable, hr, hb, hc]

/-- Settles O7: without a command, and without the input a command waits for (`Stopped.advance_eq`), no event comes. -/
theorem blockWaitsForItsInputs : Obligations.BlockWaitsForItsInputs := by
  refine fun s hr => ⟨fun hinv hb hc => ?_, fun hb hwait => ?_⟩
  · obtain ⟨hidle, _⟩ := hinv.flagsFit.idle hb
    rw [step_without_command hr hb hc, advance_idle hidle]
  · have hstop : Stopped s := .inr hwait
    rw [step_busy hr hb, hstop.advance_eq]

/-! ### Late inputs -/

section LateInputs

variable {s : State} {as : List BusAnswer} {k : Nat}

theorem memWrite_withInputs {reg val : Byte} {f g : State → State}
    (hf : ∀ u, f (withInputs as k u) = withInputs as k (f u)) (hg : ∀ u, g (withInputs as k u) = withInputs as k (g u)) :
    memWrite reg val f g s = s ∨
      memWrite reg val f g (withInputs as k s) = withInputs as k (memWrite reg val f g s) := by
  rcases h : s.answers with _ | ⟨_ | _, rest⟩
  · exact .inl (memWrite_unanswered h)
  · rw [memWrite_ok h, ← hf]; exact .inr (memWrite_ok (congrArg (· ++ as) h))
  · rw [memWrite_err h, ← hg]; exact .inr (memWrite_err (congrArg (· ++ as) h))

theorem memRead_withInputs {f : BitVec 48 → State → State} {g : State → State}
    (hf : ∀ d u, f d (withInputs as k u) = withInputs as k (f d u))
    (hg : ∀ u, g (withInputs as k u) = withInputs as k (g u)) :
    memRead f g s = s ∨ memRead f g (withInputs as k s) = withInputs as k (memRead f g s) := by
  rcases h : s.answers with _ | ⟨_ | _, rest⟩
  · exact .inl (memRead_unanswered h)
  · rw [memRead_ok h, ← hf]; exact .inr (memRead_ok (congrArg (· ++ as) h))
  · rw [memRead_err h, ← hg]; exact .inr (memRead_err (congrArg (· ++ as) h))

theorem endDelay_withInputs {f : State → State} (hf : ∀ u, f (withInputs as k u) = withInputs as k (f u)) :
    endDelay f s = s ∨ endDelay f (withInputs as k s) = withInputs as k (endDelay f s) := by
  rcases h : s.timerEnds with _ | n
  · exact .inl (endDelay_running h)
  · have hlate : (withInputs as k s).timerEnds = n + k + 1 := by simp [withInputs, h, Nat.add_right_comm]
    rw [endDelay_over h, ← hf]; exact .inr (endDelay_over hlate)

theorem nextSample_withInputs (want : Want) (s : State) :
    nextSample want (withInputs as k s) = withInputs as k (nextSample want s) := by
  by_cases hc : s.cnt.toNat < nSamples
  · rw [nextSample, nextSample, if_pos hc]; exact if_pos hc
  · rw [nextSample, nextSample, if_neg hc]
    cases want <;> exact if_neg hc

/-- A command without its input stays; with it, its next event does not depend on the inputs behind. -/
theorem advance_withInputs (s : State) (as : List BusAnswer) (k : Nat) :
    advance s = s ∨ advance (withInputs as k s) = withInputs as k (advance s) := by
  have hjob : (withInputs as k s).job = s.job := rfl
  cases hj : s.job <;> rw [hj] at hjob
  case idle => exact .inl (advance_idle hj)
  case initReset =>
    rw [advance_initReset hj, advance_initReset hjob]
    exact memWrite_withInputs (fun _ => rfl) (fun _ => rfl)
  case initSettle =>
    rw [advance_initSettle hj, advance_initSettle hjob]
    exact endDelay_withInputs (fun _ => rfl)
  case initControl1 =>
    rw [advance_initControl1 hj, advance_initControl1 hjob]
    exact memWrite_withInputs (fun _ => rfl) (fun _ => rfl)
  case initRollOver =>
    rw [advance_initRollOver hj, advance_initRollOver hjob]
    exact memWrite_withInputs (fun _ => rfl) (fun _ => rfl)
  case rawRead =>
    rw [advance_rawRead hj, advance_rawRead hjob]
    exact memRead_withInputs (fun _ _ => rfl) (fun _ => rfl)
  case sample want =>
    rw [advance_sample hj, advance_sample hjob]
    exact memRead_withInputs (fun _ _ => rfl) (fun _ => rfl)
  case gap want =>
    rw [advance_gap hj, advance_gap hjob]
    exact endDelay_withInputs (nextSample_withInputs want)

/-- What a command did before further inputs came is the beginning of what it does with them. -/
theorem run_withInputs (s : State) (m k : Nat) (as : List BusAnswer) :
    ∃ j ≤ m, withInputs as k (run m s) = run j (withInputs as k s) := by
  induction m generalizing s with
  | zero => exact ⟨0, le_rfl, rfl⟩
  | succ m ih =>
    obtain hstay | hgo := advance_withInputs s as k
    · exact ⟨0, Nat.zero_le _, by rw [run_fixed hstay, run]⟩
    · obtain ⟨j, hjm, hrun⟩ := ih (advance s)
      exact ⟨j + 1, Nat.succ_le_succ hjm, by rw [run, hrun, run, hgo]⟩

end LateInputs

/-! ### Steps of a busy block -/

@[simp] theorem advance_rst (s : State) : (advance s).rst = s.rst := (advance_frame s).2.2.2.2

/-- The steps of a busy block are the events of its command, up to its end. -/
theorem stepsTo_run (n : Nat) {s : State} (hr : s.rst = false) (hb : s.busy = true) :
    ∃ m ≤ n, StepsTo m s (run n s) := by
  induction n generalizing s with
  | zero => exact ⟨0, le_rfl, rfl⟩
  | succ n ih =>
    obtain hgo | hans := advance_goes_on_or_answers s
    · obtain ⟨m, hmn, hsteps⟩ := ih (s := advance s) ((advance_rst s).trans hr) (hgo.busy.trans hb)
      exact ⟨m + 1, Nat.succ_le_succ hmn, advance s, step_busy hr hb, hsteps⟩
    · rw [run, run_idle hans.job]
      exact ⟨1, Nat.succ_pos n, advance s, step_busy hr hb, rfl⟩

/-- A command past its checks in `v` that ran out of inputs: with them there, at once or later, it ends the same. -/
theorem runCommand_late {v : State} (as : List BusAnswer) (k : Nat) (hr : v.rst = false)
    (hb : (runCommand v).busy = true) :
    ∃ n ≤ 20, StepsTo n (withInputs as k (runCommand v)) (runCommand (withInputs as k v)) := by
  obtain ⟨j, hj, hlate⟩ := run_withInputs v maxEvents k as
  obtain ⟨m, hm⟩ := Nat.exists_eq_add_of_le hj
  have hm20 : m ≤ 20 := by rw [maxEvents] at hm; omega
  have hrest : run m (withInputs as k (runCommand v)) = runCommand (withInputs as k v) := by
    rw [runCommand, runCommand, hlate, ← run_add, ← hm]
  obtain ⟨n, hn, hsteps⟩ := stepsTo_run m (s := withInputs as k (runCommand v)) ((runCommand_rst v).trans hr) hb
  exact ⟨n, hn.trans hm20, hrest ▸ hsteps⟩

/-- Not halted and past the guard. -/
theorem mayAcquire_of_checks {s : State} (hh : s.halt = false) (hn : notReady s = false) : MayAcquire s :=
  ⟨hh, fun hg => by simpa [notReady, hg] using hn⟩

/-- What executing the word `w` with further inputs comes to, the steps from `t` with these inputs come to. -/
def CatchesUp (w : CmdWord) (s : State) (as : List BusAnswer) (k : Nat) (t : State) : Prop :=
  ∃ u, exec (decodeCommand w) (withInputs as k s) = .next u ∧ ∃ n ≤ 20, StepsTo n (withInputs as k t) u

/-- Only a command on the bus is left waiting; it starts the same whatever inputs are there. -/
theorem exec_command_catchesUp {s t : State} {w : CmdWord} (as : List BusAnswer) (k : Nat) (hr : s.rst = false)
    (h : exec (decodeCommand w) s = .next t) (hb : t.busy = true) : CatchesUp w s as k t := by
  revert hb
  apply exec_command_elim (P := fun t => t.busy = true → CatchesUp w s as k t) h
  case init =>
    intro hw hh hp hb
    have hstart : exec (.init 0#16) (withInputs as k s) =
        .next (runCommand (enterInit .initReset (accept (withInputs as k s)))) := by
      simp [exec_init, initialise, withInputs, hh, hp]
    exact ⟨_, hw ▸ hstart, runCommand_late as k hr hb⟩
  case raw =>
    intro hw hh hn hb
    have hmay : MayAcquire (withInputs as k s) := mayAcquire_of_checks hh hn
    exact ⟨_, hw ▸ congrArg Host.Outcome.next (acquire_begins hmay), runCommand_late as k hr hb⟩
  case gauss =>
    intro hw hh hn hb
    have hmay : MayAcquire (withInputs as k s) := mayAcquire_of_checks hh hn
    exact ⟨_, hw ▸ exec_filtered_begins (.inl ⟨rfl, rfl⟩) hmay,
      runCommand_late (v := beginFiltered .gauss (accept s)) as k hr hb⟩
  case heading =>
    intro hw hh hn hengine hb
    have hmay : MayAcquire (withInputs as k s) := mayAcquire_of_checks hh hn
    exact ⟨_, hw ▸ exec_filtered_begins (.inr ⟨rfl, rfl, hengine⟩) hmay,
      runCommand_late (v := beginFiltered .heading (accept s)) as k hr hb⟩
  all_goals nofun

/-- Settles O9: the beginning of a run (`run_withInputs`), the step of a busy block (`step_busy`), and a command left
waiting (`exec_command_catchesUp`). -/
theorem lateInputsChangeNothing : Obligations.LateInputsChangeNothing :=
  ⟨run_withInputs, fun _ => step_busy, fun _ _ _ as k => exec_command_catchesUp as k⟩

end Sys2Proof.Machine
end

section
/-! The scratch registers (10_state.md R21, 70_reset_and_hazards.md R161): the running command reads `CNT` and `ACC_*` only
inside `FilteredAcc()`, which sets them first, and `RAW_*` only in the event that has just written them. -/

namespace Sys2Proof.Machine

/-! ### What the scratch registers hold -/

/-- The contents of `CNT`, `ACC_*` and `RAW_*`. -/
structure Scratch where
  cnt  : BitVec 4
  accX : Int
  accY : Int
  accZ : Int
  rawX : Half
  rawY : Half
  rawZ : Half

def State.scratch (s : State) : Scratch := ⟨s.cnt, s.accX, s.accY, s.accZ, s.rawX, s.rawY, s.rawZ⟩

/-- `s` with other contents of the scratch registers. -/
def State.withScratch (x : Scratch) (s : State) : State :=
  { s with cnt := x.cnt, accX := x.accX, accY := x.accY, accZ := x.accZ, rawX := x.rawX, rawY := x.rawY, rawZ := x.rawZ }

/-- The sums kept, the raw sample cleared. -/
def Scratch.sums (x : Scratch) : Scratch := { x with rawX := 0#16, rawY := 0#16, rawZ := 0#16 }

def Scratch.zero : Scratch := ⟨0#4, 0, 0, 0, 0#16, 0#16, 0#16⟩

/-- The contents that the command in progress at `s`, if any, still reads; zero where it reads none. -/
def State.liveScratch (s : State) : Scratch :=
  match s.job.filteredFor with
  | some _ => s.scratch.sums
  | none => .zero

/-- `s` and `t` differ at most in scratch contents that no command reads any more. -/
def SameButDead (s t : State) : Prop := s.withScratch s.liveScratch = t.withScratch t.liveScratch

theorem SameButDead.eq_withScratch {s t : State} (h : SameButDead s t) : s = t.withScratch s.scratch := by
  have hlive : (s.withScratch s.liveScratch).withScratch s.scratch = (t.withScratch t.liveScratch).withScratch s.scratch :=
    congrArg (State.withScratch s.scratch) h
  exact hlive

theorem liveScratch_of_filtered {s : State} {want : Want} (h : s.job.filteredFor = some want) :
    s.liveScratch = s.scratch.sums := by
  rw [State.liveScratch, h]

theorem liveScratch_of_not_filtered {s : State} (h : s.job.filteredFor = none) : s.liveScratch = .zero := by
  rw [State.liveScratch, h]

/-- Clearing what is dead leaves nothing more to clear. -/
theorem sameButDead_withScratch_live (s : State) : SameButDead (s.withScratch s.liveScratch) s := by
  have hidem : (s.withScratch s.liveScratch).liveScratch = s.liveScratch := by
    cases hf : s.job.filteredFor with
    | some want => rw [liveScratch_of_filtered (s := s.withScratch _) hf, liveScratch_of_filtered hf]; rfl
    | none => rw [liveScratch_of_not_filtered (s := s.withScratch _) hf, liveScratch_of_not_filtered hf]
  rw [SameButDead, hidem]
  rfl

/-! ### The running command -/

section Events

variable {s : State}

theorem memWrite_sameButDead {reg val : Byte} {f g : State → State}
    (hf : ∀ u, SameButDead (f (u.withScratch s.liveScratch)) (f u))
    (hg : ∀ u, SameButDead (g (u.withScratch s.liveScratch)) (g u)) :
    SameButDead (memWrite reg val f g (s.withScratch s.liveScratch)) (memWrite reg val f g s) := by
  rcases h : s.answers with _ | ⟨_ | _, rest⟩
  · rw [memWrite_unanswered h, memWrite_unanswered (s := s.withScratch _) h]; exact sameButDead_withScratch_live s
  · rw [memWrite_ok h, memWrite_ok (s := s.withScratch _) h]
    exact hf (logEvent _ { s with answers := rest })
  · rw [memWrite_err h, memWrite_err (s := s.withScratch _) h]
    exact hg (logEvent _ { s with answers := rest })

theorem memRead_sameButDead {f : BitVec 48 → State → State} {g : State → State}
    (hf : ∀ d u, u.scratch = s.scratch → SameButDead (f d (u.withScratch s.liveScratch)) (f d u))
    (hg : ∀ u, SameButDead (g (u.withScratch s.liveScratch)) (g u)) :
    SameButDead (memRead f g (s.withScratch s.liveScratch)) (memRead f g s) := by
  rcases h : s.answers with _ | ⟨_ | _, rest⟩
  · rw [memRead_unanswered h, memRead_unanswered (s := s.withScratch _) h]; exact sameButDead_withScratch_live s
  · rw [memRead_ok h, memRead_ok (s := s.withScratch _) h]
    exact hf _ (logEvent _ { s with answers := rest }) rfl
  · rw [memRead_err h, memRead_err (s := s.withScratch _) h]
    exact hg (logEvent _ { s with answers := rest })

theorem endDelay_sameButDead {f : State → State}
    (hf : ∀ u, u.scratch = s.scratch → SameButDead (f (u.withScratch s.liveScratch)) (f u)) :
    SameButDead (endDelay f (s.withScratch s.liveScratch)) (endDelay f s) := by
  rcases h : s.timerEnds with _ | n
  · rw [endDelay_running h, endDelay_running (s := s.withScratch _) h]; exact sameButDead_withScratch_live s
  · rw [endDelay_over h, endDelay_over (s := s.withScratch _) h]
    exact hf { s with timerEnds := n } rfl

/-- After a delay only the sums are read. -/
theorem nextSample_sameButDead (want : Want) (u : State) :
    SameButDead (nextSample want (u.withScratch u.scratch.sums)) (nextSample want u) := by
  have hcnt : (u.withScratch u.scratch.sums).cnt = u.cnt := rfl
  by_cases hc : u.cnt.toNat < nSamples
  · rw [nextSample, nextSample, hcnt, if_pos hc, if_pos hc]; rfl
  · rw [nextSample, nextSample, hcnt, if_neg hc, if_neg hc]
    cases want <;> rfl

/-- An event reads no dead contents. -/
theorem advance_sameButDead_live (s : State) : SameButDead (advance (s.withScratch s.liveScratch)) (advance s) := by
  have hjob : (s.withScratch s.liveScratch).job = s.job := rfl
  cases hj : s.job <;> rw [hj] at hjob
  case idle => rw [advance_idle hj, advance_idle hjob]; exact sameButDead_withScratch_live s
  case initReset =>
    rw [advance_initReset hj, advance_initReset hjob]
    exact memWrite_sameButDead (fun _ => rfl) (fun _ => rfl)
  case initSettle =>
    rw [advance_initSettle hj, advance_initSettle hjob]
    exact endDelay_sameButDead (fun _ _ => rfl)
  case initControl1 =>
    rw [advance_initControl1 hj, advance_initControl1 hjob]
    exact memWrite_sameButDead (fun _ => rfl) (fun _ => rfl)
  case initRollOver =>
    rw [advance_initRollOver hj, advance_initRollOver hjob]
    exact memWrite_sameButDead (fun _ => rfl) (fun _ => rfl)
  case rawRead =>
    rw [advance_rawRead hj, advance_rawRead hjob]
    exact memRead_sameButDead (fun _ _ _ => rfl) (fun _ => rfl)
  case sample want =>
    have hlive : s.liveScratch = s.scratch.sums := liveScratch_of_filtered (congrArg Job.filteredFor hj)
    rw [advance_sample hj, advance_sample hjob]
    refine memRead_sameButDead (fun d u hu => ?_) (fun _ => rfl)
    rw [hlive, ← hu]
    rfl
  case gap want =>
    have hlive : s.liveScratch = s.scratch.sums := liveScratch_of_filtered (congrArg Job.filteredFor hj)
    rw [advance_gap hj, advance_gap hjob]
    refine endDelay_sameButDead fun u hu => ?_
    rw [hlive, ← hu]
    exact nextSample_sameButDead want u

end Events

theorem SameButDead.advance {s t : State} (h : SameButDead s t) : SameButDead (advance s) (advance t) := by
  have hs := advance_sameButDead_live s
  rw [show s.withScratch s.liveScratch = t.withScratch t.liveScratch from h] at hs
  exact hs.symm.trans (advance_sameButDead_live t)

theorem SameButDead.run {s t : State} (h : SameButDead s t) (n : Nat) : SameButDead (run n s) (run n t) := by
  induction n generalizing s t with
  | zero => exact h
  | succ n ih => exact ih h.advance

/-! ### The commands -/

/-- `f` does the same whatever the scratch registers hold, but for what it leaves in them. -/
def IgnoresScratch (f : State → State) : Prop := ∀ s x, ∃ y, f (s.withScratch x) = (f s).withScratch y

theorem respond_ignoresScratch (st : Status) (data : Nat) : IgnoresScratch (respond st data) := fun _ x => ⟨x, rfl⟩

/-- A check that does not read the scratch registers. -/
theorem IgnoresScratch.ite {c : State → Prop} [DecidablePred c] {f g : State → State}
    (hc : ∀ s x, c (s.withScratch x) ↔ c s) (hf : IgnoresScratch f) (hg : IgnoresScratch g) :
    IgnoresScratch fun s => if c s then f s else g s := by
  intro s x
  by_cases h : c s
  · simpa only [hc, h, if_true] using hf s x
  · simpa only [hc, h, if_false] using hg s x

/-- The check of `HALT`, which comes first in every command (60_exceptions.md R131). -/
theorem IgnoresScratch.unlessHalted {f : State → State} (hf : IgnoresScratch f) :
    IgnoresScratch fun s => if s.halt then raise .halted 0 s else f s :=
  .ite (c := fun s => s.halt = true) (fun _ _ => Iff.rfl) (respond_ignoresScratch .halted 0) hf

theorem runCommand_ignoresScratch {begin_ : State → State}
    (h : ∀ s x, SameButDead (begin_ (s.withScratch x)) (begin_ s)) :
    IgnoresScratch fun s => runCommand (begin_ s) :=
  fun s x => ⟨_, ((h s x).run maxEvents).eq_withScratch⟩

theorem setOption_ignoresScratch (o : Opt) (v : Half) : IgnoresScratch (setOption o v) := by
  refine .unlessHalted (.ite (c := fun s => s.phase ≠ .uninitialized) (fun _ _ => Iff.rfl)
    (respond_ignoresScratch .seqError 0) fun s x => ⟨x, ?_⟩)
  cases validate o v <;> rfl

theorem initialise_ignoresScratch (arg : Half) : IgnoresScratch (initialise arg) :=
  .unlessHalted <| .ite (c := fun _ => arg ≠ 0#16) (fun _ _ => Iff.rfl) (respond_ignoresScratch .illegalCmd 0) <|
    .ite (c := fun s => s.phase ≠ .uninitialized) (fun _ _ => Iff.rfl) (respond_ignoresScratch .seqError 0) <|
    runCommand_ignoresScratch fun _ _ => rfl

theorem acquire_ignoresScratch (illegal : Bool) {begin_ : State → State}
    (h : ∀ s x, SameButDead (begin_ (s.withScratch x)) (begin_ s)) : IgnoresScratch (acquire illegal begin_) :=
  .unlessHalted <| .ite (c := fun _ => illegal = true) (fun _ _ => Iff.rfl) (respond_ignoresScratch .illegalCmd 0) <|
    .ite (c := fun s => notReady s = true) (fun _ _ => Iff.rfl) (respond_ignoresScratch .notReady 0) <|
    runCommand_ignoresScratch h

theorem encodeCfg_ignoresScratch (arg : Half) : IgnoresScratch (encodeCfg arg) :=
  .unlessHalted <| .ite (c := fun _ => arg ≠ 0#16) (fun _ _ => Iff.rfl) (respond_ignoresScratch .illegalCmd 0)
    fun _ x => ⟨x, rfl⟩

theorem decodeOperand_ignoresScratch (b : Half) : IgnoresScratch (decodeOperand b) := by
  refine .unlessHalted (.ite (c := fun _ => 0xFF < b.toNat) (fun _ _ => Iff.rfl)
    (respond_ignoresScratch .reservedEncoding 0) fun s x => ⟨x, ?_⟩)
  cases decodeValues (b.extractLsb' 0 8) <;> rfl

theorem illegalWord_ignoresScratch : IgnoresScratch illegalWord := .unlessHalted (respond_ignoresScratch .illegalCmd 0)

/-- The write of `INIT` at a position it is entered at. -/
theorem advance_enterInit_ignoresScratch (j : Job) (hj : j.filteredFor = none) :
    IgnoresScratch fun s => advance (enterInit j s) := by
  intro s x
  have hsame : SameButDead (enterInit j (s.withScratch x)) (enterInit j s) := by
    rw [SameButDead, liveScratch_of_not_filtered hj, liveScratch_of_not_filtered hj]
    rfl
  exact ⟨_, hsame.advance.eq_withScratch⟩

/-- `FilteredAcc()` starts from zero sums, whatever stood there (42_acquisition.md R105). -/
theorem beginFiltered_sameButDead (want : Want) (s : State) (x : Scratch) :
    SameButDead (beginFiltered want (s.withScratch x)) (beginFiltered want s) := rfl

theorem IgnoresScratch.accepted {f : State → State} (hf : IgnoresScratch f) : IgnoresScratch fun s => f (accept s) :=
  fun s x => hf (accept s) x

/-- Every instruction: the checks and the immediate answers read no scratch register, and a command on the bus starts with
none live. -/
theorem exec_ignoresScratch (i : Instr) : ∃ f, IgnoresScratch f ∧ ∀ s, exec i s = .next (f s) := by
  cases i
  case setodr v => exact ⟨_, (setOption_ignoresScratch .odr v).accepted, fun _ => rfl⟩
  case setrng v => exact ⟨_, (setOption_ignoresScratch .rng v).accepted, fun _ => rfl⟩
  case setosr v => exact ⟨_, (setOption_ignoresScratch .osr v).accepted, fun _ => rfl⟩
  case setmode v => exact ⟨_, (setOption_ignoresScratch .mode v).accepted, fun _ => rfl⟩
  case init arg => exact ⟨_, (initialise_ignoresScratch arg).accepted, exec_init arg⟩
  case rdraw arg =>
    have hstart : ∀ (s : State) x, SameButDead { s.withScratch x with job := .rawRead } { s with job := .rawRead } :=
      fun _ _ => rfl
    exact ⟨_, (acquire_ignoresScratch (arg != 0#16) hstart).accepted, exec_rdraw arg⟩
  case read arg =>
    exact ⟨_, (acquire_ignoresScratch (arg != 0#16) (beginFiltered_sameButDead .gauss)).accepted, exec_read arg⟩
  case head arg =>
    exact ⟨_, fun s => acquire_ignoresScratch (arg != 0#16 || !s.params.hasHeading)
      (beginFiltered_sameButDead .heading) (accept s), exec_head arg⟩
  case enc arg => exact ⟨_, (encodeCfg_ignoresScratch arg).accepted, exec_enc arg⟩
  case dec b => exact ⟨_, (decodeOperand_ignoresScratch b).accepted, exec_dec b⟩
  case reservedAB => exact ⟨_, illegalWord_ignoresScratch.accepted, fun _ => rfl⟩
  case reservedCF => exact ⟨_, illegalWord_ignoresScratch.accepted, fun _ => rfl⟩
  case ctrl1Byte osr rng odr mode =>
    exact ⟨_, advance_enterInit_ignoresScratch (.initControl1 (packControl1 osr rng odr mode)) rfl, fun _ => rfl⟩
  case ctrl2SoftReset => exact ⟨_, advance_enterInit_ignoresScratch .initReset rfl, exec_ctrl2SoftReset⟩
  case ctrl2RollOver => exact ⟨_, advance_enterInit_ignoresScratch .initRollOver rfl, exec_ctrl2RollOver⟩

/-- Settles O33: the command does the same but for what it leaves in the scratch registers (`exec_ignoresScratch`). -/
theorem scratchIsWrittenBeforeItIsRead : Obligations.ScratchIsWrittenBeforeItIsRead := by
  intro s t w c ax ay az rx ry rz h
  obtain ⟨f, hf, hexec⟩ := exec_ignoresScratch (decodeCommand w)
  obtain ⟨y, hy⟩ := hf s ⟨c, ax, ay, az, rx, ry, rz⟩
  obtain rfl : f s = t := Host.Outcome.next.inj ((hexec s).symm.trans h)
  exact ⟨_, (hexec _).trans (congrArg _ hy), rfl⟩

end Sys2Proof.Machine
end

section
/-! Where each command on the bus stops (70_reset_and_hazards.md R170, R173): at the first transaction without an answer and
at the first delay without an end. -/

namespace Sys2Proof.Machine

open Sys2Proof.Claims

/-- A run that lacks an input after `k` events is the command's. -/
theorem runCommand_of_stopped {u t : State} {k : Nat} (hk : k ≤ maxEvents) (hrun : run k u = t) (hstop : Stopped t) :
    runCommand u = t := by
  obtain ⟨m, hm⟩ := Nat.exists_eq_add_of_le hk
  rw [runCommand, hm, run_add, hrun, run_fixed hstop.advance_eq]

/-! ### `INIT` -/

/-- An `INIT` stays where its run lacks an input. -/
theorem exec_init_of_stopped {s t : State} {as : List BusAnswer} {m k : Nat} (hh : s.halt = false)
    (hp : s.phase = .uninitialized) (ha : s.answers = as) (ht : s.timerEnds = m) (hk : k ≤ maxEvents)
    (hrun : run k (initAt s .initReset [] as m) = t) (hstop : Stopped t) : exec (.init 0#16) s = .next t := by
  rw [exec_init_begins hh hp, ha, ht, runCommand_of_stopped hk hrun hstop]

/-- The soft reset answered, the settle delay begins. -/
theorem run_to_settle {s : State} {d : BitVec 48} {as : List BusAnswer} {n : Nat} :
    run 1 (initAt s .initReset [] (.ok d :: as) n) = initAt s .initSettle (softResetEvents s) as n := by
  rw [run, advance_softReset_ok, run, List.nil_append]

/-! ### `RDRAW` -/

theorem exec_rdraw_unanswered {s : State} (h : MayAcquire s) (ha : s.answers = []) :
    exec (.rdraw 0#16) s = .next { s with busy := true, job := .rawRead } := by
  have hstop : Stopped { accept s with job := .rawRead } := .of_unanswered nofun ha
  rw [exec_rdraw, bne_self_eq_false, acquire_begins h, runCommand_of_stopped (Nat.zero_le _) rfl hstop]
  rfl

/-! ### `FilteredAcc()` -/

/-- `s` in a filtered read with the blocks `ds` read, at the position `j` (42_acquisition.md R105). -/
def State.filteredAt (s : State) (j : Job) (ds : List (BitVec 48)) (rx ry rz : Half) (as : List BusAnswer) (n : Nat) :
    State :=
  { s with
    busy := true
    job := j
    cnt := BitVec.ofNat 4 ds.length
    accX := sumOf s.params.sampleByteOrder ds 0
    accY := sumOf s.params.sampleByteOrder ds 1
    accZ := sumOf s.params.sampleByteOrder ds 2
    rawX := rx
    rawY := ry
    rawZ := rz
    answers := as
    timerEnds := n
    history := s.history ++ readPairs s.params ds }

/-- From zero sums, the accumulator of an axis is the sum of up to ten samples. -/
theorem accAfter_zero {p : Params} (hw : 20 ≤ p.accW) {ds : List (BitVec 48)} (hlen : ds.length ≤ 10) (axis : Nat) :
    accAfter p axis 0 ds = sumOf p.sampleByteOrder ds axis := by
  obtain ⟨hsum, _⟩ := accAfter_eq_sum hw axis (n := 0) (acc := 0) (ds := ds) (by simp [SumOf]) (by omega)
  rw [hsum, zero_add]

/-- With fewer than ten blocks read, the next block read is issued. -/
theorem run_to_sample (want : Want) {s : State} {ds : List (BitVec 48)} {as : List BusAnswer} {n : Nat}
    (hw : 20 ≤ s.params.accW) (hlen : ds.length < 10) (ha : s.answers = ds.map .ok ++ as)
    (ht : s.timerEnds = n + ds.length) : ∃ rx ry rz, run (2 * ds.length) (beginFiltered want (accept s)) =
      s.filteredAt (.sample want) ds rx ry rz as n := by
  obtain ⟨rx, ry, rz, hrun⟩ := run_samples want as n ds (beginFiltered want (accept s)) rfl ha ht (by simpa using hlen)
  refine ⟨rx, ry, rz, hrun.trans ?_⟩
  simp [State.filteredAt, accAfter_zero hw hlen.le, flatMap_sampleEvents, beginFiltered, accept]

/-- The next block answered, its samples are added and the delay after it begins. -/
theorem advance_to_gap (want : Want) {s : State} {ds : List (BitVec 48)} {d : BitVec 48} {rx ry rz : Half}
    {as : List BusAnswer} {n : Nat} (hw : 20 ≤ s.params.accW) (hlen : ds.length < 10) : ∃ rx' ry' rz',
      advance (s.filteredAt (.sample want) ds rx ry rz (.ok d :: as) n) =
        s.filteredAt (.gap want) (ds ++ [d]) rx' ry' rz' as n := by
  have hacc : ∀ axis, accumulate s.params.accW (sumOf s.params.sampleByteOrder ds axis)
      (axisPattern s.params.sampleByteOrder d axis) = sumOf s.params.sampleByteOrder (ds ++ [d]) axis := fun axis => by
    rw [← accAfter_zero hw hlen.le, ← accAfter_zero hw (by simpa using hlen), accAfter, accAfter, List.foldl_concat]
  have hist : readPairs s.params ds ++ sampleEvents s.params d = readPairs s.params (ds ++ [d]) := by
    simp [← flatMap_sampleEvents]
  have hcnt : BitVec.ofNat 4 ds.length + 1#4 = BitVec.ofNat 4 (ds ++ [d]).length := by
    rw [List.length_append, BitVec.ofNat_add]
    rfl
  refine ⟨axisPattern s.params.sampleByteOrder d 0, axisPattern s.params.sampleByteOrder d 1,
    axisPattern s.params.sampleByteOrder d 2, ?_⟩
  rw [advance_sample rfl, readSample, memRead_ok rfl, State.filteredAt, State.filteredAt, ← hcnt, ← hist]
  simp [← hacc, beginDelay, logEvent, addSample, latchRaw, sampleEvents]

/-- A filtered read that lacks the answer of its next block read. -/
theorem exec_filtered_unanswered {s : State} {i : Instr} {want : Want} {ds : List (BitVec 48)} {n : Nat}
    (hi : FilteredRead s.params i want) (h : MayAcquire s) (hw : 20 ≤ s.params.accW) (hlen : ds.length < 10)
    (ha : s.answers = ds.map .ok) (ht : s.timerEnds = n + ds.length) :
    ∃ rx ry rz, exec i s = .next (s.filteredAt (.sample want) ds rx ry rz [] n) := by
  obtain ⟨rx, ry, rz, hrun⟩ := run_to_sample want hw hlen (ha.trans (List.append_nil _).symm) ht
  have hstop : Stopped (s.filteredAt (.sample want) ds rx ry rz [] n) := .of_unanswered nofun rfl
  refine ⟨rx, ry, rz, ?_⟩
  rw [exec_filtered_begins hi h, runCommand_of_stopped (by rw [maxEvents]; omega) hrun hstop]

/-- A filtered read whose delay after the blocks `ds` does not end. -/
theorem exec_filtered_in_delay {s : State} {i : Instr} {want : Want} {ds : List (BitVec 48)} {rest : List BusAnswer}
    (hi : FilteredRead s.params i want) (h : MayAcquire s) (hw : 20 ≤ s.params.accW) (hlen : ds.length ≤ 10)
    (ha : s.answers = ds.map .ok ++ rest) (ht : s.timerEnds + 1 = ds.length) :
    ∃ rx ry rz, exec i s = .next (s.filteredAt (.gap want) ds rx ry rz rest 0) := by
  obtain ⟨es, d, rfl⟩ : ∃ es d, ds = es ++ [d] :=
    ⟨_, _, (List.dropLast_append_getLast (List.ne_nil_of_length_eq_add_one ht.symm)).symm⟩
  rw [List.length_append, List.length_singleton] at hlen ht
  obtain ⟨rx, ry, rz, hrun⟩ := run_to_sample want (n := 0) (as := .ok d :: rest) hw hlen (by simp [ha]) (by omega)
  obtain ⟨rx', ry', rz', hgap⟩ := advance_to_gap want (d := d) (rx := rx) (ry := ry) (rz := rz) (as := rest) (n := 0)
    hw hlen
  have hend := (run_add (2 * es.length) 1 _).trans ((congrArg advance hrun).trans hgap)
  have hstop : Stopped (s.filteredAt (.gap want) (es ++ [d]) rx' ry' rz' rest 0) := .of_running_timer nofun rfl
  refine ⟨rx', ry', rz', ?_⟩
  rw [exec_filtered_begins hi h, runCommand_of_stopped (by rw [maxEvents]; omega) hend hstop]

/-- Settles O52: the events before each wait lead there (`run_to_settle` and the like), and there the input is missing. -/
theorem noCommandPassesAMissingInput : Obligations.NoCommandPassesAMissingInput := by
  refine fun s rest n => ⟨fun hh hp => ⟨fun ha => ?_, fun d1 ha ht => ?_, fun d1 ha ht => ?_, fun d1 d2 ha ht => ?_⟩,
    exec_rdraw_unanswered, fun i want ds hi h hwf => ⟨?_, ?_⟩⟩
  · rw [exec_init_of_stopped hh hp ha rfl (Nat.zero_le _) rfl (.of_unanswered nofun rfl)]
    simp [run, initAt, enterInit, State.afterEvents, ← ha]
  · rw [exec_init_of_stopped hh hp ha ht (by decide) run_to_settle (.of_running_timer nofun rfl)]
    simp [initAt, enterInit, State.afterEvents, ← ht, softResetEvents]
  · rw [exec_init_of_stopped hh hp ha ht (by decide) (run_to_control1 []) (.of_unanswered nofun rfl)]
    rfl
  · rw [exec_init_of_stopped hh hp ha ht (by decide) (run_to_rollOver []) (.of_unanswered nofun rfl)]
    rfl
  · exact exec_filtered_unanswered hi h (Params.accW_of_wf hwf)
  · exact exec_filtered_in_delay hi h (Params.accW_of_wf hwf)

end Sys2Proof.Machine
end

section
/-! The closed statements: the reset state under the invariant (10_state.md R13 to R19, 70_reset_and_hazards.md R161), and the
scaling vectors of 95_test_vectors.md section 5.2. -/

namespace Sys2Proof.Machine

/-- Settles O3: the three parts of the invariant, of which an idle block with zero sums meets the two about the running command
(`flagsFit_of_idle`, `sumsBounded_of_not_filtered`). -/
theorem resetMeetsTheInvariant : Obligations.ResetMeetsTheInvariant := by
  have hwf : State.reset.params.wf = true := by decide
  have hmode : State.reset.cfg.mode.toNat ≤ 1 := by decide
  have hrng : State.reset.cfg.rng.toNat ≤ 1 := by decide
  have hsums : State.reset.SumsBounded :=
    sumsBounded_of_not_filtered rfl ⟨fitsTc_zero _, fitsTc_zero _, fitsTc_zero _⟩
  have hflags : State.reset.FlagsFitPosition := flagsFit_of_idle rfl rfl (by decide)
  exact { hsums, hflags with params_wf := hwf, mode_legal := hmode, rng_legal := hrng }

/-- Settles O38: each row is the scaler's fraction (`scale_eq`), rounded by computation. In the last three the sum -15 has the
mean -3/2, -1 and -2, which tells the divisions apart. -/
theorem scaleVectorsOfTheSpec : Obligations.ScaleVectorsOfTheSpec := by
  refine ⟨?_, ?_, ?_, ?_, ?_⟩ <;> rw [scale_eq] <;> decide

end Sys2Proof.Machine
end
